-- ==== Sys2Proof/Word.lean ====
section
/-! DEFINITION. Word.lean: the widths ECTB's values have (00_scope.md R8, R10). Every value is unsigned; bit 0 is the
least significant bit, and nothing is ever sign-extended. -/

namespace Sys2Proof

/-- A byte: an EC register, a port byte, a field index (R8 `REG_W`, R63). -/
abbrev Byte := BitVec 8

/-- A 16-bit field: a transport address, an operand, a response value or scale (R96, R97, R28). -/
abbrev Half := BitVec 16

/-- A request word (R94). -/
abbrev ReqWord := BitVec 32

/-- A descriptor of the ROM `REGMAP` (R105). -/
abbrev Descriptor := BitVec 64

end Sys2Proof
end

