-- ==== Sys2Proof/Config.lean ====
section
/-! DEFINITION. Config.lean: what is fixed before reset (00_scope.md R8, R9), the moves the environment can make, and the
values the spec leaves free. A free value is a constant without a body: no proof can see what it is. -/

namespace Sys2Proof

/-- `POLL_LIMIT` (R8, R133): the largest number of status reads in one wait, or no bound. -/
inductive PollLimit where
  | inf
  | finite (n : Nat)
  deriving DecidableEq, Repr

/-- `SERIALISE_GUARD` (R8, R240): whether an external lock brackets register access, and how widely. -/
inductive Guard where
  | absent
  | perTransaction
  | perRequest
  deriving DecidableEq, Repr

/-- The parameters R8 marks `OPEN`, and `POLL_INTERVAL`. They are fixed before reset and no step changes them (R9).
They stand in `State` only because the step takes nothing but a state: a statement over every state is then a
statement over every value of the parameters. -/
structure Params where
  /-- `POLL_LIMIT`. -/
  pollLimit : PollLimit
  /-- `POLL_INTERVAL` in microseconds: timing only, no rule reads it (R273). -/
  pollIntervalUs : Nat
  /-- `VOLT_LO` and `VOLT_HI`, where supplied (R170). -/
  voltRegs : Option (Byte × Byte)
  /-- `FANS_ADDR`, where supplied (R170). -/
  fansAddr : Option Byte
  /-- `REGMAP_EXT`: the entries 7 to 255 that are not `NONE`, by index (R171). -/
  regmapExt : List (Nat × Descriptor)
  /-- `SERIALISE_GUARD`. -/
  guard : Guard
  deriving DecidableEq, Repr

/-- One port access of a foreign master (R13, R78): the two ports' reads and writes. -/
inductive ForeignAccess where
  | readStatus
  | writeCommand (c : Byte)
  | readData
  | writeData (v : Byte)
  deriving DecidableEq, Repr, Inhabited

/-- The phase of the reference EC (R65). -/
inductive EcPhase where
  | idle
  | rdAddr
  | wrAddr
  | wrData (a : Byte)
  deriving DecidableEq, Repr, Inhabited

/-- What a race leaves the reference EC in (R78): "any EC register may be written with any byte", so any list of writes, the
last of them last; and any byte of the race may have come from either master, so anything else of the EC. -/
structure RaceResult where
  writes : List (Byte × Byte)
  ibf : Bool
  obf : Bool
  odata : Byte
  inByte : Byte
  inIsCmd : Bool
  phase : EcPhase
  deriving DecidableEq, Repr, Inhabited

/-- The agent that moves next, and its move (R13). -/
inductive Event where
  /-- ECTB takes its enabled step, or none if none is enabled. -/
  | ectb
  /-- The EC takes its step: it consumes the byte in its input buffer (R65). -/
  | ec
  /-- The EC changes one of its own registers (R30). -/
  | ecChange (a v : Byte)
  /-- A foreign master makes one port access (R78). `honours` says whether it honours the external lock of
  `SERIALISE_GUARD`; the lock excludes no master that does not (R240). -/
  | foreign (honours : Bool) (x : ForeignAccess)
  /-- The caller's program runner moves: it presents its next request or takes a response (R35). -/
  | caller
  /-- The caller presents a request of its own, outside any program (R13, R94); after an error too (R229). -/
  | request (q : ReqWord)
  /-- ECTB is reset (R260). -/
  | reset
  deriving DecidableEq, Repr, Inhabited

namespace Config

/-- `CMD_PORT` (R8). -/
def cmdPort : BitVec 16 := 0x66
/-- `DATA_PORT` (R8). -/
def dataPort : BitVec 16 := 0x62
/-- `CMD_READ` (R8, R91). -/
def cmdRead : Byte := 0x80
/-- `CMD_WRITE` (R8, R91). -/
def cmdWrite : Byte := 0x81
/-- `OBF_BIT` (R8, R93). -/
def obfBit : Nat := 0
/-- `IBF_BIT` (R8, R93). -/
def ibfBit : Nat := 1
/-- `NREG` (R8). -/
def numRegs : Nat := 256

/-- The parameters of the original design: no poll bound, about 100 microseconds between polls, no field beyond the ones
R170 fixes, and the guard a model takes that assumes nothing more (R240). -/
def original : Params :=
  { pollLimit := .inf, pollIntervalUs := 100, voltRegs := none, fansAddr := none, regmapExt := [],
    guard := .perTransaction }

/-- FREE: the status byte an EC under no law answers a poll with (R64). -/
opaque freeStatus : Nat → Byte
/-- FREE: the byte an EC under no law answers a data read with (R64). -/
opaque freeData : Nat → Byte
/-- FREE: the byte a register of the reference EC holds that nothing has seeded or written (R65). -/
opaque freeRegister : Nat → Byte
/-- FREE: what a race leaves the reference EC in (R78). -/
opaque freeRace : Nat → RaceResult
/-- FREE: PortAccess's answer (R236). -/
opaque freeGrant : Nat → Bool
/-- FREE: which agent moves next where no schedule says it (R65, R131). -/
opaque freeEvent : Nat → Event

end Config

end Sys2Proof
end

