-- ==== Sys2Proof/Machine/State.lean ====
section
/-! DEFINITION. Machine/State.lean: everything 10_state.md gives the machine: ECTB's control state and latches, the EC
at the other end of the ports, the caller, the environment's answers and schedule, and the parameters. Plain data. -/

namespace Sys2Proof.Machine

/-- `fsm` (R21). -/
inductive Fsm where
  | idle | acq | seq | tx | failed
  deriving DecidableEq, Repr

/-- `tx_kind` (R22). -/
inductive TxKind where
  | rd | wr
  deriving DecidableEq, Repr

/-- `tx_stage` (R22): the numbered handshake stage. -/
inductive TxStage where
  | one | two | three
  deriving DecidableEq, Repr

/-- `tx_sub` (R22): whether the next step reads the status port or performs the stage's access. -/
inductive TxSub where
  | poll | act
  deriving DecidableEq, Repr

/-- `ACQ_STATE` (R27). -/
inductive AcqState where
  | none | granted
  deriving DecidableEq, Repr

/-- The five errors a request can end with (R221). -/
inductive ErrorKind where
  | invalidRegister | permissionDenied | protocolStall | invalidRequest | invalidField
  deriving DecidableEq, Repr

/-- One entry of a request's transaction list (R142): a register read, or a register write with its value. -/
inductive Transaction where
  | rd (a : Byte)
  | wr (a v : Byte)
  deriving DecidableEq, Repr

/-- What a request is made of once its descriptor is known (R142): its transaction list and its result. -/
structure Plan where
  txs : List Transaction
  value : Half
  scale : Half
  deriving DecidableEq, Repr

/-- One port access of ECTB with the byte it moved (R61). -/
inductive PortAccess where
  | readStatus (s : Byte)
  | writeCommand (c : Byte)
  | readData (b : Byte)
  | writeData (v : Byte)
  deriving DecidableEq, Repr

/-- ECTB's own registers (R21 to R28). `REQ_READY` is derived from `fsm` (R29): Machine/Flags.lean. -/
@[ext]
structure Ectb where
  fsm : Fsm
  txKind : TxKind
  txStage : TxStage
  txSub : TxSub
  /-- status reads made in the current wait (R23) -/
  polls : Nat
  /-- index of the next transaction of the request's list (R24) -/
  k : Nat
  opL : BitVec 4
  raddrL : Half
  rdataInL : Byte
  fidxL : Byte
  opndL : Half
  descL : Descriptor
  addrL : Byte
  wdataL : Byte
  byte0 : Byte
  byte1 : Byte
  acqState : AcqState
  rspDone : Bool
  rspErr : BitVec 3
  rspValue : Half
  rspScale : Half
  deriving DecidableEq, Repr

/-- The EC's register space, sparse, by address (R30, R62). A register not listed holds no value the model knows. -/
abbrev Memory := List Host.Cell

/-- The reference EC `EC_REF` (R65): its registers, status bits, output byte, input buffer and phase. -/
@[ext]
structure EcRef where
  regs : Memory
  ibf : Bool
  obf : Bool
  odata : Byte
  /-- the input buffer's byte -/
  inByte : Byte
  /-- whether the input buffer's byte came through the command port -/
  inIsCmd : Bool
  phase : EcPhase
  deriving DecidableEq, Repr

/-- The EC at the other end of the ports. `oracle` is the general model (R64): the EC is under no law and holds nothing
the model can name (R32), and each byte ECTB reads is an answer. `ref` is the premise `EC_REF` (R65) as data. `race` is that
EC while a race lasts (R78): each byte ECTB reads is an answer too, and `e`, drawn when the race began, is the state the EC is
in once it is over (notes/assumptions/15.md). -/
inductive Ec where
  | oracle
  | ref (e : EcRef)
  | race (e : EcRef)
  deriving DecidableEq, Repr

/-- The caller (R13, R35): its request program and pointer, and its side of the request interface (R94). -/
@[ext]
structure Caller where
  prog : List ReqWord
  rp : Nat
  /-- a request of the program has been presented and its response not yet taken -/
  awaiting : Bool
  /-- a request of the run finished with an error (R233) -/
  erred : Bool
  /-- a request was cut off by a reset, so that it neither finished without an error nor with one (R233) -/
  cut : Bool
  /-- the error code the program stopped at, with `rp` where it stopped -/
  stopped : Option (BitVec 3)
  /-- `REQ_VALID` (R94) -/
  reqValid : Bool
  /-- the request word presented with it -/
  reqWord : ReqWord
  deriving DecidableEq, Repr

/-- The environment, as queues the step reads (R13, R64, R78, R236): who moves next, what an EC under no law answers, what
PortAccess answers, what a race leaves the EC in. Where a queue is empty the free values of Config.lean, applied to the counter `draws`, take over. -/
@[ext]
structure Env where
  schedule : List Event
  answers : List Byte
  grants : List Bool
  races : List RaceResult
  draws : Nat
  deriving DecidableEq, Repr

/-- The machine. -/
@[ext]
structure State where
  ectb : Ectb
  ec : Ec
  caller : Caller
  env : Env
  /-- the parameters of R8, which no step changes (R9) -/
  params : Params
  /-- ECTB's port accesses since its reset, newest first: the port trace of R241 -/
  trace : List PortAccess
  deriving DecidableEq, Repr

/-- Why the machine stops. No rule of the spec stops it, and no reachable state does: each of these stands where a state
outside the invariant asks for something no rule gives. -/
inductive Fault where
  /-- Raised by ECTB's step in `ACQ`, `SEQ` or `TX` when `OP_L` is the opcode of no request. Safe: no accepted request
  leaves such an opcode (R99, R130). -/
  | noRequest
  /-- Raised by GETI's step in `SEQ` when `DESC_L` is of a kind R182 gives no transaction list for. Safe: ACCEPT refuses
  those kinds (R172). -/
  | noTransactionList
  /-- Raised by the data read of a read transaction with index `k` of 2 or more, for which R137 names no latch. Safe: no
  transaction list reads there. -/
  | noByteLatch
  deriving DecidableEq, Repr

/-- Instructions without a meaning. -/
inductive Refusal where
  /-- Raised by `exec` for an instruction the model gives no meaning. Safe: the machine stops. No arm raises it: all nine
  instructions have their meaning. -/
  | notModelled (mnemonic : String)
  deriving DecidableEq, Repr

/-- How a step of this machine ends. -/
abbrev Out := Host.Outcome State Fault Refusal

/-- ECTB after reset (R261). The spec gives `fsm`, `polls`, `k`, `ACQ_STATE` and the response registers. The `tx_*` fields
and the latches have no value there; DESIGN CHOICE (notes/assumptions/1.md): zeros, `RD`, stage 1 and `POLL`. -/
def Ectb.reset : Ectb :=
  { fsm := .idle, txKind := .rd, txStage := .one, txSub := .poll, polls := 0, k := 0,
    opL := 0, raddrL := 0, rdataInL := 0, fidxL := 0, opndL := 0, descL := 0,
    addrL := 0, wdataL := 0, byte0 := 0, byte1 := 0,
    acqState := .none, rspDone := false, rspErr := 0, rspValue := 0, rspScale := 0 }

/-- A caller with no program and nothing presented; `rp` starts at 0 (R35). -/
def Caller.reset : Caller :=
  { prog := [], rp := 0, awaiting := false, erred := false, cut := false, stopped := none, reqValid := false, reqWord := 0 }

/-- An environment with nothing queued. -/
def Env.reset : Env := { schedule := [], answers := [], grants := [], races := [], draws := 0 }

/-- The machine right after ECTB's reset (R260 to R263). Reset leaves the EC alone and everything about it is unknown
(R262), so the EC is the general one, under no law. -/
def State.reset : State :=
  { ectb := Ectb.reset, ec := .oracle, caller := Caller.reset, env := Env.reset,
    params := Config.original, trace := [] }

end Sys2Proof.Machine
end

