-- ==== Sys2Proof/Machine/Flags.lean ====
section
/-! DEFINITION. Machine/Flags.lean: the flags a rule reads or writes: the status bits OBF and IBF, the condition of each
wait, the error codes of `RSP_ERR`, `REQ_READY`, and the value a response stands for. -/

namespace Sys2Proof.Machine

/-- OBF: a byte is ready to be read from the data port (R31, R93). -/
def obf (s : Byte) : Bool := s.getLsbD Config.obfBit

/-- IBF: the EC has not yet consumed the last byte written (R31, R93). -/
def ibf (s : Byte) : Bool := s.getLsbD Config.ibfBit

/-- The status byte of the reference EC: `{0b000000, IBF, OBF}` (R65). -/
def statusByte (ibf obf : Bool) : Byte := 0#6 ++ BitVec.ofBool ibf ++ BitVec.ofBool obf

/-- `cond(kind, stage, s)`: what the wait of a stage waits for (R132). -/
def waitHolds (kind : TxKind) (stage : TxStage) (s : Byte) : Bool :=
  match kind, stage with
  | .rd, .one => !ibf s
  | .rd, .two => !ibf s
  | .rd, .three => obf s
  | .wr, .one => !ibf s
  | .wr, .two => !ibf s
  | .wr, .three => !ibf s

/-- Whether a count of unsatisfied polls has reached `POLL_LIMIT` (R133). -/
def pollLimitReached (l : PollLimit) (polls : Nat) : Bool :=
  match l with
  | .inf => false
  | .finite n => decide (n ≤ polls)

/-- The code of an error in `RSP_ERR` (R102); 0 is `OK`, and 6 and 7 are never produced. -/
def ErrorKind.code : ErrorKind → BitVec 3
  | .invalidRegister => 1
  | .permissionDenied => 2
  | .protocolStall => 3
  | .invalidRequest => 4
  | .invalidField => 5

/-- `REQ_READY` (R29). -/
def Ectb.reqReady (c : Ectb) : Bool := c.fsm == .idle

/-- The semantic value of a successful read: the exact rational `RSP_VALUE / RSP_SCALE` (R28, R103, R180). -/
def Ectb.semanticValue (c : Ectb) : Rat := (c.rspValue.toNat : Rat) / (c.rspScale.toNat : Rat)

/-- A transaction is under way: from its first POLL to its last ACT (R240). A transaction that a PROTOCOL_STALL or a reset ends
has no last ACT, and R240 does not say when its lock is released. DESIGN CHOICE (notes/assumptions/21.md): at once, in the step
that ends it, since `fsm` then is not `TX`. -/
def Ectb.txOpen (c : Ectb) : Bool :=
  c.fsm == .tx && !(c.txStage == .one && c.txSub == .poll && c.polls == 0)

/-- Whether the external lock is held on ECTB's behalf, so that no master honouring it drives the ports (R240): within a
transaction, or from the request's first port access until its finish, which an error is too (R228). DESIGN CHOICE
(notes/assumptions/21.md), since R240 does not say: under `per_transaction` a stall, and under both a reset, that comes before
the last ACT or the finish releases the lock at once. -/
def Ectb.lockHeld (c : Ectb) (g : Guard) : Bool :=
  match g with
  | .absent => false
  | .perTransaction => c.txOpen
  | .perRequest => c.txOpen || ((c.fsm == .seq || c.fsm == .tx) && decide (0 < c.k))

end Sys2Proof.Machine
end

