-- ==== Sys2Proof/Machine/Memory.lean ====
section
/-! DEFINITION. Machine/Memory.lean: the EC register space of 256 bytes (20_memory.md R62, R63) as the reference EC holds
it: a list of cells by strictly rising address. An address that is not listed holds no value (R65: "Registers the vector
does not seed hold no value"), so no listed cell can equal what an unlisted one reads as. -/

namespace Sys2Proof.Machine

/-- The byte listed at an address, if any. -/
def Memory.read (m : Memory) (a : Nat) : Option Byte :=
  match m with
  | [] => none
  | (b, v) :: rest => if b = a then some v else Memory.read rest a

/-- The memory with one byte written, its cells still in rising order. -/
def Memory.write (m : Memory) (a : Nat) (v : Byte) : Memory :=
  match m with
  | [] => [(a, v)]
  | (b, w) :: rest =>
    if a < b then (a, v) :: (b, w) :: rest
    else if a = b then (a, v) :: rest
    else (b, w) :: Memory.write rest a v

/-- Every cell's address is at least `lo`, below 256, and above the one before it. -/
def Memory.wfFrom (lo : Nat) (m : Memory) : Bool :=
  match m with
  | [] => true
  | (a, _) :: rest => decide (lo ≤ a) && decide (a < Config.numRegs) && Memory.wfFrom (a + 1) rest

/-- The canonical form: addresses strictly rising, each one of the 256 registers. -/
def Memory.wf (m : Memory) : Bool := Memory.wfFrom 0 m

/-- The EC registers the model knows: those of the reference EC, none of an EC under no law (R64), and while a race lasts the
ones it leaves behind (R78). -/
def Ec.memory : Ec → Memory
  | .oracle => []
  | .ref e => e.regs
  | .race e => e.regs

/-- EC register `a` as the model knows it. -/
def State.ecReg (s : State) (a : Byte) : Option Byte := s.ec.memory.read a.toNat

end Sys2Proof.Machine
end

