-- ==== Sys2Proof/Machine/Ports.lean ====
section
/-! DEFINITION. Machine/Ports.lean: the four port accesses (20_memory.md R61, R66), as the EC at the other end answers
them: the reference EC by R65, an EC under no law by a draw (R64). -/

namespace Sys2Proof.Machine

/-- ECTB's registers changed, everything else as before. -/
def State.onEctb (f : Ectb → Ectb) (s : State) : State := { s with ectb := f s.ectb }

/-- The EC changed, everything else as before. -/
def State.setEc (e : Ec) (s : State) : State := { s with ec := e }

/-- One port access of ECTB added to its trace (R241). -/
def State.log (x : PortAccess) (s : State) : State := { s with trace := x :: s.trace }

/-- The number of a port: the two ports ECTB reaches, and no other (R60, R61). -/
def PortAccess.port : PortAccess → BitVec 16
  | .readStatus _ => Config.cmdPort
  | .writeCommand _ => Config.cmdPort
  | .readData _ => Config.dataPort
  | .writeData _ => Config.dataPort

/-- The next byte the environment answers: the queue's first, or a free value (R64). -/
def State.drawByte (free : Nat → Byte) (s : State) : Byte × State :=
  match s.env.answers with
  | b :: rest => (b, { s with env := { s.env with answers := rest, draws := s.env.draws + 1 } })
  | [] => (free s.env.draws, { s with env := { s.env with draws := s.env.draws + 1 } })

/-- What the next race leaves the reference EC in: the queue's first, or a free value (R78). -/
def State.drawRace (s : State) : RaceResult × State :=
  match s.env.races with
  | r :: rest => (r, { s with env := { s.env with races := rest, draws := s.env.draws + 1 } })
  | [] => (Config.freeRace s.env.draws, { s with env := { s.env with draws := s.env.draws + 1 } })

/-- PortAccess's next answer: the queue's first, or a free value (R236). -/
def State.drawGrant (s : State) : Bool × State :=
  match s.env.grants with
  | g :: rest => (g, { s with env := { s.env with grants := rest, draws := s.env.draws + 1 } })
  | [] => (Config.freeGrant s.env.draws, { s with env := { s.env with draws := s.env.draws + 1 } })

/-- The reference EC's status byte (R65). -/
def EcRef.status (e : EcRef) : Byte := statusByte e.ibf e.obf

/-- A host write hands the EC a byte: `inbuf <- (v, is_cmd); IBF <- 1` (R65, R66). -/
def EcRef.deliver (e : EcRef) (v : Byte) (isCmd : Bool) : EcRef :=
  { e with inByte := v, inIsCmd := isCmd, ibf := true }

/-- A host read of the data port takes the output byte: `OBF <- 0`, `ODATA` unchanged (R65, R66). -/
def EcRef.takeOutput (e : EcRef) : EcRef := { e with obf := false }

/-- A byte handed to the EC: the reference EC buffers it; what an EC under no law does with it is not modelled (R64); in a race
the EC may take a byte of either master, so the state drawn for the race's end covers this one (R78). -/
def Ec.deliver (e : Ec) (v : Byte) (isCmd : Bool) : Ec :=
  match e with
  | .oracle => .oracle
  | .ref r => .ref (r.deliver v isCmd)
  | .race r => .race r

/-- The race, if there is one, is over: the EC is the reference EC again, in the state the race left it in (R78). -/
def Ec.endRace : Ec → Ec
  | .oracle => .oracle
  | .ref e => .ref e
  | .race e => .ref e

/-- The EC when the race, if there is one, is over. -/
def State.endRace (s : State) : State := s.setEc s.ec.endRace

/-- A status byte that is an answer of the environment (R64, R78). -/
def drawStatus (s : State) : Byte × State :=
  ((s.drawByte Config.freeStatus).1, (s.drawByte Config.freeStatus).2.log (.readStatus (s.drawByte Config.freeStatus).1))

/-- A data byte that is an answer of the environment (R64, R78). -/
def drawData (s : State) : Byte × State :=
  ((s.drawByte Config.freeData).1, (s.drawByte Config.freeData).2.log (.readData (s.drawByte Config.freeData).1))

/-- `PortRead(CMD_PORT)`: the status byte (R61). -/
def readStatus (s : State) : Byte × State :=
  match s.ec with
  | .oracle => drawStatus s
  | .race _ => drawStatus s
  | .ref e => (e.status, s.log (.readStatus e.status))

/-- `PortRead(DATA_PORT)`: the EC's output byte (R61). -/
def readData (s : State) : Byte × State :=
  match s.ec with
  | .oracle => drawData s
  | .race _ => drawData s
  | .ref e => (e.odata, (s.setEc (.ref e.takeOutput)).log (.readData e.odata))

/-- `PortWrite(CMD_PORT, c)`: delivers the command byte `c` (R61). -/
def writeCommand (c : Byte) (s : State) : State := (s.setEc (s.ec.deliver c true)).log (.writeCommand c)

/-- `PortWrite(DATA_PORT, v)`: delivers a data byte, an address or a value (R61). -/
def writeData (v : Byte) (s : State) : State := (s.setEc (s.ec.deliver v false)).log (.writeData v)

end Sys2Proof.Machine
end

