-- ==== Sys2Proof/Machine/EcCommand.lean ====
section
/-! DEFINITION. Machine/EcCommand.lean: the EC's side of the command port: its two command bytes, and the data bytes that
follow them (30_encoding.md R91, 20_memory.md R65). An EC under no law has no state here for a byte to change (R64), nor has one in a race, whose end is drawn (R78). -/

namespace Sys2Proof.Machine

/-- The reference EC before any traffic: `IBF = 0`, `OBF = 0`, idle, the registers as seeded (R65). What the empty output
and input buffers hold is not given; DESIGN CHOICE (notes/assumptions/5.md): zero. -/
def EcRef.start (regs : Memory) : EcRef :=
  { regs := regs, ibf := false, obf := false, odata := 0, inByte := 0, inIsCmd := false, phase := .idle }

/-- The EC consumes the byte in its input buffer and enters a phase: `IBF <- 0` (R65). -/
def EcRef.consume (e : EcRef) (phase : EcPhase) : EcRef := { e with ibf := false, phase := phase }

/-- The EC consumes a command byte that begins a transaction (R65, R91). -/
def beginPhase (phase : EcPhase) (s : State) : State :=
  match s.ec with
  | .oracle => s
  | .race _ => s
  | .ref e => s.setEc (.ref (e.consume phase))

/-- EC_READ_CMD, 0x80, consumed by the EC: begin a register read; an address byte follows (R65, R91). -/
def execEcReadCmd (s : State) : Out := .next (beginPhase .rdAddr s)

/-- EC_WRITE_CMD, 0x81, consumed by the EC: begin a register write; an address and a value byte follow (R65, R91). -/
def execEcWriteCmd (s : State) : Out := .next (beginPhase .wrAddr s)

/-- The reply to a read: `ODATA <- R[b]; OBF <- 1`, the EC idle again (R65). -/
def EcRef.reply (e : EcRef) (b : Byte) : EcRef := { e.consume .idle with odata := b, obf := true }

/-- The EC consumes an address byte of a read. A register with no value answers with a draw: the queue's next byte, or a
free value. -/
def ecAnswer (e : EcRef) (s : State) : State :=
  match e.regs.read e.inByte.toNat with
  | some b => s.setEc (.ref (e.reply b))
  | none => (s.drawByte Config.freeRegister).2.setEc (.ref (e.reply (s.drawByte Config.freeRegister).1))

/-- The EC stores a byte: `R[a] <- b`, idle again (R65). -/
def EcRef.store (e : EcRef) (a b : Byte) : EcRef := { e.consume .idle with regs := e.regs.write a.toNat b }

/-- The EC consumes a data byte, in the role its phase gives it (R65). A data byte with no transaction open is "behaviour
not in source": from there on the EC is under no law. -/
def ecDataByte (e : EcRef) (s : State) : State :=
  match e.phase with
  | .idle => s.setEc .oracle
  | .rdAddr => ecAnswer e s
  | .wrAddr => s.setEc (.ref (e.consume (.wrData e.inByte)))
  | .wrData a => s.setEc (.ref (e.store a e.inByte))

end Sys2Proof.Machine
end

