-- ==== Sys2Proof/Machine/Descriptor.lean ====
section
/-! DEFINITION. Machine/Descriptor.lean: the fields of a descriptor, its kinds, its well-formedness, and which request
applies to which kind (30_encoding.md R104 to R106, 41_bitfield.md R172). -/

namespace Sys2Proof.Machine

/-- The encodings a descriptor's `KIND` selects (R104). -/
inductive Kind where
  | none | bool | enum | u8 | u16le | scaled | level | maskedGt | reserved
  deriving DecidableEq, Repr

/-- The number of set bits (R10). -/
def popcount (m : Byte) : Nat := ((List.range 8).filter (fun i => m.getLsbD i)).length

/-- The index of the lowest set bit (R10); 8 for zero, which no rule asks for. -/
def ctz (m : Byte) : Nat := ((List.range 8).find? (fun i => m.getLsbD i)).getD 8

namespace Desc

/-- `KIND`, bits 63:60 (R105). -/
def kindBits (d : Descriptor) : BitVec 4 := d.extractLsb' 60 4
/-- `INV`, bit 59: the polarity, true when inverted (R105). -/
def inv (d : Descriptor) : Bool := d.getLsbD 59
/-- `RSV0`, bits 58:56 (R105). -/
def rsv0 (d : Descriptor) : BitVec 3 := d.extractLsb' 56 3
/-- `ADDR`, bits 55:48 (R105). -/
def addr (d : Descriptor) : Byte := d.extractLsb' 48 8
/-- `ADDR_HI`, bits 47:40 (R105). -/
def addrHi (d : Descriptor) : Byte := d.extractLsb' 40 8
/-- `MASK`, bits 39:32 (R105). -/
def mask (d : Descriptor) : Byte := d.extractLsb' 32 8
/-- `PARAM`, bits 31:24 (R105). -/
def param (d : Descriptor) : Byte := d.extractLsb' 24 8
/-- `SCALE`, bits 23:8 (R105). -/
def scale (d : Descriptor) : Half := d.extractLsb' 8 16
/-- `RSV1`, bits 7:0 (R105). -/
def rsv1 (d : Descriptor) : Byte := d.extractLsb' 0 8

/-- The kind a descriptor's `KIND` field names (R104). -/
def kind (d : Descriptor) : Kind :=
  match (kindBits d).toNat with
  | 0 => .none
  | 1 => .bool
  | 2 => .enum
  | 3 => .u8
  | 4 => .u16le
  | 5 => .scaled
  | 6 => .level
  | 7 => .maskedGt
  | _ => .reserved

/-- The per-kind conditions on `MASK`, `ADDR_HI`, `PARAM` and `SCALE`: the table of R106. `NONE` and the reserved kinds
have no row. -/
def kindWf (d : Descriptor) : Bool :=
  match kind d with
  | .none => false
  | .bool => popcount (mask d) == 1 && addrHi d == 0 && param d == 0 && scale d == 0
  | .enum => mask d != 0 && addrHi d == 0 && param d == 0 && scale d == 0
  | .u8 => mask d != 0 && addrHi d == 0 && param d == 0 && scale d == 0
  | .u16le => mask d == 0xFF && decide ((addr d).toNat < (addrHi d).toNat) && param d == 0 && scale d == 0
  | .scaled => mask d == 0xFF && decide ((addr d).toNat < (addrHi d).toNat) && param d == 0 && scale d != 0
  | .level => mask d == 0xFF && addrHi d == 0 && param d != 0 && scale d == 0
  | .maskedGt => mask d != 0 && addrHi d == 0 && scale d == 0
  | .reserved => false

/-- `wf(d)` (R106): the reserved bits are zero, `INV` only on a boolean, and the kind's row holds. -/
def wf (d : Descriptor) : Bool :=
  rsv0 d == 0 && rsv1 d == 0 && (!inv d || kind d == .bool) && kindWf d

end Desc

/-- `kind_ok(op, kind)` (R172): which field request admits which kind. -/
def kindOk (op : BitVec 4) (k : Kind) : Bool :=
  match op.toNat with
  | 3 => k == .bool
  | 4 => k == .enum || k == .u8 || k == .u16le || k == .scaled || k == .level || k == .maskedGt
  | 5 => k == .bool
  | 6 => k == .bool
  | 7 => k == .level
  | _ => false

end Sys2Proof.Machine
end

