-- ==== Sys2Proof/Machine/Bitfield.lean ====
section
/-! DEFINITION. Machine/Bitfield.lean: the pure decode and encode functions of the field layer (41_bitfield.md R173 to
R180). `d` is a well-formed descriptor wherever a rule calls one of these. -/

namespace Sys2Proof.Machine

/-- Boolean decode: the mask, then the polarity (R173). -/
def boolDecode (b : Byte) (d : Descriptor) : Bool := (b &&& Desc.mask d != 0) ^^ Desc.inv d

/-- Boolean encode: clear the mask's bits, then OR in the pattern of `v` under the polarity (R174). -/
def boolEncode (b : Byte) (d : Descriptor) (v : Bool) : Byte :=
  (b &&& ~~~ Desc.mask d) ||| (if v ^^ Desc.inv d then Desc.mask d else 0)

/-- Enumerated decode: the masked bits, shifted down to bit 0 (R175). -/
def enumDecode (b : Byte) (d : Descriptor) : Byte := (b &&& Desc.mask d) >>> ctz (Desc.mask d)

/-- Single-byte unsigned decode (R176). -/
def u8Decode (b : Byte) (d : Descriptor) : Byte := b &&& Desc.mask d

/-- Two-byte little-endian composite: `hi * 256 + lo` (R177). -/
def compose16 (lo hi : Byte) : Half := BitVec.ofNat 16 (hi.toNat * 256 + lo.toNat)

/-- Masked-threshold decode, exactly as the source observes it (R178). -/
def maskedGtDecode (b : Byte) (d : Descriptor) : Byte :=
  if (Desc.param d).toNat < (b &&& Desc.mask d).toNat then 1 else 0

/-- Level encode: `n mod PARAM` (R179). -/
def levelEncode (n : Half) (d : Descriptor) : Byte := BitVec.ofNat 8 (n.toNat % (Desc.param d).toNat)

/-- A byte as a 16-bit response value, zero-extended (R103). -/
def byteValue (b : Byte) : Half := b.setWidth 16

/-- A truth value as a response value: 1 is true (R103). -/
def boolValue (v : Bool) : Half := if v then 1 else 0

end Sys2Proof.Machine
end

