-- ==== Sys2Proof/Syntax.lean ====
section
/-! DEFINITION. Syntax.lean: the instructions of spec/opcode_table.json, the two kinds of word that spell them, and the
abstract syntax of the assembly language (30_encoding.md R91, R98, R109, R110). -/

namespace Sys2Proof

/-- One constructor per row of the opcode table. The first seven are the requests a caller presents to ECTB (R98);
the last two are the command bytes the EC takes from the command port (R91). Every operand has the width of its field,
so each constructor's arguments are exactly the values its encoding admits. -/
inductive Instr where
  /-- `RDREG`: read one EC register; addresses 256 to 65535 are encodable (R96) and refused at execution (R222). -/
  | rdreg (addr : Half)
  /-- `WRREG`: write one EC register. -/
  | wrreg (addr : Half) (value : Byte)
  /-- `GETB`: read a boolean field. -/
  | getb (fidx : Byte)
  /-- `GETI`: read an integer field. -/
  | geti (fidx : Byte)
  /-- `SETB`: set a boolean field by read-modify-write. -/
  | setb (fidx : Byte) (value : Bool)
  /-- `TOGL`: invert a boolean field. -/
  | togl (fidx : Byte)
  /-- `SETL`: write a level field. -/
  | setl (fidx : Byte) (n : Half)
  /-- `EC_READ_CMD`: the EC's command byte 0x80, begin a register read. -/
  | ecReadCmd
  /-- `EC_WRITE_CMD`: the EC's command byte 0x81, begin a register write. -/
  | ecWriteCmd
  deriving DecidableEq, Repr

/-- What can spell an instruction: a request word at ECTB's request interface (R94), or a byte written to the command
port (R91). The two never mix: a command byte is not a request word. -/
inductive Wire where
  | request (q : ReqWord)
  | command (c : Byte)
  deriving DecidableEq, Repr

/-- The names of the fixed entries of `REGMAP` (R170). -/
inductive FieldName where
  | wlan | blue | tpad | bklt | bcap | volt | fans
  deriving DecidableEq, Repr

/-- A `<field>` of the assembly language: a name of R170 or `#<index>` (R109). The index is a plain number, so that an
index too large can be written down and refused. -/
inductive FieldRef where
  | name (f : FieldName)
  | index (n : Nat)
  deriving DecidableEq, Repr

/-- One line of the assembly language (R109) or a pseudo-instruction (R110). Numbers are plain, so that one outside its
field's width can be written down and refused as an assembly error. -/
inductive Asm where
  | rdreg (addr : Nat)
  | wrreg (addr value : Nat)
  | getb (f : FieldRef)
  | geti (f : FieldRef)
  | setb (f : FieldRef) (value : Bool)
  | togl (f : FieldRef)
  | setl (f : FieldRef) (n : Nat)
  | on (f : FieldRef)
  | off (f : FieldRef)
  | dump
  deriving DecidableEq, Repr

end Sys2Proof
end

