-- ==== Sys2Proof/Decode.lean ====
section
/-! DEFINITION. Decode.lean: the total decoder of request words and command bytes, the encoder, and the opcode map as
rows of match and mask (30_encoding.md R91 to R101, R108). -/

namespace Sys2Proof

/-- Why a word spells no instruction. For a request word each reason is the spec's `Invalid(INVALID_REQUEST)` (R108). -/
inductive DecodeError where
  /-- `RSV` (bits 27:24) is not zero (R95, R100). -/
  | reservedBits
  /-- `OP` is 0x0 or 0x8 to 0xF (R99). -/
  | reservedOpcode
  /-- RDREG with a nonzero `DATA` field (R98, R100). -/
  | dataNotZero
  /-- A field request with a 1 in a must-be-zero bit of `OPND` (R98, R100). -/
  | operandNotZero
  /-- A command byte other than 0x80 and 0x81 (R92). -/
  | unknownCommand
  deriving DecidableEq, Repr

namespace Req

/-- `OP = q[31:28]` (R95). -/
def op (q : ReqWord) : BitVec 4 := q.extractLsb' 28 4
/-- `RSV = q[27:24]` (R95). -/
def rsv (q : ReqWord) : BitVec 4 := q.extractLsb' 24 4
/-- `ADDR = q[23:8]` (R96). -/
def addr (q : ReqWord) : Half := q.extractLsb' 8 16
/-- `DATA = q[7:0]` (R96). -/
def data (q : ReqWord) : Byte := q.extractLsb' 0 8
/-- `FIDX = q[23:16]` (R97). -/
def fidx (q : ReqWord) : Byte := q.extractLsb' 16 8
/-- `OPND = q[15:0]` (R97). -/
def opnd (q : ReqWord) : Half := q.extractLsb' 0 16

/-- A format T word: `{OP, RSV = 0, ADDR, DATA}` (R96). -/
def formatT (op : BitVec 4) (addr : Half) (data : Byte) : ReqWord := op ++ 0#4 ++ addr ++ data
/-- A format F word: `{OP, RSV = 0, FIDX, OPND}` (R97). -/
def formatF (op : BitVec 4) (fidx : Byte) (opnd : Half) : ReqWord := op ++ 0#4 ++ fidx ++ opnd

end Req

/-- The opcodes of R98. -/
def opRdreg : BitVec 4 := 1
/-- WRREG's opcode (R98). -/
def opWrreg : BitVec 4 := 2
/-- GETB's opcode (R98). -/
def opGetb : BitVec 4 := 3
/-- GETI's opcode (R98). -/
def opGeti : BitVec 4 := 4
/-- SETB's opcode (R98). -/
def opSetb : BitVec 4 := 5
/-- TOGL's opcode (R98). -/
def opTogl : BitVec 4 := 6
/-- SETL's opcode (R98). -/
def opSetl : BitVec 4 := 7

/-- SETB's operand: the boolean in bit 0, zero above (R97, R101). -/
def boolOperand (v : Bool) : Half := if v then 1 else 0

/-- The decoder of request words (R108): the check of `RSV` first, then the opcode, then its must-be-zero bits. -/
def decodeRequest (q : ReqWord) : Except DecodeError Instr :=
  if Req.rsv q ≠ 0 then .error .reservedBits
  else if Req.op q = opRdreg then
    if Req.data q ≠ 0 then .error .dataNotZero else .ok (.rdreg (Req.addr q))
  else if Req.op q = opWrreg then .ok (.wrreg (Req.addr q) (Req.data q))
  else if Req.op q = opGetb then
    if Req.opnd q ≠ 0 then .error .operandNotZero else .ok (.getb (Req.fidx q))
  else if Req.op q = opGeti then
    if Req.opnd q ≠ 0 then .error .operandNotZero else .ok (.geti (Req.fidx q))
  else if Req.op q = opSetb then
    if (Req.opnd q).extractLsb' 1 15 ≠ 0 then .error .operandNotZero
    else .ok (.setb (Req.fidx q) ((Req.opnd q).getLsbD 0))
  else if Req.op q = opTogl then
    if Req.opnd q ≠ 0 then .error .operandNotZero else .ok (.togl (Req.fidx q))
  else if Req.op q = opSetl then .ok (.setl (Req.fidx q) (Req.opnd q))
  else .error .reservedOpcode

/-- The decoder of command bytes (R91); any other byte spells no command (R92). -/
def decodeCommand (c : Byte) : Except DecodeError Instr :=
  if c = Config.cmdRead then .ok .ecReadCmd
  else if c = Config.cmdWrite then .ok .ecWriteCmd
  else .error .unknownCommand

/-- The decoder, total on both kinds of word. -/
def decode : Wire → Except DecodeError Instr
  | .request q => decodeRequest q
  | .command c => decodeCommand c

/-- The word of an instruction (R91, R96 to R98, R101). -/
def encode : Instr → Wire
  | .rdreg addr => .request (Req.formatT opRdreg addr 0)
  | .wrreg addr value => .request (Req.formatT opWrreg addr value)
  | .getb fidx => .request (Req.formatF opGetb fidx 0)
  | .geti fidx => .request (Req.formatF opGeti fidx 0)
  | .setb fidx value => .request (Req.formatF opSetb fidx (boolOperand value))
  | .togl fidx => .request (Req.formatF opTogl fidx 0)
  | .setl fidx n => .request (Req.formatF opSetl fidx n)
  | .ecReadCmd => .command Config.cmdRead
  | .ecWriteCmd => .command Config.cmdWrite

/-- A row of the opcode map: a word `q` spells the row's instruction exactly when `q & mask = value` (R98). -/
structure OpcodeRow where
  mask : ReqWord
  value : ReqWord
  deriving DecidableEq, Repr

/-- A word spells a row's instruction (R98). -/
def OpcodeRow.spells (r : OpcodeRow) (q : ReqWord) : Bool := q &&& r.mask == r.value

/-- The seven rows of R98, in the order of their opcodes. -/
def opcodeRows : List OpcodeRow :=
  [ { mask := 0xFF0000FF, value := 0x10000000 },
    { mask := 0xFF000000, value := 0x20000000 },
    { mask := 0xFF00FFFF, value := 0x30000000 },
    { mask := 0xFF00FFFF, value := 0x40000000 },
    { mask := 0xFF00FFFE, value := 0x50000000 },
    { mask := 0xFF00FFFF, value := 0x60000000 },
    { mask := 0xFF000000, value := 0x70000000 } ]

/-- The row of R98 that an instruction's word matches; the EC's command bytes have none. -/
def opcodeRow : Instr → Option OpcodeRow
  | .rdreg _ => opcodeRows[0]?
  | .wrreg _ _ => opcodeRows[1]?
  | .getb _ => opcodeRows[2]?
  | .geti _ => opcodeRows[3]?
  | .setb _ _ => opcodeRows[4]?
  | .togl _ => opcodeRows[5]?
  | .setl _ _ => opcodeRows[6]?
  | .ecReadCmd => none
  | .ecWriteCmd => none

/-- The instruction of a word of the opcode table, numbered as the table numbers its bits: a row of 8 bits is a command
byte, a longer one a request word (the table's requests have 32 bits); a number that does not fit its bits is none. -/
def decodeTableWord (nbits w : Nat) : Option Instr :=
  if 2 ^ nbits ≤ w then none
  else
    match decode (if nbits ≤ 8 then .command (BitVec.ofNat 8 w) else .request (BitVec.ofNat 32 w)) with
    | .ok i => some i
    | .error _ => none

end Sys2Proof
end

