-- ==== Sys2Proof/Machine/Operands.lean ====
section
/-! DEFINITION. Machine/Operands.lean: a request's operands as its latches hold them (30_encoding.md R101, 10_state.md
R25), and the request they stand for. -/

namespace Sys2Proof.Machine

/-- A transport address is in range when it is one of the 256 registers (R96, R222). -/
def addrInRange (addr : Half) : Bool := decide (addr.toNat < Config.numRegs)

/-- The transaction address of a transport request: `RADDR_L[7:0]` (R101, R143). -/
def Ectb.txAddr (c : Ectb) : Byte := c.raddrL.extractLsb' 0 8

/-- SETB's value: `OPND[0]`, 1 meaning true (R101). -/
def Ectb.boolOperand (c : Ectb) : Bool := c.opndL.getLsbD 0

/-- The request in progress, as the latches hold it (R25, R142): the instruction ECTB's step is carrying out. -/
def Ectb.current (c : Ectb) : Option Instr :=
  match c.opL.toNat with
  | 1 => some (.rdreg c.raddrL)
  | 2 => some (.wrreg c.raddrL c.rdataInL)
  | 3 => some (.getb c.fidxL)
  | 4 => some (.geti c.fidxL)
  | 5 => some (.setb c.fidxL c.boolOperand)
  | 6 => some (.togl c.fidxL)
  | 7 => some (.setl c.fidxL c.opndL)
  | _ => none

end Sys2Proof.Machine
end

