-- ==== Sys2Proof/Machine/Regmap.lean ====
section
/-! DEFINITION. Machine/Regmap.lean: the descriptor ROM `REGMAP` (10_state.md R33, 41_bitfield.md R170, R171). -/

namespace Sys2Proof.Machine

/-- Entry 5, `VOLT`: `0x50 VOLT_LO VOLT_HI FF0003E800`, or `NONE` while its registers are not supplied (R170). -/
def voltEntry (regs : Option (Byte × Byte)) : Descriptor :=
  match regs with
  | none => 0
  | some (lo, hi) => 0x50#8 ++ lo ++ hi ++ 0xFF0003E800#40

/-- Entry 6, `FANS`: `0x70 FANS_ADDR 00F004000000`, or `NONE` while its register is not supplied (R170). -/
def fansEntry (reg : Option Byte) : Descriptor :=
  match reg with
  | none => 0
  | some a => 0x70#8 ++ a ++ 0x00F004000000#48

/-- `REGMAP_EXT[i]`: the entry listed first for the index, else `NONE` (R171). -/
def extEntry (ext : List (Nat × Descriptor)) (i : Nat) : Descriptor :=
  match ext with
  | [] => 0
  | (j, d) :: rest => if j = i then d else extEntry rest i

/-- `REGMAP[fidx]` (R33): entries 0 to 6 are fixed by R170, the rest are `REGMAP_EXT` (R171). -/
def regmap (p : Params) (fidx : Byte) : Descriptor :=
  match fidx.toNat with
  | 0 => 0x10BB000100000000
  | 1 => 0x10BB000200000000
  | 2 => 0x189E000800000000
  | 3 => 0x60B900FF0A000000
  | 4 => 0x40C2C3FF00000000
  | 5 => voltEntry p.voltRegs
  | 6 => fansEntry p.fansAddr
  | i => extEntry p.regmapExt i

/-- The index of a named entry (R170). -/
def fieldIndex : FieldName → Byte
  | .wlan => 0
  | .blue => 1
  | .tpad => 2
  | .bklt => 3
  | .bcap => 4
  | .volt => 5
  | .fans => 6

end Sys2Proof.Machine
end

