-- ==== Sys2Proof/Machine/Ops.lean ====
section
/-! DEFINITION. Machine/Ops.lean: ECTB's shared operations: how a request ends (R145, R228), the ACCEPT step (R130), the
ACQ step (R236), the sequencer (R135, R142), the busy-wait and the access it guards (R133, R134, R137 to R139), and the
one step of a request in progress that every request's meaning is built from. -/

namespace Sys2Proof.Machine

/-- `finish_error(E)`, ECTB's trap entry (R228): the code is reported, value and scale are 0, and the request ends. Only
PERMISSION_DENIED is fatal. Nothing else is saved. There is no return: the next ACCEPT simply follows (R229). -/
def Ectb.finishError (e : ErrorKind) (c : Ectb) : Ectb :=
  { c with
    rspErr := e.code, rspValue := 0, rspScale := 0, rspDone := true,
    fsm := if e = .permissionDenied then .failed else .idle }

/-- `finish_ok(value, scale)` (R145). -/
def Ectb.finishOk (value scale : Half) (c : Ectb) : Ectb :=
  { c with rspErr := 0, rspValue := value, rspScale := scale, rspDone := true, fsm := .idle }

/-- The end of an ACCEPT that passed its checks: `k <- 0`, then `ACQ` or `SEQ` (R130, R235). -/
def Ectb.beginRequest (c : Ectb) : Ectb :=
  { c with
    k := 0,
    fsm :=
      match c.acqState with
      | .none => .acq
      | .granted => .seq }

/-- ACCEPT's first effects: `RSP_DONE <- 0`, `OP_L <- q[31:28]` (R130). -/
def Ectb.acceptOp (op : BitVec 4) (c : Ectb) : Ectb := { c with rspDone := false, opL := op }

/-- ACCEPT of a word that spells no request (R99, R100, R130). -/
def Ectb.acceptInvalid (op : BitVec 4) (c : Ectb) : Ectb := (c.acceptOp op).finishError .invalidRequest

/-- ACCEPT of a format T request: the latches, then the range check (R130, R222). -/
def Ectb.acceptTransport (op : BitVec 4) (addr : Half) (data : Byte) (c : Ectb) : Ectb :=
  let c := { c.acceptOp op with raddrL := addr, rdataInL := data }
  if addrInRange addr then c.beginRequest else c.finishError .invalidRegister

/-- ACCEPT of a format F request: the latches, then the descriptor and kind checks (R130, R225, R226, R227). -/
def Ectb.acceptField (op : BitVec 4) (fidx : Byte) (opnd : Half) (d : Descriptor) (c : Ectb) : Ectb :=
  let c := { c.acceptOp op with fidxL := fidx, opndL := opnd, descL := d }
  if !Desc.wf d then c.finishError .invalidField
  else if !kindOk op (Desc.kind d) then c.finishError .invalidRequest
  else c.beginRequest

/-- The request handshake is over once ECTB accepts the word (R94, R130). -/
def State.takeRequest (s : State) : State := { s with caller := { s.caller with reqValid := false } }

/-- The ACCEPT step of a word that spells no request. -/
def acceptInvalid (q : ReqWord) (s : State) : State :=
  s.takeRequest.onEctb (Ectb.acceptInvalid (Req.op q))

/-- The ACCEPT step of a format T request. -/
def acceptTransport (op : BitVec 4) (addr : Half) (data : Byte) (s : State) : State :=
  s.takeRequest.onEctb (Ectb.acceptTransport op addr data)

/-- The ACCEPT step of a format F request: `DESC_L <- REGMAP[FIDX_L]`. -/
def acceptField (op : BitVec 4) (fidx : Byte) (opnd : Half) (s : State) : State :=
  s.takeRequest.onEctb (Ectb.acceptField op fidx opnd (regmap s.params fidx))

/-- What PortAccess's answer does (R236). -/
def Ectb.acquire (granted : Bool) (c : Ectb) : Ectb :=
  if granted then { c with acqState := .granted, fsm := .seq } else c.finishError .permissionDenied

/-- The ACQ step (R236): no port access, one answer drawn. -/
def acqStep (s : State) : State := s.drawGrant.2.onEctb (Ectb.acquire s.drawGrant.1)

/-- `start(kind, a, v)` (R135). -/
def Ectb.start (t : Transaction) (c : Ectb) : Ectb :=
  match t with
  | .rd a => { c with txKind := .rd, txStage := .one, txSub := .poll, polls := 0, addrL := a, fsm := .tx }
  | .wr a v =>
    { c with txKind := .wr, txStage := .one, txSub := .poll, polls := 0, addrL := a, wdataL := v, fsm := .tx }

/-- The SEQ step (R142): the next transaction of the list, evaluated now, or the finish. -/
def Ectb.sequence (p : Plan) (c : Ectb) : Ectb :=
  match p.txs[c.k]? with
  | some t => c.start t
  | none => c.finishOk p.value p.scale

/-- What one status byte does to a wait (R133): the access is next, or the limit is reached, or the wait goes on. -/
def Ectb.polled (lim : PollLimit) (st : Byte) (c : Ectb) : Ectb :=
  let c := { c with polls := c.polls + 1 }
  if waitHolds c.txKind c.txStage st then { c with txSub := .act }
  else if pollLimitReached lim c.polls then c.finishError .protocolStall
  else c

/-- A race is over when the transaction it interleaves with is no longer under way (R78; DEDUCED, notes/assumptions/15.md). -/
def State.settleRace (s : State) : State := if s.ectb.txOpen then s else s.endRace

/-- The POLL step (R133): one status read. -/
def pollStep (s : State) : State :=
  ((readStatus s).2.onEctb (Ectb.polled s.params.pollLimit (readStatus s).1)).settleRace

/-- The end of stage 1 or 2: the next stage begins with a poll (R134). -/
def Ectb.nextStage (stage : TxStage) (c : Ectb) : Ectb :=
  { c with txStage := stage, txSub := .poll, polls := 0 }

/-- The end of a transaction: `k <- k + 1; fsm <- SEQ` (R139). -/
def Ectb.endTx (c : Ectb) : Ectb := { c with k := c.k + 1, fsm := .seq }

/-- The ACT step (R134): the access of the row of R132, as R137 and R138 give it. A read with index 2 or more has no byte
latch, and no transaction list makes one (R137). -/
def actStep (s : State) : Out :=
  match s.ectb.txKind, s.ectb.txStage with
  | .rd, .one => .next ((writeCommand Config.cmdRead s).onEctb (Ectb.nextStage .two))
  | .rd, .two => .next ((writeData s.ectb.addrL s).onEctb (Ectb.nextStage .three))
  | .rd, .three =>
    match s.ectb.k with
    | 0 => .next ((readData s).2.onEctb (fun c => Ectb.endTx { c with byte0 := (readData s).1 })).endRace
    | 1 => .next ((readData s).2.onEctb (fun c => Ectb.endTx { c with byte1 := (readData s).1 })).endRace
    | _ => .fault .noByteLatch
  | .wr, .one => .next ((writeCommand Config.cmdWrite s).onEctb (Ectb.nextStage .two))
  | .wr, .two => .next ((writeData s.ectb.addrL s).onEctb (Ectb.nextStage .three))
  | .wr, .three => .next ((writeData s.ectb.wdataL s).onEctb Ectb.endTx).endRace

/-- The step of a transaction: a poll or the access it guards, at most one port access either way (R131). -/
def txStep (s : State) : Out :=
  match s.ectb.txSub with
  | .poll => .next (pollStep s)
  | .act => actStep s

/-- The SEQ step of a request whose plan is known; without a plan no rule says what it does. -/
def seqStep (p : Option Plan) (s : State) : Out :=
  match p with
  | some p => .next (s.onEctb (Ectb.sequence p))
  | none => .fault .noTransactionList

/-- One ECTB step of a request (R130, R133, R134, R142, R236): which one `fsm` says. `accept` is the request's ACCEPT step
and `plan` its transaction list and result, read from the latches at each SEQ. In `FAILED` no step is enabled and nothing
changes (R232). -/
def requestStep (accept : State → State) (plan : Ectb → Option Plan) (s : State) : Out :=
  match s.ectb.fsm with
  | .idle => .next (accept s)
  | .acq => .next (acqStep s)
  | .seq => seqStep (plan s.ectb) s
  | .tx => txStep s
  | .failed => .next s

end Sys2Proof.Machine
end

