-- ==== Sys2Proof/Machine/Field.lean ====
section
/-! DEFINITION. Machine/Field.lean: the five field requests (41_bitfield.md R181 to R191). In each plan `d` is `DESC_L`. -/

namespace Sys2Proof.Machine

/-- GETB's list and result (R181). -/
def getbPlan (c : Ectb) : Option Plan :=
  some { txs := [.rd (Desc.addr c.descL)], value := boolValue (boolDecode c.byte0 c.descL), scale := 1 }

/-- GETB (R181). -/
def execGetb (fidx : Byte) (s : State) : Out := requestStep (acceptField opGetb fidx 0) getbPlan s

/-- A one-byte GETI: one read, the decoded byte, scale 1 (R183 to R186). -/
def byteFieldPlan (c : Ectb) (value : Byte) : Plan :=
  { txs := [.rd (Desc.addr c.descL)], value := byteValue value, scale := 1 }

/-- A two-byte GETI: the low register first, then the high one (R187, R188). -/
def wordFieldPlan (c : Ectb) (scale : Half) : Plan :=
  { txs := [.rd (Desc.addr c.descL), .rd (Desc.addrHi c.descL)],
    value := compose16 c.byte0 c.byte1, scale := scale }

/-- GETI's list and result by the field's kind: the table of R182. The other kinds have no row; ACCEPT refuses them. -/
def getiPlan (c : Ectb) : Option Plan :=
  match Desc.kind c.descL with
  | .none => none
  | .bool => none
  | .enum => some (byteFieldPlan c (enumDecode c.byte0 c.descL))
  | .u8 => some (byteFieldPlan c (u8Decode c.byte0 c.descL))
  | .u16le => some (wordFieldPlan c 1)
  | .scaled => some (wordFieldPlan c (Desc.scale c.descL))
  | .level => some (byteFieldPlan c c.byte0)
  | .maskedGt => some (byteFieldPlan c (maskedGtDecode c.byte0 c.descL))
  | .reserved => none

/-- GETI (R182). -/
def execGeti (fidx : Byte) (s : State) : Out := requestStep (acceptField opGeti fidx 0) getiPlan s

/-- SETB's list and result (R189): the owning register read, then written with the field's bits set to the operand. -/
def setbPlan (c : Ectb) : Option Plan :=
  some
    { txs := [.rd (Desc.addr c.descL), .wr (Desc.addr c.descL) (boolEncode c.byte0 c.descL c.boolOperand)],
      value := 0, scale := 0 }

/-- SETB (R189). -/
def execSetb (fidx : Byte) (value : Bool) (s : State) : Out :=
  requestStep (acceptField opSetb fidx (boolOperand value)) setbPlan s

/-- TOGL's list and result (R190): read, read, then write the second reading with the complement of the first. -/
def toglPlan (c : Ectb) : Option Plan :=
  some
    { txs :=
        [.rd (Desc.addr c.descL), .rd (Desc.addr c.descL),
         .wr (Desc.addr c.descL) (boolEncode c.byte1 c.descL (!boolDecode c.byte0 c.descL))],
      value := 0, scale := 0 }

/-- TOGL (R190). -/
def execTogl (fidx : Byte) (s : State) : Out := requestStep (acceptField opTogl fidx 0) toglPlan s

/-- SETL's list and result (R191): one write of the wrapped level, no read. -/
def setlPlan (c : Ectb) : Option Plan :=
  some { txs := [.wr (Desc.addr c.descL) (levelEncode c.opndL c.descL)], value := 0, scale := 0 }

/-- SETL (R191). -/
def execSetl (fidx : Byte) (n : Half) (s : State) : Out := requestStep (acceptField opSetl fidx n) setlPlan s

end Sys2Proof.Machine
end

