-- ==== Sys2Proof/Machine/Transport.lean ====
section
/-! DEFINITION. Machine/Transport.lean: the two transport requests, RDREG and WRREG (40_transport.md R143, R144). -/

namespace Sys2Proof.Machine

/-- RDREG's list and result (R143): one read of `RADDR_L[7:0]`; the byte, scale 1. -/
def rdregPlan (c : Ectb) : Option Plan :=
  some { txs := [.rd c.txAddr], value := byteValue c.byte0, scale := 1 }

/-- RDREG (R143). -/
def execRdreg (addr : Half) (s : State) : Out := requestStep (acceptTransport opRdreg addr 0) rdregPlan s

/-- WRREG's list and result (R144): one write of `RDATA_IN_L` to `RADDR_L[7:0]`; 0, scale 0. -/
def wrregPlan (c : Ectb) : Option Plan :=
  some { txs := [.wr c.txAddr c.rdataInL], value := 0, scale := 0 }

/-- WRREG (R144). -/
def execWrreg (addr : Half) (value : Byte) (s : State) : Out :=
  requestStep (acceptTransport opWrreg addr value) wrregPlan s

end Sys2Proof.Machine
end

