-- ==== Sys2Proof/Machine/Dispatch.lean ====
section
/-! DEFINITION. Machine/Dispatch.lean: one arm per instruction. For a request, `exec` is the next ECTB step of that
request: ACCEPT in `IDLE`, then ACQ, SEQ, POLL or ACT, until the SEQ step that finishes it. For a command byte, it is the
EC's consumption of that byte. -/

namespace Sys2Proof.Machine

def exec (i : Instr) (s : State) : Host.Outcome State Fault Refusal :=
  match i with
  | .rdreg addr => Sys2Proof.Machine.execRdreg addr s
  | .wrreg addr value => Sys2Proof.Machine.execWrreg addr value s
  | .getb fidx => Sys2Proof.Machine.execGetb fidx s
  | .geti fidx => Sys2Proof.Machine.execGeti fidx s
  | .setb fidx value => Sys2Proof.Machine.execSetb fidx value s
  | .togl fidx => Sys2Proof.Machine.execTogl fidx s
  | .setl fidx n => Sys2Proof.Machine.execSetl fidx n s
  | .ecReadCmd => Sys2Proof.Machine.execEcReadCmd s
  | .ecWriteCmd => Sys2Proof.Machine.execEcWriteCmd s

end Sys2Proof.Machine
end

