-- ==== Sys2Proof/Machine/Agents.lean ====
section
/-! DEFINITION. Machine/Agents.lean: what each agent does when it moves (00_scope.md R13): ECTB, the EC, a foreign master,
the caller, and ECTB's reset. -/

namespace Sys2Proof.Machine

/-- The next move: the schedule's first, or a free choice among every agent's moves (R65, R131). -/
def State.nextEvent (s : State) : Event × State :=
  match s.env.schedule with
  | e :: rest => (e, { s with env := { s.env with schedule := rest } })
  | [] => (Config.freeEvent s.env.draws, { s with env := { s.env with draws := s.env.draws + 1 } })

/-- ECTB in `IDLE`: it accepts the word presented with `REQ_VALID`, if one is (R130), and runs it if it decodes. A word that
spells no request ends at once with INVALID_REQUEST (R99, R100). -/
def fetchRequest (s : State) : Out :=
  if s.caller.reqValid then
    match decode (.request s.caller.reqWord) with
    | .ok i => exec i s
    | .error _ => .next (acceptInvalid s.caller.reqWord s)
  else .next s

/-- ECTB within a request: the next step of the request its latches hold (R142). -/
def continueRequest (s : State) : Out :=
  match s.ectb.current with
  | some i => exec i s
  | none => .fault .noRequest

/-- ECTB's step (R131). In `FAILED` none is enabled (R232). -/
def ectbStep (s : State) : Out :=
  match s.ectb.fsm with
  | .idle => fetchRequest s
  | .acq => continueRequest s
  | .seq => continueRequest s
  | .tx => continueRequest s
  | .failed => .next s

/-- The EC's step, enabled while `IBF = 1` (R65): a command byte is decoded and run, a data byte taken in its role. Any other
command byte is "behaviour not in source": from there on the EC is under no law. -/
def ecStep (s : State) : Out :=
  match s.ec with
  | .oracle => .next s
  | .race _ => .next s
  | .ref e =>
    if e.ibf then
      if e.inIsCmd then
        match decode (.command e.inByte) with
        | .ok i => exec i s
        | .error _ => .next (s.setEc .oracle)
      else .next (ecDataByte e s)
    else .next s

/-- The EC changes one of its own registers, at any time (R30, R64). -/
def ecChange (a v : Byte) (s : State) : State :=
  match s.ec with
  | .oracle => s
  | .race _ => s
  | .ref e => s.setEc (.ref { e with regs := e.regs.write a.toNat v })

/-- What a foreign master's port access does at the reference EC, as any host's would (R65). -/
def EcRef.foreign (e : EcRef) (x : ForeignAccess) : EcRef :=
  match x with
  | .readStatus => e
  | .writeCommand c => e.deliver c true
  | .readData => e.takeOutput
  | .writeData v => e.deliver v false

/-- The reference EC with the registers of a list written, in the list's order. -/
def Memory.writeAll (ws : List (Byte × Byte)) (m : Memory) : Memory :=
  ws.foldl (fun m w => m.write w.1.toNat w.2) m

/-- The reference EC as a race leaves it (R78): registers written with any bytes, and anything else of it. -/
def EcRef.after (r : RaceResult) (e : EcRef) : EcRef :=
  { regs := e.regs.writeAll r.writes, ibf := r.ibf, obf := r.obf, odata := r.odata, inByte := r.inByte,
    inIsCmd := r.inIsCmd, phase := r.phase }

/-- A race begins (R78): every byte ECTB reads is a draw until it is over, and what it leaves the EC in is drawn. -/
def beginRace (e : EcRef) (s : State) : State := s.drawRace.2.setEc (.race (e.after s.drawRace.1))

/-- A foreign master's port access (R78). One by a master that honours the lock waits while the lock is held; a master that
does not honour it is never excluded (R240). An access within a transaction of ECTB is a race, which lasts until that
transaction is over (notes/assumptions/15.md); one outside is a host's access. -/
def foreignStep (honours : Bool) (x : ForeignAccess) (s : State) : State :=
  if honours && s.ectb.lockHeld s.params.guard then s
  else
    match s.ec with
    | .oracle => s
    | .race _ => s
    | .ref e => if s.ectb.txOpen then beginRace e s else s.setEc (.ref (e.foreign x))

/-- The program takes the response of the request it presented (R28, R35): on success the pointer moves on, on an error the
program stops with the pointer where it is. -/
def Caller.takeResponse (err : BitVec 3) (c : Caller) : Caller :=
  if err = 0 then { c with rp := c.rp + 1, awaiting := false }
  else { c with stopped := some err, awaiting := false }

/-- The program presents a word with `REQ_VALID = 1` (R35, R94). -/
def Caller.present (q : ReqWord) (c : Caller) : Caller :=
  { c with reqValid := true, reqWord := q, awaiting := true }

/-- The program's move (R35): nothing while a presented word is not accepted, or after the program stopped; the response once
`RSP_DONE` is 1; else the next request, when `REQ_READY` is 1 and the program has one. The stop at an error is R35's, of
request programs; that the caller's other requests are a move of their own, `Caller.submit`, is the model's choice
(notes/assumptions/22.md). -/
def Caller.move (ectb : Ectb) (c : Caller) : Caller :=
  if c.stopped.isSome || c.reqValid then c
  else if c.awaiting then (if ectb.rspDone then c.takeResponse ectb.rspErr else c)
  else if ectb.reqReady then
    match c.prog[c.rp]? with
    | some q => c.present q
    | none => c
  else c

/-- The program moves. -/
def callerStep (s : State) : State := { s with caller := s.caller.move s.ectb }

/-- ECTB has accepted a request and not finished it (R21). -/
def Ectb.busy (c : Ectb) : Bool := c.fsm == .acq || c.fsm == .seq || c.fsm == .tx

/-- The program's response is still to be taken: it will come, or it stands in the response registers. It is not when a reset
has cleared it, or has cut its request off: ECTB is then idle with no response (R261). -/
def Caller.responseDue (ectb : Ectb) (c : Caller) : Bool := c.awaiting && !(ectb.reqReady && !ectb.rspDone)

/-- The caller presents a request of its own (R13, R94). R229 leaves it to the caller whether to go on after an error, and R35's
program, which stops there, is of 95_test_vectors.md only. DESIGN CHOICE (notes/assumptions/22.md): it may do so unless a word is
presented already, a request is in progress, or the program's response is still to be taken ("fully synchronous,
single-threaded, blocking", 40_transport.md section 4), and it gives up a response that a reset cleared. -/
def Caller.submit (ectb : Ectb) (q : ReqWord) (c : Caller) : Caller :=
  if c.reqValid || ectb.busy || c.responseDue ectb then c
  else { c with reqValid := true, reqWord := q, awaiting := false }

/-- The caller presents a request of its own. -/
def submitStep (q : ReqWord) (s : State) : State := { s with caller := s.caller.submit s.ectb q }

/-- A move of ECTB from `s` to `t` ends a request: one in progress, or one refused at its ACCEPT (R145, R228). -/
def State.finishes (s t : State) : Bool :=
  !t.ectb.busy && (s.ectb.busy || (s.ectb.fsm == .idle && s.caller.reqValid))

/-- The caller records an error at the step in which a request finishes with it, whoever presented the request (R233). DESIGN
CHOICE (notes/assumptions/22.md): the record outlasts a reset of ECTB. -/
def State.recordFinish (s t : State) : State :=
  { t with caller := { t.caller with erred := t.caller.erred || (s.finishes t && t.ectb.rspErr != 0) } }

/-- ECTB moves, and the caller records the error of a request that finishes with one. -/
def ectbMove (s : State) : Out :=
  match ectbStep s with
  | .next t => .next (s.recordFinish t)
  | .fault r => .fault r
  | .refused r => .refused r

/-- The exit code of a run of requests (R233): 1 when a request finished with an error; 0 when the program is at its end, no request
is outstanding and every one finished without an error; none while some are outstanding, or when a reset cut one off before it
finished, of which R233 says nothing (notes/assumptions/22.md). -/
def State.exitCode (s : State) : Option Nat :=
  if s.caller.erred || s.caller.stopped.isSome then some 1
  else if s.caller.rp = s.caller.prog.length && !s.caller.awaiting && !s.caller.reqValid && !s.ectb.busy && !s.caller.cut then
    some 0
  else none

/-- ECTB's reset (R260): every register of ECTB to its reset value; the EC and its ports are not touched, but a race with the
transaction it ends is over. The trace is of ECTB's accesses since its reset. The caller keeps its state, and knows that a request
in progress was cut off. -/
def ectbReset (s : State) : State :=
  { s with
    ectb := Ectb.reset, trace := [], ec := s.ec.endRace,
    caller := { s.caller with cut := s.caller.cut || s.ectb.busy } }

/-- One move of one agent. -/
def moveOf (e : Event) (s : State) : Out :=
  match e with
  | .ectb => ectbMove s
  | .ec => ecStep s
  | .ecChange a v => .next (ecChange a v s)
  | .foreign honours x => .next (foreignStep honours x s)
  | .caller => .next (callerStep s)
  | .request q => .next (submitStep q s)
  | .reset => .next (ectbReset s)

/-- A request word presented to an idle ECTB that moves next. -/
def State.presentWord (q : ReqWord) (s : State) : State :=
  { s with
    ectb := { s.ectb with fsm := .idle },
    caller := { s.caller with reqValid := true, reqWord := q },
    env := { s.env with schedule := .ectb :: s.env.schedule } }

/-- A command byte in the reference EC's input buffer, the EC moving next. An EC under no law has no input buffer the model
holds, so the reference EC with no register seeded takes its place; a race is over. -/
def State.presentCommand (b : Byte) (s : State) : State :=
  let e := match s.ec with
    | .oracle => EcRef.start []
    | .ref e => e
    | .race e => e
  { s with
    ec := .ref (e.deliver b true),
    env := { s.env with schedule := .ec :: s.env.schedule } }

end Sys2Proof.Machine
end

