-- ==== Sys2Proof/Machine/Step.lean ====
section
/-! DEFINITION. Machine/Step.lean: one step of the machine is one move of the agent that moves next (40_transport.md R131). -/

namespace Sys2Proof.Machine

/-- One step. -/
def step (s : State) : Host.Outcome State Fault Refusal := moveOf s.nextEvent.1 s.nextEvent.2

/-- `s` with an instruction of the opcode table where the next step fetches one: a command byte (a row of 8 bits) in the EC's
input buffer with the EC moving next, a request word at the request interface with an idle ECTB moving next. -/
def State.withFetchWord (s : State) (nbits w : Nat) : State :=
  if nbits ≤ 8 then s.presentCommand (BitVec.ofNat 8 w) else s.presentWord (BitVec.ofNat 32 w)

end Sys2Proof.Machine
end

