-- ==== Sys2Proof/WellFormed.lean ====
section
/-! DEFINITION. WellFormed.lean: which assembly lines are well-formed (30_encoding.md R109: "A number outside a field's
width is an assembly error, not a request"). A term of `Instr` has nothing left to check: each operand is a bit vector of
its field's width. The well-formedness of a descriptor (R106) is `Desc.wf` of Machine/Descriptor.lean. -/

namespace Sys2Proof

/-- `#<index>` has an index 0..255; a name is always well-formed (R109). -/
def FieldRef.wf : FieldRef → Bool
  | .name _ => true
  | .index n => decide (n < 256)

/-- Each number fits the field it is encoded in (R109). -/
def Asm.wf : Asm → Bool
  | .rdreg addr => decide (addr < 65536)
  | .wrreg addr value => decide (addr < 65536) && decide (value < 256)
  | .getb f => f.wf
  | .geti f => f.wf
  | .setb f _ => f.wf
  | .togl f => f.wf
  | .setl f n => f.wf && decide (n < 65536)
  | .on f => f.wf
  | .off f => f.wf
  | .dump => true

end Sys2Proof
end

