-- ==== Sys2Proof/Machine/Assembler.lean ====
section
/-! DEFINITION. Machine/Assembler.lean: the assembly language (30_encoding.md R109, R110): its lines, the pseudo-instructions,
and the text a line is written as. -/

namespace Sys2Proof.Machine

/-- The index a `<field>` names (R109, R170). -/
def fieldRefIndex : FieldRef → Byte
  | .name f => fieldIndex f
  | .index n => BitVec.ofNat 8 n

/-- The requests of one well-formed line (R109, R110). `dump` is the 256 reads in ascending order. -/
def asmInstrs : Asm → List Instr
  | .rdreg addr => [.rdreg (BitVec.ofNat 16 addr)]
  | .wrreg addr value => [.wrreg (BitVec.ofNat 16 addr) (BitVec.ofNat 8 value)]
  | .getb f => [.getb (fieldRefIndex f)]
  | .geti f => [.geti (fieldRefIndex f)]
  | .setb f value => [.setb (fieldRefIndex f) value]
  | .togl f => [.togl (fieldRefIndex f)]
  | .setl f n => [.setl (fieldRefIndex f) (BitVec.ofNat 16 n)]
  | .on f => [.setb (fieldRefIndex f) true]
  | .off f => [.setb (fieldRefIndex f) false]
  | .dump => (List.range 256).map (fun i => .rdreg (BitVec.ofNat 16 i))

/-- The request words among a list of instructions' words; a command byte is no request. -/
def requestWords (is : List Instr) : List ReqWord :=
  is.filterMap (fun i =>
    match encode i with
    | .request q => some q
    | .command _ => none)

/-- The assembler: a line's request words, or an assembly error (R109). -/
def assemble (a : Asm) : Option (List ReqWord) :=
  if a.wf then some (requestWords (asmInstrs a)) else none

/-! ### The text of a line (R109) -/

/-- A token of a line: a run of characters, or the comma between operands. -/
inductive AsmToken where
  | word (cs : List Char)
  | comma
  deriving DecidableEq, Repr

/-- The line up to its comment. -/
def stripComment (cs : List Char) : List Char := cs.takeWhile (fun c => c != ';')

/-- A finished run of characters as a token, if it has any. -/
def pushWord (acc : List Char) (rest : List AsmToken) : List AsmToken :=
  if acc.isEmpty then rest else .word acc.reverse :: rest

/-- The tokens of a line; `acc` is the current run, last character first. -/
def tokens (acc : List Char) : List Char → List AsmToken
  | [] => pushWord acc []
  | c :: cs =>
    if c = ' ' ∨ c = '\t' then pushWord acc (tokens [] cs)
    else if c = ',' then pushWord acc (.comma :: tokens [] cs)
    else tokens (c :: acc) cs

/-- A digit's value in a base up to 16. -/
def digitValue (base : Nat) (c : Char) : Option Nat :=
  let n := c.toNat
  let v :=
    if 48 ≤ n ∧ n ≤ 57 then n - 48
    else if 97 ≤ n ∧ n ≤ 102 then n - 87
    else if 65 ≤ n ∧ n ≤ 70 then n - 55
    else 16
  if v < base then some v else none

/-- The number a run of digits spells, most significant digit first. -/
def digits (base : Nat) (acc : Nat) : List Char → Option Nat
  | [] => some acc
  | c :: cs =>
    match digitValue base c with
    | some v => digits base (acc * base + v) cs
    | none => none

/-- A number, decimal or `0x`-hex: R109 says so of an `<addr>`, and 95_test_vectors.md V-T6 writes a `<byte>` in hex. DESIGN
CHOICE (notes/assumptions/19.md): an `<n>` and the index of `#<index>` take the same two spellings. -/
def parseNumber : List Char → Option Nat
  | [] => none
  | ['0', 'x'] => none
  | '0' :: 'x' :: cs => digits 16 0 cs
  | cs => digits 10 0 cs

/-- The names of R170 as the assembly language spells them. -/
def fieldNames : List (List Char × FieldName) :=
  [(['W', 'L', 'A', 'N'], .wlan), (['B', 'L', 'U', 'E'], .blue), (['T', 'P', 'A', 'D'], .tpad),
   (['B', 'K', 'L', 'T'], .bklt), (['B', 'C', 'A', 'P'], .bcap), (['V', 'O', 'L', 'T'], .volt),
   (['F', 'A', 'N', 'S'], .fans)]

/-- A `<field>`: a name or `#<index>`, the index in either spelling of `parseNumber` (DESIGN CHOICE, notes/assumptions/19.md). -/
def parseField (cs : List Char) : Option FieldRef :=
  match cs with
  | '#' :: ds => (parseNumber ds).map FieldRef.index
  | _ => (fieldNames.lookup cs).map FieldRef.name

/-- A `<bool>`: 1, 0, on or off. -/
def parseBool (cs : List Char) : Option Bool :=
  [(['1'], true), (['0'], false), (['o', 'n'], true), (['o', 'f', 'f'], false)].lookup cs

/-- A line of one `<field>` operand. -/
def parseFieldLine (m : List Char) (f : FieldRef) : Option Asm :=
  if m = ['g', 'e', 't', 'b'] then some (.getb f)
  else if m = ['g', 'e', 't', 'i'] then some (.geti f)
  else if m = ['t', 'o', 'g', 'l'] then some (.togl f)
  else if m = ['o', 'n'] then some (.on f)
  else if m = ['o', 'f', 'f'] then some (.off f)
  else none

/-- The line a list of tokens spells. That SETL's `<n>` may be `0x`-hex is the model's choice (notes/assumptions/19.md). -/
def parseTokens : List AsmToken → Option Asm
  | [.word m] => if m = ['d', 'u', 'm', 'p'] then some .dump else none
  | [.word m, .word x] =>
    if m = ['r', 'd', 'r', 'e', 'g'] then (parseNumber x).map Asm.rdreg
    else (parseField x).bind (parseFieldLine m)
  | [.word m, .word x, .comma, .word y] =>
    if m = ['w', 'r', 'r', 'e', 'g'] then (parseNumber x).bind (fun a => (parseNumber y).map (Asm.wrreg a))
    else if m = ['s', 'e', 't', 'b'] then (parseField x).bind (fun f => (parseBool y).map (Asm.setb f))
    else if m = ['s', 'e', 't', 'l'] then (parseField x).bind (fun f => (parseNumber y).map (Asm.setl f))
    else none
  | _ => none

/-- The request words of one line of text: none for a blank or comment line, an assembly error for anything else that is no
line of R109 or R110. -/
def assembleLine (cs : List Char) : Option (List ReqWord) :=
  match tokens [] (stripComment cs) with
  | [] => some []
  | ts => (parseTokens ts).bind assemble

/-- The request words of a program text, line by line; one bad line is an assembly error (R109). -/
def assembleText : List (List Char) → Option (List ReqWord)
  | [] => some []
  | l :: ls => (assembleLine l).bind (fun ws => (assembleText ls).map (fun rest => ws ++ rest))

end Sys2Proof.Machine
end

