-- ==== Sys2Proof/Safety.lean ====
section
/-! DEFINITION. Safety.lean: what the claims are stated in: the machine's invariant, and what a whole request's run looks
like under the reference EC. -/

namespace Sys2Proof.Machine

/-- The latches name a request that passed ACCEPT's checks (R130, R227): an address in range, or a well-formed descriptor of
a kind the operation admits. -/
def Ectb.accepted (c : Ectb) : Bool :=
  match c.current with
  | some (.rdreg addr) => addrInRange addr
  | some (.wrreg addr _) => addrInRange addr
  | some (.getb _) => Desc.wf c.descL && kindOk c.opL (Desc.kind c.descL)
  | some (.geti _) => Desc.wf c.descL && kindOk c.opL (Desc.kind c.descL)
  | some (.setb _ _) => Desc.wf c.descL && kindOk c.opL (Desc.kind c.descL)
  | some (.togl _) => Desc.wf c.descL && kindOk c.opL (Desc.kind c.descL)
  | some (.setl _ _) => Desc.wf c.descL && kindOk c.opL (Desc.kind c.descL)
  | some .ecReadCmd => false
  | some .ecWriteCmd => false
  | none => false

/-- The instructions that are requests (R98); the other two are the EC's command bytes. -/
def isRequest : Instr → Bool
  | .rdreg _ => true
  | .wrreg _ _ => true
  | .getb _ => true
  | .geti _ => true
  | .setb _ _ => true
  | .togl _ => true
  | .setl _ _ => true
  | .ecReadCmd => false
  | .ecWriteCmd => false

/-- A request's list and result, from the latches (R142 to R144, R181 to R191); a command byte has none. -/
def planOf (i : Instr) (c : Ectb) : Option Plan :=
  match i with
  | .rdreg _ => rdregPlan c
  | .wrreg _ _ => wrregPlan c
  | .getb _ => getbPlan c
  | .geti _ => getiPlan c
  | .setb _ _ => setbPlan c
  | .togl _ => toglPlan c
  | .setl _ _ => setlPlan c
  | .ecReadCmd => none
  | .ecWriteCmd => none

/-- The list and result of the request in progress (R142). -/
def Ectb.plan (c : Ectb) : Option Plan := c.current.bind (fun i => planOf i c)

/-- The transaction list of the request in progress; empty where there is none. -/
def Ectb.txs (c : Ectb) : List Transaction :=
  match c.plan with
  | some p => p.txs
  | none => []

/-- The `tx_*` fields and latches hold a transaction (R135). -/
def Ectb.holds (t : Transaction) (c : Ectb) : Bool :=
  match t with
  | .rd a => c.txKind == .rd && c.addrL == a
  | .wr a v => c.txKind == .wr && c.addrL == a && c.wdataL == v

/-- Within a request: accepted latches, `RSP_DONE` clear, `k` within the list; permission granted once past `ACQ`; in `TX` the
latches hold the list's entry `k`; in a wait with a finite limit fewer polls than the limit have been made. -/
def Ectb.inRequest (c : Ectb) : Bool :=
  c.accepted && !c.rspDone && decide (c.k ≤ c.txs.length)

/-- In `TX`, the transaction under way is the list's entry `k`. -/
def Ectb.inTransaction (c : Ectb) : Bool :=
  match c.txs[c.k]? with
  | some t => c.holds t
  | none => false

/-- What `fsm` says of the other registers. -/
def Ectb.inv (c : Ectb) : Bool :=
  match c.fsm with
  | .idle => true
  | .acq => c.inRequest && c.acqState == .none && c.k == 0
  | .seq => c.inRequest && c.acqState == .granted
  | .tx => c.inRequest && c.acqState == .granted && c.inTransaction
  | .failed => c.acqState == .none && c.rspDone && c.rspErr == ErrorKind.permissionDenied.code

/-- A finite wait in progress has made fewer status reads than the limit allows (R23, R133); a limit is at least 1 (R8). -/
def pollsInBound (lim : PollLimit) (c : Ectb) : Bool :=
  match lim with
  | .inf => true
  | .finite n => decide (0 < n) && (!(c.fsm == .tx && c.txSub == .poll) || decide (c.polls < n))

/-- The port trace holds no command byte but 0x80 and 0x81 (R92). -/
def commandsOk (x : PortAccess) : Bool :=
  match x with
  | .readStatus _ => true
  | .writeCommand c => c == Config.cmdRead || c == Config.cmdWrite
  | .readData _ => true
  | .writeData _ => true

/-- A race is under way at the EC (R78). -/
def Ec.inRace : Ec → Bool
  | .oracle => false
  | .ref _ => false
  | .race _ => true

/-- The premise `NoForeignTraffic` (R78), of the moves of a run: "no foreign port access". -/
def NoForeignTraffic (es : List Event) : Prop := ∀ honours x, Event.foreign honours x ∉ es

/-- Every foreign master of these moves honours the external lock (R240). -/
def ForeignMastersHonour (es : List Event) : Prop := ∀ x, Event.foreign false x ∉ es

/-- The machine's invariant: ECTB's registers fit its control state; no error code 6 or 7 (R102); without permission no port
access has been made (R61, R234); only the two command bytes have been written (R92); polls within their bound (R133); the
EC's registers in canonical form; a race only within a transaction (R78). -/
def State.inv (s : State) : Bool :=
  s.ectb.inv && decide (s.ectb.rspErr.toNat ≤ 5) && (s.ectb.acqState == .granted || s.trace.isEmpty) &&
    s.trace.all commandsOk && pollsInBound s.params.pollLimit s.ectb && s.ec.memory.wf &&
    (!s.ec.inRace || s.ectb.txOpen)

/-- Nothing outside ECTB's registers and the caller differs: no port access was made, and the EC, the environment and the
parameters are as before. -/
def State.samePorts (s t : State) : Prop := t.ec = s.ec ∧ t.env = s.env ∧ t.params = s.params ∧ t.trace = s.trace

/-- A step is safe when it answers a next state: nothing in the spec stops the machine. -/
def safeStep (s : State) : Prop := ∃ t, step s = .next t

/-- `n` steps, stopping at the first fault or refusal. -/
def run : Nat → State → Out
  | 0, s => .next s
  | n + 1, s =>
    match step s with
    | .next t => run n t
    | .fault r => .fault r
    | .refused r => .refused r

/-- `n` steps of a run in which the agents move in the order `ev`, without end: the moves of the infinite runs R271 speaks of. -/
def runMoves (ev : Nat → Event) : Nat → State → Out
  | 0, s => .next s
  | n + 1, s =>
    match runMoves ev n s with
    | .next t => moveOf (ev n) t
    | .fault r => .fault r
    | .refused r => .refused r

/-- Fairness of ECTB's own steps (R271): ECTB moves again and again. Nothing is assumed of the other agents. -/
def EctbFair (ev : Nat → Event) : Prop := ∀ n, ∃ m, n ≤ m ∧ ev m = .ectb

/-- ECTB is in a wait: its next step is a poll (R133). -/
def Ectb.waiting (c : Ectb) : Prop := c.fsm = .tx ∧ c.txSub = .poll

/-- The premise `ECResponds` (R271), of a run: "every wait condition eventually holds at a poll": whenever ECTB is in a wait there
comes a poll, then or later, at which the condition waited for holds. -/
def ECResponds (ev : Nat → Event) (s : State) : Prop :=
  ∀ n t, runMoves ev n s = .next t → t.ectb.waiting →
    ∃ m u, n ≤ m ∧ runMoves ev m s = .next u ∧ ev m = .ectb ∧ u.ectb.waiting ∧
      waitHolds u.ectb.txKind u.ectb.txStage (readStatus u).1 = true

/-- The state with a schedule of moves ahead of what was scheduled already. -/
def State.scheduled (es : List Event) (s : State) : State :=
  { s with env := { s.env with schedule := es ++ s.env.schedule } }

/-- The state with a request presented, ECTB free to accept it, and a schedule of moves ahead. A command byte is no request
and leaves the state as it is. -/
def State.requested (i : Instr) (es : List Event) (s : State) : State :=
  match encode i with
  | .request q => { s.scheduled es with caller := { s.caller with reqValid := true, reqWord := q } }
  | .command _ => s

/-- The moves of one read or write transaction when the EC takes its step at once after each write (95_test_vectors.md,
schedule `EAGER`): for a read the last access is a read of the data port, for a write a write the EC then consumes. -/
def eagerRead : List Event := [.ectb, .ectb, .ectb, .ec, .ectb, .ectb, .ec, .ectb, .ectb]

/-- A write transaction under `EAGER`. -/
def eagerWrite : List Event := [.ectb, .ectb, .ectb, .ec, .ectb, .ectb, .ec, .ectb, .ectb, .ec]

/-- A whole request of one read under `EAGER`: ACCEPT, the transaction, and the SEQ step that finishes it. -/
def eagerOneRead : List Event := .ectb :: (eagerRead ++ [.ectb])

/-- A whole request of one write under `EAGER`. -/
def eagerOneWrite : List Event := .ectb :: (eagerWrite ++ [.ectb])

/-- A whole SETB under `EAGER`: a read, a write. -/
def eagerSet : List Event := .ectb :: (eagerRead ++ (eagerWrite ++ [.ectb]))

/-- A whole TOGL under `EAGER`: a read, a read, a write. -/
def eagerToggle : List Event := .ectb :: (eagerRead ++ (eagerRead ++ (eagerWrite ++ [.ectb])))

/-- A whole two-byte GETI under `EAGER`: a read, a read. -/
def eagerTwoReads : List Event := .ectb :: (eagerRead ++ (eagerRead ++ [.ectb]))

/-- The reference EC at rest, as every test vector starts it (R65): `IBF = 0`, `OBF = 0`, phase idle. -/
def EcRef.atRest (e : EcRef) : Bool := !e.ibf && !e.obf && e.phase == .idle

/-- ECTB waits for a request with port permission granted. -/
def Ectb.ready (c : Ectb) : Bool := c.fsm == .idle && c.acqState == .granted

/-- The response registers of a finished request (R28), as 95_test_vectors.md writes them: `(ERR, VALUE, SCALE)` with
`RSP_DONE = 1` and ECTB back in `IDLE`. -/
def Ectb.responded (c : Ectb) (err : BitVec 3) (value scale : Half) : Bool :=
  c.fsm == .idle && c.rspDone && c.rspErr == err && c.rspValue == value && c.rspScale == scale

/-- The port trace of a read transaction of register `a` that returns `b`, every poll satisfied at once, newest first (R136). -/
def readTrace (a b : Byte) : List PortAccess :=
  [.readData b, .readStatus 1, .writeData a, .readStatus 0, .writeCommand Config.cmdRead, .readStatus 0]

/-- The port trace of a write of `v` to register `a`, every poll satisfied at once, newest first (R140). -/
def writeTrace (a v : Byte) : List PortAccess :=
  [.writeData v, .readStatus 0, .writeData a, .readStatus 0, .writeCommand Config.cmdWrite, .readStatus 0]

end Sys2Proof.Machine
end

