-- ==== Sys2Proof/Certificates/Slice0/Obligations.lean ====
section
/-! DEFINITION. Certificates/Slice0/Obligations.lean: the statements for the provers. `step (s.scheduled [e])` is the step of
state `s` in which agent move `e` comes first. `exec i s` for a request `i` is ECTB's next step on that request. -/

open Sys2Proof Sys2Proof.Machine

/-! ### Encoding -/

/-- R98, R101, R91: no operand bit of any instruction is lost between its word and the decoder. -/
def Obligations.DecodeOfEncodeIsTheInstruction : Prop :=
  ∀ i : Instr, decode (encode i) = .ok i

/-- R98, R100: each word has one meaning, and no bit of it is ignored: a word that decodes is the encoding of what it
decodes to. -/
def Obligations.EncodeOfDecodeIsTheWord : Prop :=
  ∀ (w : Wire) (i : Instr), decode w = .ok i → encode i = w

/-- Words written out from R91, R96 to R98 and 95_test_vectors.md section 2, one or more of every row of the opcode table,
and two words the order of R108's checks tells apart. -/
def Obligations.WordsOfTheSpecDecode : Prop :=
  decode (.request 0x1000BB00) = .ok (.rdreg 0xBB) ∧
  decode (.request 0x10012C00) = .ok (.rdreg 300) ∧
  decode (.request 0x2000BBFF) = .ok (.wrreg 0xBB 0xFF) ∧
  decode (.request 0x30010000) = .ok (.getb 1) ∧
  decode (.request 0x40040000) = .ok (.geti 4) ∧
  decode (.request 0x50010001) = .ok (.setb 1 true) ∧
  decode (.request 0x60FF0000) = .ok (.togl 255) ∧
  decode (.request 0x7003FFFF) = .ok (.setl 3 0xFFFF) ∧
  decode (.command 0x80) = .ok .ecReadCmd ∧
  decode (.command 0x81) = .ok .ecWriteCmd ∧
  decode (.request 0x11012C00) = .error .reservedBits ∧
  decode (.request 0x30070001) = .error .operandNotZero

/-- R98: "A word `q` spells instruction `X` exactly when `(q & mask_X) = match_X`", with the masks and matches of the table. -/
def Obligations.WordSpellsInstructionByMatchAndMask : Prop :=
  ∀ q : ReqWord,
    ((∃ a, decode (.request q) = .ok (.rdreg a)) ↔ q &&& 0xFF0000FF = 0x10000000) ∧
    ((∃ a v, decode (.request q) = .ok (.wrreg a v)) ↔ q &&& 0xFF000000 = 0x20000000) ∧
    ((∃ f, decode (.request q) = .ok (.getb f)) ↔ q &&& 0xFF00FFFF = 0x30000000) ∧
    ((∃ f, decode (.request q) = .ok (.geti f)) ↔ q &&& 0xFF00FFFF = 0x40000000) ∧
    ((∃ f v, decode (.request q) = .ok (.setb f v)) ↔ q &&& 0xFF00FFFE = 0x50000000) ∧
    ((∃ f, decode (.request q) = .ok (.togl f)) ↔ q &&& 0xFF00FFFF = 0x60000000) ∧
    ((∃ f n, decode (.request q) = .ok (.setl f n)) ↔ q &&& 0xFF000000 = 0x70000000)

/-- R99, R100: a word with a reserved opcode, or with a 1 in a must-be-zero bit of R98 (`q` as bits: opcode in 31:28, `RSV` in
27:24, `DATA` in 7:0, `OPND` in 15:0), spells no instruction; an idle ECTB accepts it and ends it at once with INVALID_REQUEST
(code 4), value and scale 0, no port access and no acquisition; nothing but `OP_L` and the response registers of ECTB changes
(R130, R228). That the other request latches keep their values is the model's choice (notes/assumptions/13.md). -/
def Obligations.IllegalWordEndsAtOnce : Prop :=
  ∀ (s : State) (q : ReqWord), s.ectb.fsm = .idle → s.caller.reqValid = true → s.caller.reqWord = q →
    (q.toNat / 2 ^ 28 = 0 ∨ 8 ≤ q.toNat / 2 ^ 28 ∨ q.toNat / 2 ^ 24 % 16 ≠ 0 ∨
      (q.toNat / 2 ^ 28 = 1 ∧ q.toNat % 256 ≠ 0) ∨
      ((q.toNat / 2 ^ 28 = 3 ∨ q.toNat / 2 ^ 28 = 4 ∨ q.toNat / 2 ^ 28 = 6) ∧ q.toNat % 65536 ≠ 0) ∨
      (q.toNat / 2 ^ 28 = 5 ∧ q.toNat % 65536 / 2 ≠ 0)) →
    (∃ e, decode (.request q) = .error e) ∧
    ∃ t, step (s.scheduled [.ectb]) = .next t ∧ s.samePorts t ∧
      t.ectb = { s.ectb with
        opL := BitVec.ofNat 4 (q.toNat / 2 ^ 28), fsm := .idle, rspDone := true, rspErr := 4,
        rspValue := 0, rspScale := 0 }

/-- R109, R110, R170, R95 to R98: the request words of every line form as numbers, and the bounds outside which a line is an
assembly error (none): addresses and levels below 65536, value bytes and field indices below 256. A field name stands for its
index in R170: `WLAN` 0, `BLUE` 1, `TPAD` 2, `BKLT` 3, `BCAP` 4, `VOLT` 5, `FANS` 6. `on f` is `setb f, 1`, `off f` is
`setb f, 0`, and `dump` is the reads of registers 0 to 255 in ascending order. Every word given decodes to its instruction. -/
def Obligations.AssemblerEncodesEveryLine : Prop :=
  let number (f : FieldRef) : Nat :=
    match f with
    | .name .wlan => 0
    | .name .blue => 1
    | .name .tpad => 2
    | .name .bklt => 3
    | .name .bcap => 4
    | .name .volt => 5
    | .name .fans => 6
    | .index n => n
  let word (ok : Bool) (w : Nat) : Option (List ReqWord) := if ok then some [BitVec.ofNat 32 w] else none
  (∀ n, assemble (.rdreg n) = word (n < 65536) (0x10000000 + n * 2 ^ 8)) ∧
  (∀ n v, assemble (.wrreg n v) = word (n < 65536 && v < 256) (0x20000000 + n * 2 ^ 8 + v)) ∧
  (∀ f, assemble (.getb f) = word (number f < 256) (0x30000000 + number f * 2 ^ 16)) ∧
  (∀ f, assemble (.geti f) = word (number f < 256) (0x40000000 + number f * 2 ^ 16)) ∧
  (∀ f v, assemble (.setb f v) = word (number f < 256) (0x50000000 + number f * 2 ^ 16 + if v then 1 else 0)) ∧
  (∀ f, assemble (.togl f) = word (number f < 256) (0x60000000 + number f * 2 ^ 16)) ∧
  (∀ f n, assemble (.setl f n) = word (number f < 256 && n < 65536) (0x70000000 + number f * 2 ^ 16 + n)) ∧
  (∀ f, assemble (.on f) = word (number f < 256) (0x50000001 + number f * 2 ^ 16)) ∧
  (∀ f, assemble (.off f) = word (number f < 256) (0x50000000 + number f * 2 ^ 16)) ∧
  assemble .dump = some ((List.range 256).map (fun i => BitVec.ofNat 32 (0x10000000 + i * 2 ^ 8))) ∧
  ∀ (a : Asm) (ws : List ReqWord), assemble a = some ws →
    ws.map (fun q => decode (.request q)) = (asmInstrs a).map Except.ok

/-! ### The step -/

/-- R130, R131, R65: a step in which ECTB moves runs the instruction the presented word decodes to, when ECTB is idle; within a
request it runs the request its latches hold; a step in which the EC moves runs the command its input buffer decodes to. Around
an instruction of ECTB the step adds one thing, outside ECTB: the caller records an error that ends a request in that step
(R233; notes/assumptions/22.md). -/
def Obligations.StepRunsTheDecodedInstruction : Prop :=
  (∀ (s : State) (i : Instr),
    (s.ectb.fsm = .idle ∧ s.caller.reqValid = true ∧ decode (.request s.caller.reqWord) = .ok i) ∨
      ((s.ectb.fsm = .acq ∨ s.ectb.fsm = .seq ∨ s.ectb.fsm = .tx) ∧ s.ectb.current = some i) →
    (∀ t, exec i s = .next t →
      let ended : Prop := (t.ectb.fsm = .idle ∨ t.ectb.fsm = .failed) ∧ t.ectb.rspErr ≠ 0
      (ended → step (s.scheduled [.ectb]) = .next { t with caller := { t.caller with erred := true } }) ∧
      (¬ended → step (s.scheduled [.ectb]) = .next t)) ∧
    ((∀ t, exec i s ≠ .next t) → step (s.scheduled [.ectb]) = exec i s)) ∧
  (∀ (s : State) (e : EcRef) (i : Instr), s.ec = .ref e → e.ibf = true → e.inIsCmd = true →
    decode (.command e.inByte) = .ok i → step (s.scheduled [.ec]) = exec i s)

/-- R25, R142: when an idle ECTB accepts a request and goes on with it, its latches hold that request, so every later step of
ECTB runs it, until it finishes. -/
def Obligations.AcceptedLatchesHoldTheRequest : Prop :=
  ∀ (i : Instr) (s t : State), s.ectb.fsm = .idle → exec i s = .next t → t.ectb.fsm ≠ .idle →
    t.ectb.current = some i

/-- 10_state.md R20, R73, 00_scope.md R9: no step writes a parameter, the descriptor ROM among them. -/
def Obligations.ParametersNeverChange : Prop :=
  ∀ s t : State, step s = .next t →
    t.params = s.params ∧ ∀ f : Byte, regmap t.params f = regmap s.params f

/-- R131, R136, R140: a step makes at most one port access of ECTB, and only in `TX`. That the trace is kept since ECTB's last
reset, so that a reset starts it anew, is the model's choice (notes/assumptions/16.md). -/
def Obligations.AtMostOnePortAccessPerStep : Prop :=
  ∀ s t : State, step s = .next t →
    t.trace = s.trace ∨
    (∃ x, t.trace = x :: s.trace ∧ s.nextEvent.1 = .ectb ∧ s.ectb.fsm = .tx) ∨
    (s.nextEvent.1 = .reset ∧ t.trace = [])

/-! ### Acceptance and refusal -/

/-- R130, R143, R144: an idle ECTB given a transport request with an address below 256 latches it and goes on to `ACQ`, or to
`SEQ` when port permission is granted. Everything else is as before. That ACCEPT clears `REQ_VALID`, and that the latches of
field requests keep their values, are the model's choices (notes/assumptions/10.md and 13.md). -/
def Obligations.TransportRequestInRangeIsAccepted : Prop :=
  ∀ (s : State) (addr : Half) (value : Byte), s.ectb.fsm = .idle → addr.toNat < 256 →
    exec (.rdreg addr) s =
      .next { s with
        caller := { s.caller with reqValid := false }
        ectb := { s.ectb with
          rspDone := false, opL := 1, raddrL := addr, rdataInL := 0, k := 0,
          fsm := if s.ectb.acqState = .none then .acq else .seq } } ∧
    exec (.wrreg addr value) s =
      .next { s with
        caller := { s.caller with reqValid := false }
        ectb := { s.ectb with
          rspDone := false, opL := 2, raddrL := addr, rdataInL := value, k := 0,
          fsm := if s.ectb.acqState = .none then .acq else .seq } }

/-- R222, R130: RDREG and WRREG with an address of 256 or more end at ACCEPT with INVALID_REGISTER (code 1), value and scale 0,
before acquisition and before any port access. That the latches of field requests keep their values is the model's choice
(notes/assumptions/13.md). -/
def Obligations.AddressOutOfRangeIsRefused : Prop :=
  ∀ (s : State) (addr : Half) (value : Byte), s.ectb.fsm = .idle → 256 ≤ addr.toNat →
    (∃ t, exec (.rdreg addr) s = .next t ∧ s.samePorts t ∧
      t.ectb = { s.ectb with
        opL := 1, raddrL := addr, rdataInL := 0, fsm := .idle, rspDone := true, rspErr := 1,
        rspValue := 0, rspScale := 0 }) ∧
    ∃ t, exec (.wrreg addr value) s = .next t ∧ s.samePorts t ∧
      t.ectb = { s.ectb with
        opL := 2, raddrL := addr, rdataInL := value, fsm := .idle, rspDone := true, rspErr := 1,
        rspValue := 0, rspScale := 0 }

/-- R130, R172: an idle ECTB given a field request that names a well-formed descriptor of a kind the operation admits (BOOL for
GETB, SETB and TOGL; ENUM, U8, U16LE, SCALED, LEVEL or MASKED_GT for GETI; LEVEL for SETL) latches it, the descriptor with it,
and goes on. Everything else is as before. That ACCEPT clears `REQ_VALID`, and that the latches of transport requests keep their
values, are the model's choices (notes/assumptions/10.md and 13.md). -/
def Obligations.FieldRequestIsAccepted : Prop :=
  ∀ (s : State) (fidx : Byte) (v : Bool) (n : Half) (d : Descriptor), s.ectb.fsm = .idle →
    regmap s.params fidx = d → Desc.wf d = true →
    let accepted (op : BitVec 4) (opnd : Half) : State :=
      { s with
        caller := { s.caller with reqValid := false }
        ectb := { s.ectb with
          rspDone := false, opL := op, fidxL := fidx, opndL := opnd, descL := d, k := 0,
          fsm := if s.ectb.acqState = .none then .acq else .seq } }
    (Desc.kind d = .bool →
      exec (.getb fidx) s = .next (accepted 3 0) ∧
      exec (.setb fidx v) s = .next (accepted 5 (if v then 1 else 0)) ∧
      exec (.togl fidx) s = .next (accepted 6 0)) ∧
    (Desc.kind d ∈ [Kind.enum, .u8, .u16le, .scaled, .level, .maskedGt] →
      exec (.geti fidx) s = .next (accepted 4 0)) ∧
    (Desc.kind d = .level → exec (.setl fidx n) s = .next (accepted 7 n))

/-- R226, R227, R130: a field request that names an absent or malformed entry ends at ACCEPT with INVALID_FIELD (code 5), with no
port access and no acquisition, whatever the kind. That the latches of transport requests keep their values is the model's
choice (notes/assumptions/13.md). -/
def Obligations.AbsentFieldIsRefused : Prop :=
  ∀ (s : State) (fidx : Byte) (v : Bool) (n : Half), s.ectb.fsm = .idle →
    Desc.wf (regmap s.params fidx) = false →
    let refused (op : BitVec 4) (opnd : Half) (o : Out) : Prop :=
      ∃ t, o = .next t ∧ s.samePorts t ∧
        t.ectb = { s.ectb with
          opL := op, fidxL := fidx, opndL := opnd, descL := regmap s.params fidx, fsm := .idle,
          rspDone := true, rspErr := 5, rspValue := 0, rspScale := 0 }
    refused 3 0 (exec (.getb fidx) s) ∧
    refused 4 0 (exec (.geti fidx) s) ∧
    refused 5 (if v then 1 else 0) (exec (.setb fidx v) s) ∧
    refused 6 0 (exec (.togl fidx) s) ∧
    refused 7 n (exec (.setl fidx n) s)

/-- R172, R225, R227: a field request that names a well-formed field of a kind it does not admit ends at ACCEPT with
INVALID_REQUEST (code 4), with no port access and no acquisition: any kind but BOOL for GETB, SETB and TOGL, BOOL for GETI, any
kind but LEVEL for SETL. That the latches of transport requests keep their values is the model's choice
(notes/assumptions/13.md). -/
def Obligations.KindMismatchIsRefused : Prop :=
  ∀ (s : State) (fidx : Byte) (v : Bool) (n : Half) (d : Descriptor), s.ectb.fsm = .idle →
    regmap s.params fidx = d → Desc.wf d = true →
    let refused (op : BitVec 4) (opnd : Half) (o : Out) : Prop :=
      ∃ t, o = .next t ∧ s.samePorts t ∧
        t.ectb = { s.ectb with
          opL := op, fidxL := fidx, opndL := opnd, descL := d, fsm := .idle,
          rspDone := true, rspErr := 4, rspValue := 0, rspScale := 0 }
    (Desc.kind d ≠ .bool →
      refused 3 0 (exec (.getb fidx) s) ∧
      refused 5 (if v then 1 else 0) (exec (.setb fidx v) s) ∧
      refused 6 0 (exec (.togl fidx) s)) ∧
    (Desc.kind d = .bool → refused 4 0 (exec (.geti fidx) s)) ∧
    (Desc.kind d ≠ .level → refused 7 n (exec (.setl fidx n) s))

/-- R228: ending a request with an error reports its code (1 to 5), value 0, scale 0 and `RSP_DONE`; ECTB goes to `FAILED` on
PERMISSION_DENIED and to `IDLE` on any other error; every other register keeps its value. -/
def Obligations.ErrorEndsTheRequest : Prop :=
  ∀ c : Ectb,
    c.finishError .invalidRegister =
      { c with rspErr := 1, rspValue := 0, rspScale := 0, rspDone := true, fsm := .idle } ∧
    c.finishError .permissionDenied =
      { c with rspErr := 2, rspValue := 0, rspScale := 0, rspDone := true, fsm := .failed } ∧
    c.finishError .protocolStall =
      { c with rspErr := 3, rspValue := 0, rspScale := 0, rspDone := true, fsm := .idle } ∧
    c.finishError .invalidRequest =
      { c with rspErr := 4, rspValue := 0, rspScale := 0, rspDone := true, fsm := .idle } ∧
    c.finishError .invalidField =
      { c with rspErr := 5, rspValue := 0, rspScale := 0, rspDone := true, fsm := .idle }

/-! ### Acquisition -/

/-- R236, R223: in `ACQ` a request's step draws PortAccess's answer, any answer, and makes no port access: granted, permission
is held and `SEQ` follows; denied, the request ends with PERMISSION_DENIED and ECTB is in `FAILED`. The answer drawn is the
first of the model's queue, or a free value when that is empty (notes/assumptions/8.md). -/
def Obligations.AcquisitionGrantsOrFails : Prop :=
  ∀ (i : Instr) (s : State), isRequest i = true → s.ectb.fsm = .acq →
    (∃ t, exec i s = .next t ∧
      t.ectb =
        (if s.drawGrant.1 then { s.ectb with acqState := .granted, fsm := .seq }
        else { s.ectb with
          rspErr := 2, rspValue := 0, rspScale := 0, rspDone := true, fsm := .failed }) ∧
      t.env = s.drawGrant.2.env ∧ t.ec = s.ec ∧ t.caller = s.caller ∧ t.params = s.params ∧ t.trace = s.trace) ∧
    ∀ g rest, s.env.grants = g :: rest → s.drawGrant.1 = g ∧ s.drawGrant.2.env.grants = rest

/-- R232: in `FAILED`, `REQ_READY` is 0, and no move of any agent but a reset changes a register of ECTB, makes a port access of
ECTB or takes a presented request; a reset puts ECTB's registers back. That a move of an agent with no step enabled is a step
that changes nothing is the model's choice (notes/assumptions/7.md), and so are the values a reset leaves in the latches and
`tx_*` fields (notes/assumptions/1.md). -/
def Obligations.FailedIsTerminalUntilReset : Prop :=
  ∀ s : State, s.ectb.fsm = .failed →
    s.ectb.reqReady = false ∧
    (∀ e : Event, e ≠ .reset → ∃ t, step (s.scheduled [e]) = .next t ∧ t.ectb = s.ectb ∧ t.trace = s.trace ∧
      (s.caller.reqValid = true → t.caller.reqValid = true)) ∧
    ∃ t, step (s.scheduled [.reset]) = .next t ∧ t.ectb = Ectb.reset ∧ t.ectb.reqReady = true

/-! ### The handshake -/

/-- R132, R133, R93: in `TX` with `tx_sub = POLL` a request's step reads the status port once. With `OBF` (bit 0) set in a read's
third stage, or `IBF` (bit 1) clear in any other stage, the access comes next; otherwise the `POLL_LIMIT`-th status read of the
wait raises PROTOCOL_STALL, and below the limit, or with none, the wait goes on. The reference EC's status is
`{0b000000, IBF, OBF}` (R65). A poll changes nothing of the EC; that a stall, which ends the transaction, also ends a race with it
is the model's reading (notes/assumptions/15.md). -/
def Obligations.PollReadsTheStatusOnce : Prop :=
  ∀ (i : Instr) (s : State), isRequest i = true → s.ectb.fsm = .tx → s.ectb.txSub = .poll →
    let st := (readStatus s).1
    let holds : Prop :=
      if s.ectb.txKind = .rd ∧ s.ectb.txStage = .three then st.getLsbD 0 = true else st.getLsbD 1 = false
    ∃ t, exec i s = .next t ∧
      t.trace = .readStatus st :: s.trace ∧ t.caller = s.caller ∧ t.env.schedule = s.env.schedule ∧
      (∀ e, s.ec = .ref e → st.toNat = (if e.ibf then 2 else 0) + (if e.obf then 1 else 0)) ∧
      (holds → t.ectb = { s.ectb with polls := s.ectb.polls + 1, txSub := .act } ∧ t.ec = s.ec) ∧
      (∀ n, ¬holds → s.params.pollLimit = .finite n → n ≤ s.ectb.polls + 1 →
        t.ectb = { s.ectb with
          polls := s.ectb.polls + 1, rspErr := 3, rspValue := 0, rspScale := 0, rspDone := true, fsm := .idle } ∧
        t.ec = s.ec.endRace) ∧
      (¬holds → (s.params.pollLimit = .inf ∨ ∃ n, s.params.pollLimit = .finite n ∧ s.ectb.polls + 1 < n) →
        t.ectb = { s.ectb with polls := s.ectb.polls + 1 } ∧ t.ec = s.ec)

/-- R134, R137, R139: the accesses of a read transaction. Stage 1 writes 0x80 to the command port, stage 2 `ADDR_L` to the data
port, each followed by the next stage's wait with `polls = 0`; stage 3 reads the data port into `BYTE0` for index 0 and `BYTE1`
for index 1, and ends the transaction. At the reference EC that byte is `ODATA`, and the read clears `OBF` and leaves `ODATA`
and all else of the EC as it was (R65, R66). That a race with the transaction is over then, with the EC in the state drawn for it,
is the model's reading (notes/assumptions/15.md). -/
def Obligations.ReadStageAccesses : Prop :=
  ∀ (i : Instr) (s : State), isRequest i = true → s.ectb.fsm = .tx → s.ectb.txSub = .act → s.ectb.txKind = .rd →
    (s.ectb.txStage = .one → exec i s =
      .next { s with
        ec := s.ec.deliver 0x80 true, trace := .writeCommand 0x80 :: s.trace
        ectb := { s.ectb with txStage := .two, txSub := .poll, polls := 0 } }) ∧
    (s.ectb.txStage = .two → exec i s =
      .next { s with
        ec := s.ec.deliver s.ectb.addrL false, trace := .writeData s.ectb.addrL :: s.trace
        ectb := { s.ectb with txStage := .three, txSub := .poll, polls := 0 } }) ∧
    (s.ectb.txStage = .three → s.ectb.k = 0 → ∃ t, exec i s = .next t ∧
      t.trace = .readData (readData s).1 :: s.trace ∧
      t.ectb = { s.ectb with byte0 := (readData s).1, k := 1, fsm := .seq } ∧
      (∀ e, s.ec = .race e → t.ec = .ref e) ∧
      ∀ e, s.ec = .ref e →
        (readData s).1 = e.odata ∧ t.ec = .ref { e with obf := false } ∧ t.caller = s.caller ∧ t.env = s.env) ∧
    (s.ectb.txStage = .three → s.ectb.k = 1 → ∃ t, exec i s = .next t ∧
      t.trace = .readData (readData s).1 :: s.trace ∧
      t.ectb = { s.ectb with byte1 := (readData s).1, k := 2, fsm := .seq } ∧
      (∀ e, s.ec = .race e → t.ec = .ref e) ∧
      ∀ e, s.ec = .ref e →
        (readData s).1 = e.odata ∧ t.ec = .ref { e with obf := false } ∧ t.caller = s.caller ∧ t.env = s.env)

/-- R134, R138, R139: the accesses of a write transaction: 0x81 to the command port, `ADDR_L` and then `WDATA_L` to the data port;
the third ends the transaction. That it also ends a race with the transaction (`endRace`, which changes no other EC) is the model's
reading (notes/assumptions/15.md). -/
def Obligations.WriteStageAccesses : Prop :=
  ∀ (i : Instr) (s : State), isRequest i = true → s.ectb.fsm = .tx → s.ectb.txSub = .act → s.ectb.txKind = .wr →
    (s.ectb.txStage = .one → exec i s =
      .next { s with
        ec := s.ec.deliver 0x81 true, trace := .writeCommand 0x81 :: s.trace
        ectb := { s.ectb with txStage := .two, txSub := .poll, polls := 0 } }) ∧
    (s.ectb.txStage = .two → exec i s =
      .next { s with
        ec := s.ec.deliver s.ectb.addrL false, trace := .writeData s.ectb.addrL :: s.trace
        ectb := { s.ectb with txStage := .three, txSub := .poll, polls := 0 } }) ∧
    (s.ectb.txStage = .three → exec i s =
      .next { s with
        ec := (s.ec.deliver s.ectb.wdataL false).endRace, trace := .writeData s.ectb.wdataL :: s.trace
        ectb := { s.ectb with k := s.ectb.k + 1, fsm := .seq } })

/-- R135, R142, R145: in `SEQ` a request's step starts the list's entry `k`, or finishes with the request's result when the list
is done; either way it makes no port access. -/
def Obligations.SequencerStartsOrFinishes : Prop :=
  ∀ (i : Instr) (s : State) (p : Plan), s.ectb.fsm = .seq → planOf i s.ectb = some p →
    (∀ a, p.txs[s.ectb.k]? = some (.rd a) → exec i s =
      .next { s with
        ectb := { s.ectb with txKind := .rd, txStage := .one, txSub := .poll, polls := 0, addrL := a, fsm := .tx } }) ∧
    (∀ a v, p.txs[s.ectb.k]? = some (.wr a v) → exec i s =
      .next { s with
        ectb := { s.ectb with
          txKind := .wr, txStage := .one, txSub := .poll, polls := 0, addrL := a, wdataL := v, fsm := .tx } }) ∧
    (p.txs.length ≤ s.ectb.k → exec i s =
      .next { s with
        ectb := { s.ectb with
          rspErr := 0, rspValue := p.value, rspScale := p.scale, rspDone := true, fsm := .idle } })

/-! ### The requests' lists and results -/

/-- R143, R144: RDREG's list is one read of `RADDR_L[7:0]`, and it finishes with the byte read, zero-extended, and scale 1;
WRREG's is one write of `RDATA_IN_L` to `RADDR_L[7:0]`, and it finishes with value 0 and scale 0. -/
def Obligations.TransportRequestsListAndResult : Prop :=
  ∀ (s : State) (addr : Half) (value : Byte), s.ectb.fsm = .seq →
    (s.ectb.k = 0 →
      exec (.rdreg addr) s = .next (s.onEctb (Ectb.start (.rd (s.ectb.raddrL.setWidth 8)))) ∧
      exec (.wrreg addr value) s =
        .next (s.onEctb (Ectb.start (.wr (s.ectb.raddrL.setWidth 8) s.ectb.rdataInL)))) ∧
    (1 ≤ s.ectb.k →
      exec (.rdreg addr) s =
        .next { s with
          ectb := { s.ectb with
            rspErr := 0, rspValue := s.ectb.byte0.setWidth 16, rspScale := 1, rspDone := true, fsm := .idle } } ∧
      exec (.wrreg addr value) s =
        .next { s with
          ectb := { s.ectb with rspErr := 0, rspValue := 0, rspScale := 0, rspDone := true, fsm := .idle } })

/-- R181, R173: GETB's list is one read of the field's register; then it finishes with 1 exactly when some masked bit is set XOR
the field is inverted, and scale 1. -/
def Obligations.GetbAnswersTheBit : Prop :=
  ∀ (s : State) (fidx : Byte) (d : Descriptor), s.ectb.fsm = .seq → s.ectb.descL = d →
    (s.ectb.k = 0 → exec (.getb fidx) s = .next (s.onEctb (Ectb.start (.rd (Desc.addr d))))) ∧
    (1 ≤ s.ectb.k → exec (.getb fidx) s =
      .next { s with
        ectb := { s.ectb with
          rspErr := 0, rspDone := true, fsm := .idle, rspScale := 1
          rspValue := if (s.ectb.byte0 &&& Desc.mask d ≠ 0) ↔ Desc.inv d = false then 1 else 0 } })

/-- R182 to R186, R175, R176, R178: GETI on a one-byte kind reads the field's register and finishes with scale 1 and: U8, the
masked byte; ENUM, the masked byte shifted down to bit 0; LEVEL, the whole byte; MASKED_GT, 1 if the masked byte exceeds `PARAM`,
else 0. -/
def Obligations.GetiAnswersOneByteKinds : Prop :=
  ∀ (s : State) (fidx : Byte) (d : Descriptor) (b : Byte), s.ectb.fsm = .seq → s.ectb.descL = d → s.ectb.byte0 = b →
    let finished (value : Half) : State :=
      { s with
        ectb := { s.ectb with rspErr := 0, rspValue := value, rspScale := 1, rspDone := true, fsm := .idle } }
    (s.ectb.k = 0 → Desc.kind d ∈ [Kind.u8, .enum, .level, .maskedGt] →
      exec (.geti fidx) s = .next (s.onEctb (Ectb.start (.rd (Desc.addr d))))) ∧
    (1 ≤ s.ectb.k → Desc.kind d = .u8 →
      exec (.geti fidx) s = .next (finished ((b &&& Desc.mask d).setWidth 16))) ∧
    (1 ≤ s.ectb.k → Desc.kind d = .enum →
      exec (.geti fidx) s = .next (finished (((b &&& Desc.mask d) >>> ctz (Desc.mask d)).setWidth 16))) ∧
    (1 ≤ s.ectb.k → Desc.kind d = .level → exec (.geti fidx) s = .next (finished (b.setWidth 16))) ∧
    (1 ≤ s.ectb.k → Desc.kind d = .maskedGt →
      exec (.geti fidx) s =
        .next (finished (if (Desc.param d).toNat < (b &&& Desc.mask d).toNat then 1 else 0)))

/-- R182, R187, R188, R177, R180: GETI on a two-byte kind reads the low register, then the high one, and finishes with
`BYTE1 * 256 + BYTE0` and scale 1 for U16LE, the descriptor's `SCALE` for SCALED; the value it stands for is their quotient. -/
def Obligations.GetiAnswersTwoByteKinds : Prop :=
  ∀ (s : State) (fidx : Byte) (d : Descriptor), s.ectb.fsm = .seq → s.ectb.descL = d →
    (Desc.kind d = .u16le ∨ Desc.kind d = .scaled) →
    (s.ectb.k = 0 → exec (.geti fidx) s = .next (s.onEctb (Ectb.start (.rd (Desc.addr d))))) ∧
    (s.ectb.k = 1 → exec (.geti fidx) s = .next (s.onEctb (Ectb.start (.rd (Desc.addrHi d))))) ∧
    (2 ≤ s.ectb.k → ∃ t, exec (.geti fidx) s = .next t ∧
      t.ectb.rspValue.toNat = s.ectb.byte1.toNat * 256 + s.ectb.byte0.toNat ∧
      (Desc.kind d = .u16le → t.ectb.rspScale = 1) ∧
      (Desc.kind d = .scaled → t.ectb.rspScale = Desc.scale d ∧
        t.ectb.semanticValue =
          ((s.ectb.byte1.toNat * 256 + s.ectb.byte0.toNat : Nat) : Rat) / ((Desc.scale d).toNat : Rat)) ∧
      t.ectb.rspErr = 0 ∧ t.ectb.rspDone = true ∧ t.ectb.fsm = .idle)

/-- R189, R174: SETB reads the field's register, then writes the byte read with the mask's bits cleared and, when the operand
XOR the polarity is true, set; then it finishes with value 0 and scale 0. -/
def Obligations.SetbReadsThenWrites : Prop :=
  ∀ (s : State) (fidx : Byte) (v : Bool) (d : Descriptor), s.ectb.fsm = .seq → s.ectb.descL = d →
    (s.ectb.k = 0 → exec (.setb fidx v) s = .next (s.onEctb (Ectb.start (.rd (Desc.addr d))))) ∧
    (s.ectb.k = 1 → exec (.setb fidx v) s =
      .next (s.onEctb (Ectb.start (.wr (Desc.addr d)
        ((s.ectb.byte0 &&& ~~~ Desc.mask d) |||
          (if s.ectb.opndL.getLsbD 0 = Desc.inv d then 0 else Desc.mask d)))))) ∧
    (2 ≤ s.ectb.k → exec (.setb fidx v) s =
      .next { s with
        ectb := { s.ectb with rspErr := 0, rspValue := 0, rspScale := 0, rspDone := true, fsm := .idle } })

/-- R190: TOGL reads the field's register twice, then writes the second byte read with the field encoding the complement of what
the first one decodes to; then it finishes with value 0 and scale 0. -/
def Obligations.ToglReadsTwiceThenWrites : Prop :=
  ∀ (s : State) (fidx : Byte) (d : Descriptor), s.ectb.fsm = .seq → s.ectb.descL = d →
    (s.ectb.k < 2 → exec (.togl fidx) s = .next (s.onEctb (Ectb.start (.rd (Desc.addr d))))) ∧
    (s.ectb.k = 2 → exec (.togl fidx) s =
      .next (s.onEctb (Ectb.start (.wr (Desc.addr d)
        (boolEncode s.ectb.byte1 d (!boolDecode s.ectb.byte0 d)))))) ∧
    (3 ≤ s.ectb.k → exec (.togl fidx) s =
      .next { s with
        ectb := { s.ectb with rspErr := 0, rspValue := 0, rspScale := 0, rspDone := true, fsm := .idle } })

/-- R191, R179: SETL's list is one write of `n mod PARAM`, with no read; then it finishes with value 0 and scale 0. -/
def Obligations.SetlWritesTheWrappedLevel : Prop :=
  ∀ (s : State) (fidx : Byte) (n : Half) (d : Descriptor), s.ectb.fsm = .seq → s.ectb.descL = d →
    (s.ectb.k = 0 → exec (.setl fidx n) s =
      .next (s.onEctb (Ectb.start (.wr (Desc.addr d)
        (BitVec.ofNat 8 (s.ectb.opndL.toNat % (Desc.param d).toNat)))))) ∧
    (1 ≤ s.ectb.k → exec (.setl fidx n) s =
      .next { s with
        ectb := { s.ectb with rspErr := 0, rspValue := 0, rspScale := 0, rspDone := true, fsm := .idle } })

/-! ### The field functions -/

/-- R173, R174, R190: on a well-formed boolean field, what is encoded is what is decoded, every bit outside the mask is kept,
encoding twice is encoding once, and encoding the complement of what a byte decodes to flips exactly the mask's bit. -/
def Obligations.BooleanEncodeSetsOnlyTheField : Prop :=
  ∀ (b : Byte) (d : Descriptor) (v : Bool), Desc.wf d = true → Desc.kind d = .bool →
    boolDecode (boolEncode b d v) d = v ∧
    boolEncode b d v &&& ~~~ Desc.mask d = b &&& ~~~ Desc.mask d ∧
    boolEncode (boolEncode b d v) d v = boolEncode b d v ∧
    boolEncode b d (!boolDecode b d) = b ^^^ Desc.mask d

/-- R175, R184: an enumerated field reads the masked bits as a number: bit `i` of the result is bit `ctz(MASK) + i` of the byte
where the mask has it, nothing outside the mask counts, and the result is at most the shifted mask. -/
def Obligations.EnumeratedDecodeReadsTheMaskedBits : Prop :=
  ∀ (b : Byte) (d : Descriptor), Desc.mask d ≠ 0 →
    (∃ i < 8, (Desc.mask d).getLsbD i = true ∧ (∀ j < i, (Desc.mask d).getLsbD j = false) ∧
      ∀ j, (enumDecode b d).getLsbD j = (b.getLsbD (i + j) && (Desc.mask d).getLsbD (i + j))) ∧
    (enumDecode b d).toNat ≤ (enumDecode 0xFF d).toNat

/-- R177: "compose16(lo, hi) : u16 = hi * 256 + lo, equal to {hi, lo}", and it never overflows. -/
def Obligations.CompositeIsLittleEndian : Prop :=
  ∀ lo hi : Byte, (compose16 lo hi).toNat = hi.toNat * 256 + lo.toNat ∧ compose16 lo hi = hi ++ lo

/-- R178: the masked-threshold decode compares the masked byte with `PARAM`, and for `FANS` it reads 1 exactly when the byte's
high nibble is not zero, else 0. -/
def Obligations.FansReadsWhetherTheHighNibbleIsSet : Prop :=
  (∀ (b : Byte) (d : Descriptor),
    (maskedGtDecode b d = 1 ∧ (Desc.param d).toNat < (b &&& Desc.mask d).toNat) ∨
    (maskedGtDecode b d = 0 ∧ (b &&& Desc.mask d).toNat ≤ (Desc.param d).toNat)) ∧
  ∀ (b a : Byte), maskedGtDecode b (fansEntry (some a)) = if 16 ≤ b.toNat then 1 else 0

/-- R179: the level written is `n mod PARAM`, in 0 to `PARAM` - 1 and at most 254; for `BKLT` it is `n mod 10`. -/
def Obligations.LevelWrapsIntoTheRange : Prop :=
  (∀ (n : Half) (d : Descriptor), 1 ≤ (Desc.param d).toNat →
    (levelEncode n d).toNat = n.toNat % (Desc.param d).toNat ∧
    (levelEncode n d).toNat < (Desc.param d).toNat ∧ (levelEncode n d).toNat ≤ 254) ∧
  ∀ (n : Half) (p : Params), (levelEncode n (regmap p 3)).toNat = n.toNat % 10

/-- R105, R106: a descriptor, read as a number, is well-formed exactly when its reserved bits are 0, `INV` is set only for BOOL,
and its kind is 1 to 7 with that kind's conditions on `MASK`, `ADDR_HI`, `PARAM` and `SCALE`. -/
def Obligations.DescriptorWellFormedness : Prop :=
  ∀ d : Descriptor,
    let kind := d.toNat / 2 ^ 60
    let inv := d.toNat / 2 ^ 59 % 2
    let addr := d.toNat / 2 ^ 48 % 256
    let addrHi := d.toNat / 2 ^ 40 % 256
    let mask := d.toNat / 2 ^ 32 % 256
    let param := d.toNat / 2 ^ 24 % 256
    let scale := d.toNat / 2 ^ 8 % 65536
    Desc.wf d = true ↔
      d.toNat / 2 ^ 56 % 8 = 0 ∧ d.toNat % 256 = 0 ∧ (inv = 1 → kind = 1) ∧
      ((kind = 1 ∧ (∃ i < 8, mask = 2 ^ i) ∧ addrHi = 0 ∧ param = 0 ∧ scale = 0) ∨
       (kind = 2 ∧ mask ≠ 0 ∧ addrHi = 0 ∧ param = 0 ∧ scale = 0) ∨
       (kind = 3 ∧ mask ≠ 0 ∧ addrHi = 0 ∧ param = 0 ∧ scale = 0) ∨
       (kind = 4 ∧ mask = 0xFF ∧ addr < addrHi ∧ param = 0 ∧ scale = 0) ∨
       (kind = 5 ∧ mask = 0xFF ∧ addr < addrHi ∧ param = 0 ∧ 1 ≤ scale) ∨
       (kind = 6 ∧ mask = 0xFF ∧ addrHi = 0 ∧ 1 ≤ param ∧ scale = 0) ∨
       (kind = 7 ∧ mask ≠ 0 ∧ addrHi = 0 ∧ scale = 0))

/-- R170: the fixed entries of `REGMAP` with the descriptors of the table; `VOLT` and `FANS` are `NONE` while their registers are
not supplied, and with them `VOLT` is SCALED by 1000 over the two registers and `FANS` MASKED_GT with mask 0xF0 and threshold 4. -/
def Obligations.FixedRegisterMapEntries : Prop :=
  ∀ p : Params,
    regmap p 0 = 0x10BB000100000000 ∧ regmap p 1 = 0x10BB000200000000 ∧ regmap p 2 = 0x189E000800000000 ∧
    regmap p 3 = 0x60B900FF0A000000 ∧ regmap p 4 = 0x40C2C3FF00000000 ∧
    (p.voltRegs = none → regmap p 5 = 0) ∧ (p.fansAddr = none → regmap p 6 = 0) ∧
    (∀ lo hi, p.voltRegs = some (lo, hi) →
      Desc.kind (regmap p 5) = .scaled ∧ Desc.inv (regmap p 5) = false ∧ Desc.addr (regmap p 5) = lo ∧
      Desc.addrHi (regmap p 5) = hi ∧ Desc.mask (regmap p 5) = 0xFF ∧ Desc.param (regmap p 5) = 0 ∧
      Desc.scale (regmap p 5) = 1000 ∧ Desc.rsv0 (regmap p 5) = 0 ∧ Desc.rsv1 (regmap p 5) = 0) ∧
    (∀ a, p.fansAddr = some a →
      Desc.kind (regmap p 6) = .maskedGt ∧ Desc.inv (regmap p 6) = false ∧ Desc.addr (regmap p 6) = a ∧
      Desc.addrHi (regmap p 6) = 0 ∧ Desc.mask (regmap p 6) = 0xF0 ∧ Desc.param (regmap p 6) = 4 ∧
      Desc.scale (regmap p 6) = 0 ∧ Desc.rsv0 (regmap p 6) = 0 ∧ Desc.rsv1 (regmap p 6) = 0)

/-! ### The EC -/

/-- R65, R91: the reference EC that consumes a command byte clears `IBF` and waits for the address of a read (0x80) or of a write
(0x81); nothing else changes. -/
def Obligations.EcCommandBeginsATransaction : Prop :=
  ∀ (s : State) (e : EcRef), s.ec = .ref e →
    exec .ecReadCmd s = .next { s with ec := .ref { e with ibf := false, phase := .rdAddr } } ∧
    exec .ecWriteCmd s = .next { s with ec := .ref { e with ibf := false, phase := .wrAddr } }

/-- R65: the reference EC's step on a data byte: a read's address puts that register in the output byte and sets `OBF`; a write's
address is kept for the value byte; the value byte is stored there. Each clears `IBF`, and nothing else changes. A register
with no value answers a read with a drawn byte, the first of the model's queue or else a free value: the model's choice
(notes/assumptions/4.md and 8.md). -/
def Obligations.EcConsumesDataBytes : Prop :=
  ∀ (s : State) (e : EcRef) (b : Byte), s.ec = .ref e → e.ibf = true → e.inIsCmd = false → e.inByte = b →
    (∀ v, e.phase = .rdAddr → e.regs.read b.toNat = some v →
      step (s.scheduled [.ec]) =
        .next { s with ec := .ref { e with ibf := false, phase := .idle, odata := v, obf := true } }) ∧
    (e.phase = .rdAddr → e.regs.read b.toNat = none → ∃ v env,
      step (s.scheduled [.ec]) =
        .next { s with ec := .ref { e with ibf := false, phase := .idle, odata := v, obf := true }, env := env } ∧
      env.schedule = s.env.schedule ∧ env.grants = s.env.grants ∧
      (∀ x rest, s.env.answers = x :: rest → v = x ∧ env.answers = rest) ∧
      (s.env.answers = [] → v = Config.freeRegister s.env.draws ∧ env.answers = [])) ∧
    (e.phase = .wrAddr →
      step (s.scheduled [.ec]) = .next { s with ec := .ref { e with ibf := false, phase := .wrData b } }) ∧
    (∀ a, e.phase = .wrData a → ∃ t, step (s.scheduled [.ec]) = .next t ∧
      t.ecReg a = some b ∧ (∀ a', a' ≠ a → t.ecReg a' = s.ecReg a') ∧
      t.ectb = s.ectb ∧ t.caller = s.caller ∧ t.env = s.env ∧ t.params = s.params ∧ t.trace = s.trace ∧
      ∃ e', t.ec = .ref e' ∧ e'.ibf = false ∧ e'.phase = .idle ∧ e'.obf = e.obf ∧ e'.odata = e.odata)

/-- R64, R78: an EC under no law, and any EC while a race lasts, may answer a status or data read with any byte, whatever was
written before: the answer queued is the byte ECTB reads. (The queue is the model's form of an answer: notes/assumptions/8.md.) -/
def Obligations.AnyByteMayBeRead : Prop :=
  ∀ (i : Instr) (s : State) (b : Byte) (rest : List Byte), isRequest i = true →
    (s.ec = .oracle ∨ ∃ e, s.ec = .race e) → s.ectb.fsm = .tx → s.env.answers = b :: rest →
    (s.ectb.txSub = .poll → ∃ t, exec i s = .next t ∧ t.trace = .readStatus b :: s.trace ∧ t.env.answers = rest) ∧
    (s.ectb.txSub = .act → s.ectb.txKind = .rd → s.ectb.txStage = .three →
      (s.ectb.k = 0 → ∃ t, exec i s = .next t ∧ t.ectb.byte0 = b ∧ t.env.answers = rest) ∧
      (s.ectb.k = 1 → ∃ t, exec i s = .next t ∧ t.ectb.byte1 = b ∧ t.env.answers = rest))

/-- R78, R240. A transaction is under way in `TX` from its first POLL on. The lock is held, with the guard `per_transaction`,
while a transaction is under way; with `per_request`, from the request's first port access on; with `absent`, never. A foreign
access by a master that honours the lock changes nothing while it is held. Any other one acts on the reference EC as a host's
access does when it falls outside a transaction; within one it begins a race, which is over as soon as the transaction is, and
not before: the EC is then the reference EC in a drawn state, any registers written with any bytes and all else of it free. No
race begins under `NoForeignTraffic`, nor, with either lock, if every foreign master honours it. The model's reading,
notes/assumptions/15.md: a master that does not honour the lock exists under every guard, and how long the interleaving lasts;
2.md: an EC under no law has nothing to change; 8.md: the queue of what races leave; 21.md: when a transaction ended by a stall or
a reset gives the lock up. -/
def Obligations.ForeignAccessIsLockedOutOrARace : Prop :=
  (∀ c : Ectb,
    (c.txOpen = true ↔ c.fsm = .tx ∧ (c.txStage ≠ .one ∨ c.txSub = .act ∨ 0 < c.polls)) ∧
    c.lockHeld .absent = false ∧
    c.lockHeld .perTransaction = c.txOpen ∧
    (c.lockHeld .perRequest = true ↔ c.txOpen = true ∨ ((c.fsm = .seq ∨ c.fsm = .tx) ∧ 0 < c.k))) ∧
  (∀ (s : State) (x : ForeignAccess) (honours : Bool),
    (s.ectb.lockHeld s.params.guard = true → step (s.scheduled [.foreign true x]) = .next s) ∧
    (s.ec = .oracle → step (s.scheduled [.foreign honours x]) = .next s) ∧
    (honours = false ∨ s.ectb.lockHeld s.params.guard = false → ∀ e, s.ec = .ref e →
      (s.ectb.txOpen = true → ∃ r env, step (s.scheduled [.foreign honours x]) =
          .next { s with ec := .race (e.after r), env := env } ∧
        env.schedule = s.env.schedule ∧ env.answers = s.env.answers ∧ env.grants = s.env.grants ∧
        (∀ q rest, s.env.races = q :: rest → r = q ∧ env.races = rest) ∧
        (s.env.races = [] → r = Config.freeRace s.env.draws ∧ env.races = [])) ∧
      (s.ectb.txOpen = false →
        (∀ v, step (s.scheduled [.foreign honours (.writeData v)]) =
          .next { s with ec := .ref { e with inByte := v, inIsCmd := false, ibf := true } }) ∧
        (∀ c, step (s.scheduled [.foreign honours (.writeCommand c)]) =
          .next { s with ec := .ref { e with inByte := c, inIsCmd := true, ibf := true } }) ∧
        step (s.scheduled [.foreign honours .readData]) = .next { s with ec := .ref { e with obf := false } } ∧
        step (s.scheduled [.foreign honours .readStatus]) = .next s))) ∧
  (∀ (r : RaceResult) (e : EcRef),
    (e.after r).ibf = r.ibf ∧ (e.after r).obf = r.obf ∧ (e.after r).odata = r.odata ∧ (e.after r).inByte = r.inByte ∧
    (e.after r).inIsCmd = r.inIsCmd ∧ (e.after r).phase = r.phase ∧
    (∀ a, (∀ v, (a, v) ∉ r.writes) → (e.after r).regs.read a.toNat = e.regs.read a.toNat) ∧
    ∀ a v ws vs, r.writes = ws ++ (a, v) :: vs → (∀ w, (a, w) ∉ vs) → (e.after r).regs.read a.toNat = some v) ∧
  (∀ (s t : State) (e : EcRef), s.ec = .race e → s.ectb.txOpen = true → step s = .next t →
    t.ec = if t.ectb.txOpen then .race e else .ref e) ∧
  ∀ (s t : State) (es : List Event) (m : Nat), s.ec.inRace = false →
    NoForeignTraffic es ∨ (ForeignMastersHonour es ∧ s.params.guard ≠ .absent) →
    m ≤ es.length → run m (s.scheduled es) = .next t → t.ec.inRace = false

/-! ### Frames -/

/-- What a request's step leaves unchanged (R25 to R28, R141): every EC register always; the request latches and `REQ_VALID`
outside ACCEPT; `ACQ_STATE` outside the ACQ step; the transaction's address, value and kind outside SEQ; the result bytes except
the one its data read fills; the response registers while the request goes on; ports, EC and trace outside `TX`; the caller's
program, the schedule, the races to come and the parameters always. -/
def Obligations.RequestStepFrame : Prop :=
  ∀ (i : Instr) (s t : State), isRequest i = true → exec i s = .next t →
    (∀ a, t.ecReg a = s.ecReg a) ∧ t.params = s.params ∧ t.env.schedule = s.env.schedule ∧ t.env.races = s.env.races ∧
    { t.caller with reqValid := s.caller.reqValid } = s.caller ∧
    (s.ectb.fsm ≠ .idle →
      t.caller = s.caller ∧ t.ectb.opL = s.ectb.opL ∧ t.ectb.raddrL = s.ectb.raddrL ∧
      t.ectb.rdataInL = s.ectb.rdataInL ∧ t.ectb.fidxL = s.ectb.fidxL ∧ t.ectb.opndL = s.ectb.opndL ∧
      t.ectb.descL = s.ectb.descL) ∧
    (s.ectb.fsm ≠ .acq → t.ectb.acqState = s.ectb.acqState ∧ t.env.grants = s.env.grants) ∧
    (s.ectb.fsm ≠ .seq → t.ectb.addrL = s.ectb.addrL ∧ t.ectb.wdataL = s.ectb.wdataL ∧ t.ectb.txKind = s.ectb.txKind) ∧
    (s.ectb.fsm ≠ .tx → t.ectb.byte0 = s.ectb.byte0 ∧ t.ectb.byte1 = s.ectb.byte1 ∧ t.ec = s.ec ∧
      t.trace = s.trace ∧ t.env.answers = s.env.answers) ∧
    (s.ectb.fsm = .tx → (s.ectb.k ≠ 0 → t.ectb.byte0 = s.ectb.byte0) ∧ (s.ectb.k ≠ 1 → t.ectb.byte1 = s.ectb.byte1)) ∧
    (s.ectb.fsm = .tx → (s.ectb.txSub = .poll ∨ s.ectb.txKind = .wr ∨ s.ectb.txStage ≠ .three) →
      t.ectb.byte0 = s.ectb.byte0 ∧ t.ectb.byte1 = s.ectb.byte1) ∧
    (t.ectb.rspDone = false → t.ectb.rspErr = s.ectb.rspErr ∧ t.ectb.rspValue = s.ectb.rspValue ∧
      t.ectb.rspScale = s.ectb.rspScale)

/-- What the EC's command bytes leave unchanged: every EC register, ECTB, the caller, the environment, the parameters and the
trace; of the reference EC (R65) also the output byte, `OBF` and the input byte. An EC under no law (R64) is so still: that the
model holds nothing of it for a byte to change is its own reading (notes/assumptions/2.md), and so is that a race goes on with
the end that was drawn for it (15.md). -/
def Obligations.EcCommandFrame : Prop :=
  ∀ (i : Instr) (s t : State), (i = .ecReadCmd ∨ i = .ecWriteCmd) → exec i s = .next t →
    (∀ a, t.ecReg a = s.ecReg a) ∧ t.ectb = s.ectb ∧ t.caller = s.caller ∧ t.env = s.env ∧
    t.params = s.params ∧ t.trace = s.trace ∧
    (s.ec = .oracle → t.ec = .oracle) ∧ (∀ e, s.ec = .race e → t.ec = .race e) ∧
    (∀ e e', s.ec = .ref e → t.ec = .ref e' →
      e'.obf = e.obf ∧ e'.odata = e.odata ∧ e'.inByte = e.inByte ∧ e'.inIsCmd = e.inIsCmd)

/-- R20, R30, R62: no step of ECTB, of the caller or of a reset changes an EC register; the EC's own step changes at most the
register whose value byte it consumes; its own change of a register changes no other. -/
def Obligations.OnlyTheEcChangesItsRegisters : Prop :=
  ∀ s t : State, step s = .next t →
    ((s.nextEvent.1 = .ectb ∨ s.nextEvent.1 = .caller ∨ (∃ q, s.nextEvent.1 = .request q) ∨ s.nextEvent.1 = .reset) →
      ∀ a, t.ecReg a = s.ecReg a) ∧
    (∀ a, s.nextEvent.1 = .ec → t.ecReg a ≠ s.ecReg a → t.ec ≠ .oracle →
      ∃ e, s.ec = .ref e ∧ e.ibf = true ∧ e.inIsCmd = false ∧ e.phase = .wrData a ∧ t.ecReg a = some e.inByte) ∧
    (∀ a v, s.nextEvent.1 = .ecChange a v → ∀ a', a' ≠ a → t.ecReg a' = s.ecReg a')

/-! ### Reset, the caller -/

/-- R260, R261, R262: after reset `fsm` is `IDLE`, so `REQ_READY` is 1, `polls` and `k` are 0, `ACQ_STATE` is `NONE` and the
response registers are 0; nothing about the EC is known. A reset in any state puts those values there and touches neither the
EC nor the parameters. The model's own: the EC of which nothing is known is the one under no law (notes/assumptions/3.md), and a
reset leaves the caller and the environment alone (notes/assumptions/16.md), but that the caller knows of a request it cut off
(22.md), and ends a race (15.md; `endRace` changes no other
EC). -/
def Obligations.ResetValues : Prop :=
  let atReset (c : Ectb) : Prop :=
    c.fsm = .idle ∧ c.reqReady = true ∧ c.polls = 0 ∧ c.k = 0 ∧ c.acqState = .none ∧ c.rspDone = false ∧
      c.rspErr = 0 ∧ c.rspValue = 0 ∧ c.rspScale = 0
  atReset State.reset.ectb ∧ State.reset.ec = .oracle ∧
  ∀ s : State, ∃ t, step (s.scheduled [.reset]) = .next t ∧ atReset t.ectb ∧
    t.ec = s.ec.endRace ∧ (s.ec.inRace = false → t.ec = s.ec) ∧
    (s.ectb.fsm = .idle ∨ s.ectb.fsm = .failed → t.caller = s.caller) ∧
    (s.ectb.fsm = .acq ∨ s.ectb.fsm = .seq ∨ s.ectb.fsm = .tx → t.caller = { s.caller with cut := true }) ∧
    t.env = s.env ∧ t.params = s.params

/-- R35: the caller presents `prog[rp]` when `REQ_READY` is 1 and nothing when it is 0; when `RSP_DONE` is 1 with no error it
moves the pointer on; on an error code it stops and records the code with `rp` where it is; with `rp` at the list's length it
presents nothing; `rp` starts at 0. R229: outside a program it may present any request, after an error too. R233: the exit code is
1 when a request finished with an error; it is 0 when every request finished without one and the program is at its end, and none
else. The model's choices: the caller waits for the response it is due (`awaiting`) and for its word to be accepted
(notes/assumptions/10.md); a move with nothing to do changes nothing (7.md); when the caller presents a request of its own, and
that a run with a request a reset cut off has no exit code 0 (22.md); and the clause that an exit code of 1 stays through every
step, a reset too: R233 says nothing of a reset, and that the run and its record go on after one rests on 16.md and 22.md. -/
def Obligations.CallerAdvancesOrStops : Prop :=
  State.reset.caller.rp = 0 ∧
  (∀ s : State, s.caller.stopped = none → s.caller.reqValid = false →
    (∀ q, s.caller.awaiting = false → s.ectb.fsm = .idle → s.caller.prog[s.caller.rp]? = some q →
      step (s.scheduled [.caller]) =
        .next { s with caller := { s.caller with reqValid := true, reqWord := q, awaiting := true } }) ∧
    (s.caller.awaiting = false → s.ectb.fsm ≠ .idle → step (s.scheduled [.caller]) = .next s) ∧
    (s.caller.awaiting = true → s.ectb.rspDone = true → s.ectb.rspErr = 0 →
      step (s.scheduled [.caller]) =
        .next { s with caller := { s.caller with rp := s.caller.rp + 1, awaiting := false } }) ∧
    (s.caller.awaiting = true → s.ectb.rspDone = true → s.ectb.rspErr ≠ 0 →
      step (s.scheduled [.caller]) =
        .next { s with caller := { s.caller with stopped := some s.ectb.rspErr, awaiting := false } }) ∧
    (s.caller.awaiting = true → s.ectb.rspDone = false → step (s.scheduled [.caller]) = .next s) ∧
    (s.caller.awaiting = false → s.caller.rp = s.caller.prog.length → step (s.scheduled [.caller]) = .next s)) ∧
  (∀ s : State, s.caller.stopped ≠ none ∨ s.caller.reqValid = true → step (s.scheduled [.caller]) = .next s) ∧
  (∀ (s : State) (q : ReqWord),
    (s.caller.reqValid = false → (s.ectb.fsm = .idle ∨ s.ectb.fsm = .failed) →
      (s.caller.awaiting = false ∨ (s.ectb.fsm = .idle ∧ s.ectb.rspDone = false)) →
      step (s.scheduled [.request q]) =
        .next { s with caller := { s.caller with reqValid := true, reqWord := q, awaiting := false } }) ∧
    (s.caller.awaiting = true → s.ectb.rspDone = true → step (s.scheduled [.request q]) = .next s) ∧
    (s.ectb.fsm = .acq ∨ s.ectb.fsm = .seq ∨ s.ectb.fsm = .tx → step (s.scheduled [.request q]) = .next s) ∧
    (s.caller.reqValid = true → step (s.scheduled [.request q]) = .next s)) ∧
  (∀ s t : State, step (s.scheduled [.ectb]) = .next t → t.ectb.rspErr ≠ 0 →
    (t.ectb.fsm = .idle ∨ t.ectb.fsm = .failed) →
    (s.ectb.fsm = .acq ∨ s.ectb.fsm = .seq ∨ s.ectb.fsm = .tx ∨ (s.ectb.fsm = .idle ∧ s.caller.reqValid = true)) →
    t.exitCode = some 1) ∧
  (∀ s t : State, step s = .next t → s.exitCode = some 1 → t.exitCode = some 1) ∧
  ∀ s : State,
    (s.exitCode = some 1 ↔ s.caller.erred = true ∨ s.caller.stopped ≠ none) ∧
    (s.exitCode = some 0 ↔
      s.caller.erred = false ∧ s.caller.stopped = none ∧ s.caller.cut = false ∧ s.caller.rp = s.caller.prog.length ∧
        s.caller.awaiting = false ∧ s.caller.reqValid = false ∧ (s.ectb.fsm = .idle ∨ s.ectb.fsm = .failed)) ∧
    (s.exitCode = none ∨ s.exitCode = some 0 ∨ s.exitCode = some 1)

/-! ### Invariants -/

/-- The invariant holds right after reset. -/
def Obligations.ResetMeetsTheInvariant : Prop := State.reset.inv = true

/-- Every step keeps the invariant, whoever moves and whatever the environment answers: ECTB's registers fit its control state, no
error code above 5 (R102), no port access without permission (R61, R234), no command byte but 0x80 and 0x81 (R92), fewer polls
than the limit (R23, R133), the EC's registers in canonical form. That a race (R78) lasts only while a transaction is under way is the model's reading, since
R78 does not say when the interleaving ends (notes/assumptions/15.md). -/
def Obligations.EveryStepKeepsTheInvariant : Prop :=
  ∀ s t : State, s.inv = true → step s = .next t → t.inv = true

/-- R221, R228: nothing stops the machine: from every state that meets the invariant the step answers a next state, so no error,
no byte the EC answers and no foreign access ends a run. -/
def Obligations.NothingStopsTheMachine : Prop :=
  ∀ s : State, s.inv = true → ∃ t, step s = .next t

/-- R61, R234, R235: ECTB makes a port access only with permission granted, and permission, once granted, is lost only by a
reset. -/
def Obligations.PortsNeedPermission : Prop :=
  ∀ s t : State, s.inv = true → step s = .next t → s.nextEvent.1 ≠ .reset →
    (t.trace ≠ s.trace → s.ectb.acqState = .granted) ∧
    (s.ectb.acqState = .granted → t.ectb.acqState = .granted)

/-! ### Whole requests -/

/-- R143, R136, W15. Premises: `EC_REF` at rest, the schedule `EAGER` (the EC's step at once after each write), no foreign
traffic, and port permission already granted. RDREG of a register that holds `b` finishes with `(0, b, 1)`, the port trace of V-T1, and no register changed. -/
def Obligations.RdregWholeRequest : Prop :=
  ∀ (s : State) (e : EcRef) (addr : Half) (b : Byte), s.ectb.ready = true → s.ec = .ref e → e.atRest = true →
    addr.toNat < 256 → e.regs.read addr.toNat = some b →
    ∃ t, run eagerOneRead.length (s.requested (.rdreg addr) eagerOneRead) = .next t ∧
      t.ectb.responded 0 (b.setWidth 16) 1 = true ∧ t.trace = readTrace (addr.setWidth 8) b ++ s.trace ∧
      (∀ a, t.ecReg a = s.ecReg a) ∧ t.env.schedule = s.env.schedule

/-- R144, R140, R193 (round trip, W1). Premises: `EC_REF` at rest, the schedule `EAGER`, no foreign traffic, and port permission
already granted. WRREG of `v` to register `a` finishes with `(0, 0, 0)`, the port trace of V-T5 and only that
register changed; a RDREG of it then finishes with `(0, v, 1)`. -/
def Obligations.WriteThenReadRoundTrip : Prop :=
  ∀ (s : State) (e : EcRef) (a v : Byte), s.ectb.ready = true → s.ec = .ref e → e.atRest = true →
    ∃ t u, run eagerOneWrite.length (s.requested (.wrreg (a.setWidth 16) v) eagerOneWrite) = .next t ∧
      t.ectb.responded 0 0 0 = true ∧ t.trace = writeTrace a v ++ s.trace ∧
      t.ecReg a = some v ∧ (∀ a', a' ≠ a → t.ecReg a' = s.ecReg a') ∧
      run eagerOneRead.length (t.requested (.rdreg (a.setWidth 16)) eagerOneRead) = .next u ∧
      u.ectb.responded 0 (v.setWidth 16) 1 = true

/-- R187, R188, R193 (multi-byte decode, W5, W11). Premises: `EC_REF` at rest, the schedule `EAGER`, no foreign traffic, and port
permission already granted. GETI of a two-byte field whose registers hold `lo` and `hi` reads the low
register first and finishes with `hi * 256 + lo` and the field's scale. -/
def Obligations.GetiCompositeWholeRequest : Prop :=
  ∀ (s : State) (e : EcRef) (f : Byte) (d : Descriptor) (lo hi : Byte), s.ectb.ready = true → s.ec = .ref e →
    e.atRest = true → regmap s.params f = d → Desc.wf d = true → (Desc.kind d = .u16le ∨ Desc.kind d = .scaled) →
    e.regs.read (Desc.addr d).toNat = some lo → e.regs.read (Desc.addrHi d).toNat = some hi →
    ∃ t, run eagerTwoReads.length (s.requested (.geti f) eagerTwoReads) = .next t ∧
      t.ectb.responded 0 (hi ++ lo) (if Desc.kind d = .u16le then 1 else Desc.scale d) = true ∧
      t.trace = readTrace (Desc.addrHi d) hi ++ (readTrace (Desc.addr d) lo ++ s.trace) ∧
      ∀ a, t.ecReg a = s.ecReg a

/-- R189, R193 (bit isolation and set idempotence, W3, W4). Premises: `EC_REF` at rest, the schedule `EAGER`, no foreign traffic,
and port permission already granted. SETB leaves its register at `boolEncode` of what it held, no bit
outside the mask and no other register changed; a second SETB leaves the register as the first did. -/
def Obligations.SetbWholeRequest : Prop :=
  ∀ (s : State) (e : EcRef) (f : Byte) (v : Bool) (d : Descriptor) (b : Byte), s.ectb.ready = true →
    s.ec = .ref e → e.atRest = true → regmap s.params f = d → Desc.wf d = true → Desc.kind d = .bool →
    e.regs.read (Desc.addr d).toNat = some b →
    ∃ t u new, run eagerSet.length (s.requested (.setb f v) eagerSet) = .next t ∧
      t.ectb.responded 0 0 0 = true ∧
      t.trace = writeTrace (Desc.addr d) new ++ (readTrace (Desc.addr d) b ++ s.trace) ∧
      t.ecReg (Desc.addr d) = some new ∧ boolDecode new d = v ∧
      new &&& ~~~ Desc.mask d = b &&& ~~~ Desc.mask d ∧
      (∀ a, a ≠ Desc.addr d → t.ecReg a = s.ecReg a) ∧
      run eagerSet.length (t.requested (.setb f v) eagerSet) = .next u ∧ ∀ a, u.ecReg a = t.ecReg a

/-- R190, R193 (toggle involution, W2). Premises: `EC_REF` at rest, the schedule `EAGER`, no foreign traffic, and port permission
already granted. TOGL flips exactly the mask's bit of its register, and a second TOGL restores every
register. -/
def Obligations.ToggleTwiceRestores : Prop :=
  ∀ (s : State) (e : EcRef) (f : Byte) (d : Descriptor) (b : Byte), s.ectb.ready = true → s.ec = .ref e →
    e.atRest = true → regmap s.params f = d → Desc.wf d = true → Desc.kind d = .bool →
    e.regs.read (Desc.addr d).toNat = some b →
    ∃ t u, run eagerToggle.length (s.requested (.togl f) eagerToggle) = .next t ∧
      t.ectb.responded 0 0 0 = true ∧ t.ecReg (Desc.addr d) = some (b ^^^ Desc.mask d) ∧
      run eagerToggle.length (t.requested (.togl f) eagerToggle) = .next u ∧
      ∀ a, u.ecReg a = s.ecReg a

/-- R191, R193 (range wrap, W6). Premises: `EC_REF` at rest, the schedule `EAGER`, no foreign traffic, and port permission already
granted. SETL stores `n mod PARAM` in the field's register with no data read, and changes no other. -/
def Obligations.SetlWholeRequest : Prop :=
  ∀ (s : State) (e : EcRef) (f : Byte) (n : Half) (d : Descriptor), s.ectb.ready = true → s.ec = .ref e →
    e.atRest = true → regmap s.params f = d → Desc.wf d = true → Desc.kind d = .level →
    ∃ t v, run eagerOneWrite.length (s.requested (.setl f n) eagerOneWrite) = .next t ∧
      t.ectb.responded 0 0 0 = true ∧ t.trace = writeTrace (Desc.addr d) v ++ s.trace ∧
      v.toNat = n.toNat % (Desc.param d).toNat ∧ t.ecReg (Desc.addr d) = some v ∧
      ∀ a, a ≠ Desc.addr d → t.ecReg a = s.ecReg a

/-- R187, R188, R267 (torn composite): with the EC under no law and port permission already granted, a GETI of a U16LE or SCALED
field may combine any two bytes: with status answers that satisfy each wait and any `lo` and `hi` for the two data reads it
finishes with `hi * 256 + lo`, and with scale 1 or the descriptor's `SCALE`. (The queue of answers is the model's form of them:
notes/assumptions/8.md.) -/
def Obligations.CompositeMayCombineAnyTwoReadings : Prop :=
  ∀ (s : State) (f : Byte) (d : Descriptor) (lo hi s1 s2 s3 s4 s5 s6 : Byte) (rest : List Byte),
    s.ectb.ready = true → s.ec = .oracle → regmap s.params f = d → Desc.wf d = true →
    (Desc.kind d = .u16le ∨ Desc.kind d = .scaled) →
    s1.getLsbD 1 = false → s2.getLsbD 1 = false → s3.getLsbD 0 = true →
    s4.getLsbD 1 = false → s5.getLsbD 1 = false → s6.getLsbD 0 = true →
    s.env.answers = s1 :: s2 :: s3 :: lo :: s4 :: s5 :: s6 :: hi :: rest →
    ∃ t, run 16 (s.requested (.geti f) (List.replicate 16 .ectb)) = .next t ∧
      t.ectb.responded 0 (hi ++ lo) (if Desc.kind d = .u16le then 1 else Desc.scale d) = true ∧
      t.env.answers = rest

/-! ### Liveness and hanging -/

/-- R271, R147: with a finite `POLL_LIMIT` of `n`, a request in progress finishes, whatever the EC answers, whatever the other
agents do and however their moves interleave with ECTB's, within 9n + 14 moves of ECTB, unless ECTB is reset. -/
def Obligations.FiniteLimitFinishesEveryRequest : Prop :=
  ∀ (s : State) (n : Nat) (es : List Event), s.inv = true → s.params.pollLimit = .finite n →
    (s.ectb.fsm = .acq ∨ s.ectb.fsm = .seq ∨ s.ectb.fsm = .tx) →
    Event.reset ∉ es → 9 * n + 14 ≤ es.count .ectb →
    ∃ m ≤ es.length, ∃ t, run m (s.scheduled es) = .next t ∧ t.ectb.rspDone = true ∧
      (t.ectb.fsm = .idle ∨ t.ectb.fsm = .failed)

/-- R146, R271: with no limit, a wait whose condition never holds goes on for ever: with the reference EC silent in a status that
does not satisfy it, after any number of ECTB's moves ECTB is still in the same wait, the request is not done, and each move was
one more status read. With the premise `ECResponds`, ECTB moving again and again and no reset, every request in progress finishes,
with no limit or any, whatever the EC answers and whatever the other agents do. -/
def Obligations.NoLimitMayHangForEver : Prop :=
  (∀ (s : State) (ev : Nat → Event), s.inv = true →
    (s.ectb.fsm = .acq ∨ s.ectb.fsm = .seq ∨ s.ectb.fsm = .tx) →
    (∀ n, ev n ≠ .reset) → EctbFair ev → ECResponds ev s →
    ∃ n t, runMoves ev n s = .next t ∧ t.ectb.rspDone = true ∧ (t.ectb.fsm = .idle ∨ t.ectb.fsm = .failed)) ∧
  ∀ (s : State) (e : EcRef) (m : Nat), s.inv = true → s.params.pollLimit = .inf → s.ec = .ref e →
    s.ectb.fsm = .tx → s.ectb.txSub = .poll → waitHolds s.ectb.txKind s.ectb.txStage e.status = false →
    ∃ t, run m (s.scheduled (List.replicate m .ectb)) = .next t ∧
      t.ectb = { s.ectb with polls := s.ectb.polls + m } ∧ t.ectb.rspDone = false ∧ t.ec = s.ec ∧
      t.trace = List.replicate m (.readStatus e.status) ++ s.trace

/-- R133, R136: with no limit, or one not yet reached, a wait goes through any number of unsatisfied polls and ends at the first
satisfied one. (The polls' answers are the model's queue: notes/assumptions/8.md.) -/
def Obligations.WaitEndsAtTheFirstSatisfiedPoll : Prop :=
  ∀ (s : State) (bad : List Byte) (good : Byte) (rest : List Byte), s.inv = true → s.ec = .oracle →
    s.ectb.fsm = .tx → s.ectb.txSub = .poll → s.env.answers = bad ++ good :: rest →
    (∀ b ∈ bad, waitHolds s.ectb.txKind s.ectb.txStage b = false) →
    waitHolds s.ectb.txKind s.ectb.txStage good = true →
    (s.params.pollLimit = .inf ∨ ∃ n, s.params.pollLimit = .finite n ∧ s.ectb.polls + bad.length < n) →
    ∃ t, run (bad.length + 1) (s.scheduled (List.replicate (bad.length + 1) .ectb)) = .next t ∧
      t.ectb = { s.ectb with polls := s.ectb.polls + bad.length + 1, txSub := .act } ∧ t.env.answers = rest

/-! ### What no request depends on -/

/-- R26, R261: "no rule reads a latch before it is written in the same request": two idle ECTBs that agree on `ACQ_STATE` and the
response registers, whatever their latches and `tx_*` fields hold, run alike for ever: the same control state, response,
permission, port trace, EC, caller and environment after every number of steps. -/
def Obligations.NoLatchIsReadBeforeItIsWritten : Prop :=
  ∀ (s : State) (c : Ectb) (m : Nat) (t : State), s.ectb.fsm = .idle → c.fsm = .idle →
    c.acqState = s.ectb.acqState → c.rspDone = s.ectb.rspDone → c.rspErr = s.ectb.rspErr →
    c.rspValue = s.ectb.rspValue → c.rspScale = s.ectb.rspScale →
    run m s = .next t →
    ∃ u, run m { s with ectb := c } = .next u ∧
      u.ectb.fsm = t.ectb.fsm ∧ u.ectb.acqState = t.ectb.acqState ∧ u.ectb.rspDone = t.ectb.rspDone ∧
      u.ectb.rspErr = t.ectb.rspErr ∧ u.ectb.rspValue = t.ectb.rspValue ∧ u.ectb.rspScale = t.ectb.rspScale ∧
      u.trace = t.trace ∧ u.ec = t.ec ∧ u.caller = t.caller ∧ u.env = t.env ∧ u.params = t.params
end

