-- ==== Sys2Proof/Laws/Decode.lean ====
section
/-! SUPPORT. Laws/Decode.lean: the bits and fields of the two word formats (30_encoding.md R95 to R97). -/

namespace Sys2Proof

/-- A bit of a format T word. -/
theorem getLsbD_formatT (op : BitVec 4) (addr : Half) (data : Byte) (i : Nat) :
    (Req.formatT op addr data).getLsbD i =
      if i < 8 then data.getLsbD i else if i < 24 then addr.getLsbD (i - 8)
      else if i < 28 then false else op.getLsbD (i - 28) := by
  unfold Req.formatT
  rw [BitVec.getLsbD_append, BitVec.getLsbD_append, BitVec.getLsbD_append]
  split
  · rfl
  · by_cases h : i < 24
    · simp only [h, if_true, show i - 8 < 16 by omega]
    · simp only [h, if_false, show ¬ i - 8 < 16 by omega]
      by_cases h2 : i < 28
      · simp [h2, show i - 8 - 16 < 4 by omega]
      · simp only [h2, show ¬ i - 8 - 16 < 4 by omega, if_false]
        congr 1

/-- A bit of a format F word. -/
theorem getLsbD_formatF (op : BitVec 4) (fidx : Byte) (opnd : Half) (i : Nat) :
    (Req.formatF op fidx opnd).getLsbD i =
      if i < 16 then opnd.getLsbD i else if i < 24 then fidx.getLsbD (i - 16)
      else if i < 28 then false else op.getLsbD (i - 28) := by
  unfold Req.formatF
  rw [BitVec.getLsbD_append, BitVec.getLsbD_append, BitVec.getLsbD_append]
  split
  · rfl
  · by_cases h : i < 24
    · simp only [h, if_true, show i - 16 < 8 by omega]
    · simp only [h, if_false, show ¬ i - 16 < 8 by omega]
      by_cases h2 : i < 28
      · simp [h2, show i - 16 - 8 < 4 by omega]
      · simp only [h2, show ¬ i - 16 - 8 < 4 by omega, if_false]
        congr 1

section Fields
variable (op : BitVec 4) (addr : Half) (data : Byte) (fidx : Byte) (opnd : Half)

@[simp] theorem op_formatT : Req.op (Req.formatT op addr data) = op := by
  ext i hi
  simp [Req.op, getLsbD_formatT, hi, show ¬ 28 + i < 8 by omega, show ¬ 28 + i < 24 by omega]

@[simp] theorem rsv_formatT : Req.rsv (Req.formatT op addr data) = 0 := by
  ext i hi
  simp [Req.rsv, getLsbD_formatT, show ¬ 24 + i < 8 by omega, show 24 + i < 28 by omega]

@[simp] theorem addr_formatT : Req.addr (Req.formatT op addr data) = addr := by
  ext i hi
  simp [Req.addr, getLsbD_formatT, hi, show 8 + i < 24 by omega]

@[simp] theorem data_formatT : Req.data (Req.formatT op addr data) = data := by
  ext i hi
  simp [Req.data, getLsbD_formatT, hi]

@[simp] theorem op_formatF : Req.op (Req.formatF op fidx opnd) = op := by
  ext i hi
  simp [Req.op, getLsbD_formatF, hi, show ¬ 28 + i < 16 by omega, show ¬ 28 + i < 24 by omega]

@[simp] theorem rsv_formatF : Req.rsv (Req.formatF op fidx opnd) = 0 := by
  ext i hi
  simp [Req.rsv, getLsbD_formatF, show ¬ 24 + i < 16 by omega, show 24 + i < 28 by omega]

@[simp] theorem fidx_formatF : Req.fidx (Req.formatF op fidx opnd) = fidx := by
  ext i hi
  simp [Req.fidx, getLsbD_formatF, hi, show 16 + i < 24 by omega]

@[simp] theorem opnd_formatF : Req.opnd (Req.formatF op fidx opnd) = opnd := by
  ext i hi
  simp [Req.opnd, getLsbD_formatF, hi]

end Fields

@[simp] theorem boolOperand_high (v : Bool) : (boolOperand v).extractLsb' 1 15 = 0 := by cases v <;> rfl

@[simp] theorem boolOperand_bit (v : Bool) : (boolOperand v)[0] = v := by cases v <;> rfl

/-- A word with zero reserved bits is the format T word of its own fields. -/
theorem formatT_of_fields {q : ReqWord} (h : Req.rsv q = 0) :
    Req.formatT (Req.op q) (Req.addr q) (Req.data q) = q := by
  apply BitVec.eq_of_getLsbD_eq
  intro i hi
  rw [getLsbD_formatT]
  split
  · simp [Req.data, *]
  · split
    · simp only [Req.addr, BitVec.getLsbD_extractLsb']
      rw [show 8 + (i - 8) = i by omega]
      simp
      omega
    · split
      · have hb := congrArg (fun b => b.getLsbD (i - 24)) h
        simp only [Req.rsv, BitVec.getLsbD_extractLsb', show 24 + (i - 24) = i by omega] at hb
        simp at hb
        rw [hb]
        omega
      · simp only [Req.op, BitVec.getLsbD_extractLsb']
        rw [show 28 + (i - 28) = i by omega]
        simp
        omega

/-- A word with zero reserved bits is the format F word of its own fields. -/
theorem formatF_of_fields {q : ReqWord} (h : Req.rsv q = 0) :
    Req.formatF (Req.op q) (Req.fidx q) (Req.opnd q) = q := by
  apply BitVec.eq_of_getLsbD_eq
  intro i hi
  rw [getLsbD_formatF]
  split
  · simp [Req.opnd, *]
  · split
    · simp only [Req.fidx, BitVec.getLsbD_extractLsb']
      rw [show 16 + (i - 16) = i by omega]
      simp
      omega
    · split
      · have hb := congrArg (fun b => b.getLsbD (i - 24)) h
        simp only [Req.rsv, BitVec.getLsbD_extractLsb', show 24 + (i - 24) = i by omega] at hb
        simp at hb
        rw [hb]
        omega
      · simp only [Req.op, BitVec.getLsbD_extractLsb']
        rw [show 28 + (i - 28) = i by omega]
        simp
        omega

/-- An operand with zeros above bit 0 is the operand of that bit. -/
theorem boolOperand_of_high {x : Half} (h : x.extractLsb' 1 15 = 0) : boolOperand (x.getLsbD 0) = x := by
  apply BitVec.eq_of_getLsbD_eq
  intro i hi
  rcases Nat.eq_zero_or_pos i with rfl | hp
  · cases hx : x.getLsbD 0 <;> simp [boolOperand]
  · have hb := congrArg (fun b => b.getLsbD (i - 1)) h
    simp only [BitVec.getLsbD_extractLsb', show 1 + (i - 1) = i by omega] at hb
    simp at hb
    rw [hb (by omega)]
    cases hx : x.getLsbD 0
    · simp [boolOperand]
    · simp [boolOperand]
      omega

end Sys2Proof
end

