-- ==== Sys2Proof/Laws/Descriptor.lean ====
section
/-! SUPPORT. Laws/Descriptor.lean: a descriptor's fields as numbers (30_encoding.md R105), what `popcount` and `ctz` say of a
mask, and the numbers `VOLT` and `FANS` are. -/

namespace Sys2Proof.Machine

section Fields
variable (d : Descriptor)

theorem kindBits_toNat : (Desc.kindBits d).toNat = d.toNat / 2 ^ 60 := by
  have := d.isLt
  simp [Desc.kindBits, BitVec.extractLsb'_toNat, Nat.shiftRight_eq_div_pow]
  omega

theorem inv_eq : Desc.inv d = decide (d.toNat / 2 ^ 59 % 2 = 1) := by
  simp [Desc.inv, BitVec.getLsbD, Nat.testBit, Nat.shiftRight_eq_div_pow, Nat.one_and_eq_mod_two]
  rcases Nat.mod_two_eq_zero_or_one (d.toNat / 576460752303423488) with h | h <;> simp [h]

theorem rsv0_toNat : (Desc.rsv0 d).toNat = d.toNat / 2 ^ 56 % 8 := by
  simp [Desc.rsv0, BitVec.extractLsb'_toNat, Nat.shiftRight_eq_div_pow]

theorem addr_toNat : (Desc.addr d).toNat = d.toNat / 2 ^ 48 % 256 := by
  simp [Desc.addr, BitVec.extractLsb'_toNat, Nat.shiftRight_eq_div_pow]

theorem addrHi_toNat : (Desc.addrHi d).toNat = d.toNat / 2 ^ 40 % 256 := by
  simp [Desc.addrHi, BitVec.extractLsb'_toNat, Nat.shiftRight_eq_div_pow]

theorem mask_toNat : (Desc.mask d).toNat = d.toNat / 2 ^ 32 % 256 := by
  simp [Desc.mask, BitVec.extractLsb'_toNat, Nat.shiftRight_eq_div_pow]

theorem param_toNat : (Desc.param d).toNat = d.toNat / 2 ^ 24 % 256 := by
  simp [Desc.param, BitVec.extractLsb'_toNat, Nat.shiftRight_eq_div_pow]

theorem scale_toNat : (Desc.scale d).toNat = d.toNat / 2 ^ 8 % 65536 := by
  simp [Desc.scale, BitVec.extractLsb'_toNat, Nat.shiftRight_eq_div_pow]

theorem rsv1_toNat : (Desc.rsv1 d).toNat = d.toNat % 256 := by
  simp [Desc.rsv1, BitVec.extractLsb'_toNat]

end Fields

/-- One bit is set exactly when the mask is a power of two. -/
theorem popcount_eq_one : ∀ m : Byte, popcount m = 1 ↔ ∃ i < 8, m.toNat = 2 ^ i := by decide

/-- `ctz` is the place of the lowest set bit. -/
theorem ctz_spec : ∀ m : Byte, m ≠ 0 →
    ctz m < 8 ∧ m.getLsbD (ctz m) = true ∧ ∀ j : Fin 8, j.val < ctz m → m.getLsbD j = false := by decide

/-- A value shifted up and ORed with one that fits below it is their sum. -/
theorem shiftLeft_or_low {a b n : Nat} (h : b < 2 ^ n) : a <<< n ||| b = a * 2 ^ n + b := by
  rw [← Nat.shiftLeft_add_eq_or_of_lt h, Nat.shiftLeft_eq]

/-- `VOLT`'s descriptor as a number (R170). -/
theorem voltEntry_toNat (lo hi : Byte) :
    (voltEntry (some (lo, hi))).toNat = 0x50 * 2 ^ 56 + lo.toNat * 2 ^ 48 + hi.toNat * 2 ^ 40 + 0xFF0003E800 := by
  have h : (voltEntry (some (lo, hi))).toNat =
      ((0x50 <<< 8 ||| lo.toNat) <<< 8 ||| hi.toNat) <<< 40 ||| 0xFF0003E800 := by
    unfold voltEntry
    erw [BitVec.toNat_append, BitVec.toNat_append, BitVec.toNat_append]
    rfl
  rw [h, shiftLeft_or_low lo.isLt, shiftLeft_or_low hi.isLt, shiftLeft_or_low (by norm_num)]
  omega

/-- `FANS`'s descriptor as a number (R170). -/
theorem fansEntry_toNat (a : Byte) :
    (fansEntry (some a)).toNat = 0x70 * 2 ^ 56 + a.toNat * 2 ^ 48 + 0x00F004000000 := by
  have h : (fansEntry (some a)).toNat = (0x70 <<< 8 ||| a.toNat) <<< 48 ||| 0x00F004000000 := by
    unfold fansEntry
    erw [BitVec.toNat_append, BitVec.toNat_append]
    rfl
  rw [h, shiftLeft_or_low a.isLt, shiftLeft_or_low (by norm_num)]
  omega

end Sys2Proof.Machine
end

