-- ==== Sys2Proof/Laws/Memory.lean ====
section
/-! SUPPORT. Laws/Memory.lean: a read after a write to the same register gives the value written, a write leaves every other
register alone, and a write keeps the canonical form. -/

namespace Sys2Proof.Machine

@[simp] theorem memory_read_nil (a : Nat) : Memory.read [] a = none := rfl

@[simp] theorem memory_read_write_same (m : Memory) (a : Nat) (v : Byte) : (m.write a v).read a = some v := by
  induction m with
  | nil => simp [Memory.write, Memory.read]
  | cons c rest ih =>
    obtain ⟨b, w⟩ := c
    by_cases h1 : a < b
    · simp [Memory.write, Memory.read, h1]
    · by_cases h2 : a = b
      · simp [Memory.write, Memory.read, h2]
      · simpa [Memory.write, Memory.read, h1, h2, Ne.symm h2] using ih

theorem memory_read_write_other (m : Memory) {a b : Nat} (v : Byte) (h : b ≠ a) :
    (m.write a v).read b = m.read b := by
  induction m with
  | nil => simp [Memory.write, Memory.read, Ne.symm h]
  | cons c rest ih =>
    obtain ⟨x, w⟩ := c
    by_cases h1 : a < x
    · simp [Memory.write, Memory.read, h1, Ne.symm h]
    · by_cases h2 : a = x
      · subst h2
        simp [Memory.write, Memory.read, Ne.symm h]
      · simp [Memory.write, Memory.read, h1, h2, ih]

/-- The canonical form above a bound survives a write at or above the bound. -/
theorem memory_write_wfFrom (m : Memory) (lo a : Nat) (v : Byte) (hlo : lo ≤ a) (ha : a < Config.numRegs)
    (h : m.wfFrom lo = true) : (m.write a v).wfFrom lo = true := by
  induction m generalizing lo with
  | nil => simp [Memory.write, Memory.wfFrom, hlo, ha]
  | cons c rest ih =>
    obtain ⟨x, w⟩ := c
    simp only [Memory.wfFrom, Bool.and_eq_true, decide_eq_true_eq] at h
    obtain ⟨⟨hx, hxn⟩, hr⟩ := h
    by_cases h1 : a < x
    · simp [Memory.write, Memory.wfFrom, h1, hlo, ha, hxn, hr, Nat.succ_le_of_lt h1]
    · by_cases h2 : a = x
      · subst h2
        simp [Memory.write, Memory.wfFrom, hx, ha, hr]
      · simp only [Memory.write, h1, h2, if_false, Memory.wfFrom, Bool.and_eq_true, decide_eq_true_eq]
        exact ⟨⟨hx, hxn⟩, ih (x + 1) (by omega) hr⟩

/-- Writing an EC register keeps the canonical form. -/
theorem memory_write_wf (m : Memory) (a v : Byte) (h : m.wf = true) : (m.write a.toNat v).wf = true :=
  memory_write_wfFrom m 0 a.toNat v (Nat.zero_le _) a.isLt h

@[simp] theorem memory_writeAll_nil (m : Memory) : m.writeAll [] = m := rfl

@[simp] theorem memory_writeAll_cons (m : Memory) (w : Byte × Byte) (ws : List (Byte × Byte)) :
    m.writeAll (w :: ws) = (m.write w.1.toNat w.2).writeAll ws := rfl

@[simp] theorem memory_writeAll_append (m : Memory) (ws vs : List (Byte × Byte)) :
    m.writeAll (ws ++ vs) = (m.writeAll ws).writeAll vs := by
  simp [Memory.writeAll]

/-- A register that no write of a list names keeps what it held. -/
theorem memory_read_writeAll_other (m : Memory) (ws : List (Byte × Byte)) (a : Byte) (h : ∀ v, (a, v) ∉ ws) :
    (m.writeAll ws).read a.toNat = m.read a.toNat := by
  induction ws generalizing m with
  | nil => rfl
  | cons w ws ih =>
    obtain ⟨b, x⟩ := w
    have hb : a.toNat ≠ b.toNat := fun e => h x (by simp [BitVec.eq_of_toNat_eq e])
    rw [memory_writeAll_cons, ih _ (fun v hv => h v (List.mem_cons_of_mem _ hv)), memory_read_write_other _ _ hb]

/-- Writing a list of bytes keeps the canonical form. -/
theorem memory_writeAll_wf (m : Memory) (ws : List (Byte × Byte)) (h : m.wf = true) : (m.writeAll ws).wf = true := by
  induction ws generalizing m with
  | nil => exact h
  | cons w ws ih => exact ih _ (memory_write_wf m w.1 w.2 h)

end Sys2Proof.Machine
end

