-- ==== Sys2Proof/Laws/State.lean ====
section
/-! SUPPORT. Laws/State.lean: what each named update leaves in each field, so that no proof unfolds a record update. Each
lemma is one field of one update. -/

namespace Sys2Proof.Machine

/-! ### Updates of the state -/

@[simp] theorem onEctb_ectb (f : Ectb → Ectb) (s : State) : (s.onEctb f).ectb = f s.ectb := rfl
@[simp] theorem onEctb_ec (f : Ectb → Ectb) (s : State) : (s.onEctb f).ec = s.ec := rfl
@[simp] theorem onEctb_caller (f : Ectb → Ectb) (s : State) : (s.onEctb f).caller = s.caller := rfl
@[simp] theorem onEctb_env (f : Ectb → Ectb) (s : State) : (s.onEctb f).env = s.env := rfl
@[simp] theorem onEctb_params (f : Ectb → Ectb) (s : State) : (s.onEctb f).params = s.params := rfl
@[simp] theorem onEctb_trace (f : Ectb → Ectb) (s : State) : (s.onEctb f).trace = s.trace := rfl

@[simp] theorem setEc_ectb (e : Ec) (s : State) : (s.setEc e).ectb = s.ectb := rfl
@[simp] theorem setEc_ec (e : Ec) (s : State) : (s.setEc e).ec = e := rfl
@[simp] theorem setEc_caller (e : Ec) (s : State) : (s.setEc e).caller = s.caller := rfl
@[simp] theorem setEc_env (e : Ec) (s : State) : (s.setEc e).env = s.env := rfl
@[simp] theorem setEc_params (e : Ec) (s : State) : (s.setEc e).params = s.params := rfl
@[simp] theorem setEc_trace (e : Ec) (s : State) : (s.setEc e).trace = s.trace := rfl

@[simp] theorem log_ectb (x : PortAccess) (s : State) : (s.log x).ectb = s.ectb := rfl
@[simp] theorem log_ec (x : PortAccess) (s : State) : (s.log x).ec = s.ec := rfl
@[simp] theorem log_caller (x : PortAccess) (s : State) : (s.log x).caller = s.caller := rfl
@[simp] theorem log_env (x : PortAccess) (s : State) : (s.log x).env = s.env := rfl
@[simp] theorem log_params (x : PortAccess) (s : State) : (s.log x).params = s.params := rfl
@[simp] theorem log_trace (x : PortAccess) (s : State) : (s.log x).trace = x :: s.trace := rfl

@[simp] theorem takeRequest_ectb (s : State) : (s.takeRequest).ectb = s.ectb := rfl
@[simp] theorem takeRequest_ec (s : State) : (s.takeRequest).ec = s.ec := rfl
@[simp] theorem takeRequest_caller (s : State) : (s.takeRequest).caller = { s.caller with reqValid := false } := rfl
@[simp] theorem takeRequest_env (s : State) : (s.takeRequest).env = s.env := rfl
@[simp] theorem takeRequest_params (s : State) : (s.takeRequest).params = s.params := rfl
@[simp] theorem takeRequest_trace (s : State) : (s.takeRequest).trace = s.trace := rfl

@[simp] theorem callerStep_ectb (s : State) : (callerStep s).ectb = s.ectb := rfl
@[simp] theorem callerStep_ec (s : State) : (callerStep s).ec = s.ec := rfl
@[simp] theorem callerStep_caller (s : State) : (callerStep s).caller = s.caller.move s.ectb := rfl
@[simp] theorem callerStep_env (s : State) : (callerStep s).env = s.env := rfl
@[simp] theorem callerStep_params (s : State) : (callerStep s).params = s.params := rfl
@[simp] theorem callerStep_trace (s : State) : (callerStep s).trace = s.trace := rfl

@[simp] theorem recordFinish_ectb (s t : State) : (s.recordFinish t).ectb = t.ectb := rfl
@[simp] theorem recordFinish_ec (s t : State) : (s.recordFinish t).ec = t.ec := rfl
@[simp] theorem recordFinish_env (s t : State) : (s.recordFinish t).env = t.env := rfl
@[simp] theorem recordFinish_params (s t : State) : (s.recordFinish t).params = t.params := rfl
@[simp] theorem recordFinish_trace (s t : State) : (s.recordFinish t).trace = t.trace := rfl
@[simp] theorem recordFinish_caller (s t : State) : (s.recordFinish t).caller =
    { t.caller with erred := t.caller.erred || (s.finishes t && t.ectb.rspErr != 0) } := rfl

@[simp] theorem submitStep_ectb (q : ReqWord) (s : State) : (submitStep q s).ectb = s.ectb := rfl
@[simp] theorem submitStep_ec (q : ReqWord) (s : State) : (submitStep q s).ec = s.ec := rfl
@[simp] theorem submitStep_caller (q : ReqWord) (s : State) : (submitStep q s).caller = s.caller.submit s.ectb q := rfl
@[simp] theorem submitStep_env (q : ReqWord) (s : State) : (submitStep q s).env = s.env := rfl
@[simp] theorem submitStep_params (q : ReqWord) (s : State) : (submitStep q s).params = s.params := rfl
@[simp] theorem submitStep_trace (q : ReqWord) (s : State) : (submitStep q s).trace = s.trace := rfl

@[simp] theorem endRace_ectb (s : State) : s.endRace.ectb = s.ectb := rfl
@[simp] theorem endRace_ec (s : State) : s.endRace.ec = s.ec.endRace := rfl
@[simp] theorem endRace_caller (s : State) : s.endRace.caller = s.caller := rfl
@[simp] theorem endRace_env (s : State) : s.endRace.env = s.env := rfl
@[simp] theorem endRace_params (s : State) : s.endRace.params = s.params := rfl
@[simp] theorem endRace_trace (s : State) : s.endRace.trace = s.trace := rfl

@[simp] theorem ectbReset_ectb (s : State) : (ectbReset s).ectb = Ectb.reset := rfl
@[simp] theorem ectbReset_ec (s : State) : (ectbReset s).ec = s.ec.endRace := rfl
@[simp] theorem ectbReset_caller (s : State) :
    (ectbReset s).caller = { s.caller with cut := s.caller.cut || s.ectb.busy } := rfl
@[simp] theorem ectbReset_env (s : State) : (ectbReset s).env = s.env := rfl
@[simp] theorem ectbReset_params (s : State) : (ectbReset s).params = s.params := rfl
@[simp] theorem ectbReset_trace (s : State) : (ectbReset s).trace = [] := rfl

@[simp] theorem writeCommand_ectb (c : Byte) (s : State) : (writeCommand c s).ectb = s.ectb := rfl
@[simp] theorem writeCommand_ec (c : Byte) (s : State) : (writeCommand c s).ec = s.ec.deliver c true := rfl
@[simp] theorem writeCommand_caller (c : Byte) (s : State) : (writeCommand c s).caller = s.caller := rfl
@[simp] theorem writeCommand_env (c : Byte) (s : State) : (writeCommand c s).env = s.env := rfl
@[simp] theorem writeCommand_params (c : Byte) (s : State) : (writeCommand c s).params = s.params := rfl
@[simp] theorem writeCommand_trace (c : Byte) (s : State) : (writeCommand c s).trace = .writeCommand c :: s.trace := rfl

@[simp] theorem writeData_ectb (v : Byte) (s : State) : (writeData v s).ectb = s.ectb := rfl
@[simp] theorem writeData_ec (v : Byte) (s : State) : (writeData v s).ec = s.ec.deliver v false := rfl
@[simp] theorem writeData_caller (v : Byte) (s : State) : (writeData v s).caller = s.caller := rfl
@[simp] theorem writeData_env (v : Byte) (s : State) : (writeData v s).env = s.env := rfl
@[simp] theorem writeData_params (v : Byte) (s : State) : (writeData v s).params = s.params := rfl
@[simp] theorem writeData_trace (v : Byte) (s : State) : (writeData v s).trace = .writeData v :: s.trace := rfl

/-! ### Updates of ECTB's registers -/

@[simp] theorem finishError_fsm (e : ErrorKind) (c : Ectb) : (c.finishError e).fsm = if e = .permissionDenied then .failed else .idle := rfl
@[simp] theorem finishError_txKind (e : ErrorKind) (c : Ectb) : (c.finishError e).txKind = c.txKind := rfl
@[simp] theorem finishError_txStage (e : ErrorKind) (c : Ectb) : (c.finishError e).txStage = c.txStage := rfl
@[simp] theorem finishError_txSub (e : ErrorKind) (c : Ectb) : (c.finishError e).txSub = c.txSub := rfl
@[simp] theorem finishError_polls (e : ErrorKind) (c : Ectb) : (c.finishError e).polls = c.polls := rfl
@[simp] theorem finishError_k (e : ErrorKind) (c : Ectb) : (c.finishError e).k = c.k := rfl
@[simp] theorem finishError_opL (e : ErrorKind) (c : Ectb) : (c.finishError e).opL = c.opL := rfl
@[simp] theorem finishError_raddrL (e : ErrorKind) (c : Ectb) : (c.finishError e).raddrL = c.raddrL := rfl
@[simp] theorem finishError_rdataInL (e : ErrorKind) (c : Ectb) : (c.finishError e).rdataInL = c.rdataInL := rfl
@[simp] theorem finishError_fidxL (e : ErrorKind) (c : Ectb) : (c.finishError e).fidxL = c.fidxL := rfl
@[simp] theorem finishError_opndL (e : ErrorKind) (c : Ectb) : (c.finishError e).opndL = c.opndL := rfl
@[simp] theorem finishError_descL (e : ErrorKind) (c : Ectb) : (c.finishError e).descL = c.descL := rfl
@[simp] theorem finishError_addrL (e : ErrorKind) (c : Ectb) : (c.finishError e).addrL = c.addrL := rfl
@[simp] theorem finishError_wdataL (e : ErrorKind) (c : Ectb) : (c.finishError e).wdataL = c.wdataL := rfl
@[simp] theorem finishError_byte0 (e : ErrorKind) (c : Ectb) : (c.finishError e).byte0 = c.byte0 := rfl
@[simp] theorem finishError_byte1 (e : ErrorKind) (c : Ectb) : (c.finishError e).byte1 = c.byte1 := rfl
@[simp] theorem finishError_acqState (e : ErrorKind) (c : Ectb) : (c.finishError e).acqState = c.acqState := rfl
@[simp] theorem finishError_rspDone (e : ErrorKind) (c : Ectb) : (c.finishError e).rspDone = true := rfl
@[simp] theorem finishError_rspErr (e : ErrorKind) (c : Ectb) : (c.finishError e).rspErr = e.code := rfl
@[simp] theorem finishError_rspValue (e : ErrorKind) (c : Ectb) : (c.finishError e).rspValue = 0 := rfl
@[simp] theorem finishError_rspScale (e : ErrorKind) (c : Ectb) : (c.finishError e).rspScale = 0 := rfl

@[simp] theorem finishOk_fsm (v sc : Half) (c : Ectb) : (c.finishOk v sc).fsm = .idle := rfl
@[simp] theorem finishOk_txKind (v sc : Half) (c : Ectb) : (c.finishOk v sc).txKind = c.txKind := rfl
@[simp] theorem finishOk_txStage (v sc : Half) (c : Ectb) : (c.finishOk v sc).txStage = c.txStage := rfl
@[simp] theorem finishOk_txSub (v sc : Half) (c : Ectb) : (c.finishOk v sc).txSub = c.txSub := rfl
@[simp] theorem finishOk_polls (v sc : Half) (c : Ectb) : (c.finishOk v sc).polls = c.polls := rfl
@[simp] theorem finishOk_k (v sc : Half) (c : Ectb) : (c.finishOk v sc).k = c.k := rfl
@[simp] theorem finishOk_opL (v sc : Half) (c : Ectb) : (c.finishOk v sc).opL = c.opL := rfl
@[simp] theorem finishOk_raddrL (v sc : Half) (c : Ectb) : (c.finishOk v sc).raddrL = c.raddrL := rfl
@[simp] theorem finishOk_rdataInL (v sc : Half) (c : Ectb) : (c.finishOk v sc).rdataInL = c.rdataInL := rfl
@[simp] theorem finishOk_fidxL (v sc : Half) (c : Ectb) : (c.finishOk v sc).fidxL = c.fidxL := rfl
@[simp] theorem finishOk_opndL (v sc : Half) (c : Ectb) : (c.finishOk v sc).opndL = c.opndL := rfl
@[simp] theorem finishOk_descL (v sc : Half) (c : Ectb) : (c.finishOk v sc).descL = c.descL := rfl
@[simp] theorem finishOk_addrL (v sc : Half) (c : Ectb) : (c.finishOk v sc).addrL = c.addrL := rfl
@[simp] theorem finishOk_wdataL (v sc : Half) (c : Ectb) : (c.finishOk v sc).wdataL = c.wdataL := rfl
@[simp] theorem finishOk_byte0 (v sc : Half) (c : Ectb) : (c.finishOk v sc).byte0 = c.byte0 := rfl
@[simp] theorem finishOk_byte1 (v sc : Half) (c : Ectb) : (c.finishOk v sc).byte1 = c.byte1 := rfl
@[simp] theorem finishOk_acqState (v sc : Half) (c : Ectb) : (c.finishOk v sc).acqState = c.acqState := rfl
@[simp] theorem finishOk_rspDone (v sc : Half) (c : Ectb) : (c.finishOk v sc).rspDone = true := rfl
@[simp] theorem finishOk_rspErr (v sc : Half) (c : Ectb) : (c.finishOk v sc).rspErr = 0 := rfl
@[simp] theorem finishOk_rspValue (v sc : Half) (c : Ectb) : (c.finishOk v sc).rspValue = v := rfl
@[simp] theorem finishOk_rspScale (v sc : Half) (c : Ectb) : (c.finishOk v sc).rspScale = sc := rfl

@[simp] theorem beginRequest_fsm (c : Ectb) :
    (c.beginRequest).fsm = if c.acqState = .none then .acq else .seq := by
  unfold Ectb.beginRequest; cases c.acqState <;> rfl
@[simp] theorem beginRequest_txKind (c : Ectb) : (c.beginRequest).txKind = c.txKind := rfl
@[simp] theorem beginRequest_txStage (c : Ectb) : (c.beginRequest).txStage = c.txStage := rfl
@[simp] theorem beginRequest_txSub (c : Ectb) : (c.beginRequest).txSub = c.txSub := rfl
@[simp] theorem beginRequest_polls (c : Ectb) : (c.beginRequest).polls = c.polls := rfl
@[simp] theorem beginRequest_k (c : Ectb) : (c.beginRequest).k = 0 := rfl
@[simp] theorem beginRequest_opL (c : Ectb) : (c.beginRequest).opL = c.opL := rfl
@[simp] theorem beginRequest_raddrL (c : Ectb) : (c.beginRequest).raddrL = c.raddrL := rfl
@[simp] theorem beginRequest_rdataInL (c : Ectb) : (c.beginRequest).rdataInL = c.rdataInL := rfl
@[simp] theorem beginRequest_fidxL (c : Ectb) : (c.beginRequest).fidxL = c.fidxL := rfl
@[simp] theorem beginRequest_opndL (c : Ectb) : (c.beginRequest).opndL = c.opndL := rfl
@[simp] theorem beginRequest_descL (c : Ectb) : (c.beginRequest).descL = c.descL := rfl
@[simp] theorem beginRequest_addrL (c : Ectb) : (c.beginRequest).addrL = c.addrL := rfl
@[simp] theorem beginRequest_wdataL (c : Ectb) : (c.beginRequest).wdataL = c.wdataL := rfl
@[simp] theorem beginRequest_byte0 (c : Ectb) : (c.beginRequest).byte0 = c.byte0 := rfl
@[simp] theorem beginRequest_byte1 (c : Ectb) : (c.beginRequest).byte1 = c.byte1 := rfl
@[simp] theorem beginRequest_acqState (c : Ectb) : (c.beginRequest).acqState = c.acqState := rfl
@[simp] theorem beginRequest_rspDone (c : Ectb) : (c.beginRequest).rspDone = c.rspDone := rfl
@[simp] theorem beginRequest_rspErr (c : Ectb) : (c.beginRequest).rspErr = c.rspErr := rfl
@[simp] theorem beginRequest_rspValue (c : Ectb) : (c.beginRequest).rspValue = c.rspValue := rfl
@[simp] theorem beginRequest_rspScale (c : Ectb) : (c.beginRequest).rspScale = c.rspScale := rfl

@[simp] theorem acceptOp_fsm (op : BitVec 4) (c : Ectb) : (c.acceptOp op).fsm = c.fsm := rfl
@[simp] theorem acceptOp_txKind (op : BitVec 4) (c : Ectb) : (c.acceptOp op).txKind = c.txKind := rfl
@[simp] theorem acceptOp_txStage (op : BitVec 4) (c : Ectb) : (c.acceptOp op).txStage = c.txStage := rfl
@[simp] theorem acceptOp_txSub (op : BitVec 4) (c : Ectb) : (c.acceptOp op).txSub = c.txSub := rfl
@[simp] theorem acceptOp_polls (op : BitVec 4) (c : Ectb) : (c.acceptOp op).polls = c.polls := rfl
@[simp] theorem acceptOp_k (op : BitVec 4) (c : Ectb) : (c.acceptOp op).k = c.k := rfl
@[simp] theorem acceptOp_opL (op : BitVec 4) (c : Ectb) : (c.acceptOp op).opL = op := rfl
@[simp] theorem acceptOp_raddrL (op : BitVec 4) (c : Ectb) : (c.acceptOp op).raddrL = c.raddrL := rfl
@[simp] theorem acceptOp_rdataInL (op : BitVec 4) (c : Ectb) : (c.acceptOp op).rdataInL = c.rdataInL := rfl
@[simp] theorem acceptOp_fidxL (op : BitVec 4) (c : Ectb) : (c.acceptOp op).fidxL = c.fidxL := rfl
@[simp] theorem acceptOp_opndL (op : BitVec 4) (c : Ectb) : (c.acceptOp op).opndL = c.opndL := rfl
@[simp] theorem acceptOp_descL (op : BitVec 4) (c : Ectb) : (c.acceptOp op).descL = c.descL := rfl
@[simp] theorem acceptOp_addrL (op : BitVec 4) (c : Ectb) : (c.acceptOp op).addrL = c.addrL := rfl
@[simp] theorem acceptOp_wdataL (op : BitVec 4) (c : Ectb) : (c.acceptOp op).wdataL = c.wdataL := rfl
@[simp] theorem acceptOp_byte0 (op : BitVec 4) (c : Ectb) : (c.acceptOp op).byte0 = c.byte0 := rfl
@[simp] theorem acceptOp_byte1 (op : BitVec 4) (c : Ectb) : (c.acceptOp op).byte1 = c.byte1 := rfl
@[simp] theorem acceptOp_acqState (op : BitVec 4) (c : Ectb) : (c.acceptOp op).acqState = c.acqState := rfl
@[simp] theorem acceptOp_rspDone (op : BitVec 4) (c : Ectb) : (c.acceptOp op).rspDone = false := rfl
@[simp] theorem acceptOp_rspErr (op : BitVec 4) (c : Ectb) : (c.acceptOp op).rspErr = c.rspErr := rfl
@[simp] theorem acceptOp_rspValue (op : BitVec 4) (c : Ectb) : (c.acceptOp op).rspValue = c.rspValue := rfl
@[simp] theorem acceptOp_rspScale (op : BitVec 4) (c : Ectb) : (c.acceptOp op).rspScale = c.rspScale := rfl

@[simp] theorem nextStage_fsm (g : TxStage) (c : Ectb) : (c.nextStage g).fsm = c.fsm := rfl
@[simp] theorem nextStage_txKind (g : TxStage) (c : Ectb) : (c.nextStage g).txKind = c.txKind := rfl
@[simp] theorem nextStage_txStage (g : TxStage) (c : Ectb) : (c.nextStage g).txStage = g := rfl
@[simp] theorem nextStage_txSub (g : TxStage) (c : Ectb) : (c.nextStage g).txSub = .poll := rfl
@[simp] theorem nextStage_polls (g : TxStage) (c : Ectb) : (c.nextStage g).polls = 0 := rfl
@[simp] theorem nextStage_k (g : TxStage) (c : Ectb) : (c.nextStage g).k = c.k := rfl
@[simp] theorem nextStage_opL (g : TxStage) (c : Ectb) : (c.nextStage g).opL = c.opL := rfl
@[simp] theorem nextStage_raddrL (g : TxStage) (c : Ectb) : (c.nextStage g).raddrL = c.raddrL := rfl
@[simp] theorem nextStage_rdataInL (g : TxStage) (c : Ectb) : (c.nextStage g).rdataInL = c.rdataInL := rfl
@[simp] theorem nextStage_fidxL (g : TxStage) (c : Ectb) : (c.nextStage g).fidxL = c.fidxL := rfl
@[simp] theorem nextStage_opndL (g : TxStage) (c : Ectb) : (c.nextStage g).opndL = c.opndL := rfl
@[simp] theorem nextStage_descL (g : TxStage) (c : Ectb) : (c.nextStage g).descL = c.descL := rfl
@[simp] theorem nextStage_addrL (g : TxStage) (c : Ectb) : (c.nextStage g).addrL = c.addrL := rfl
@[simp] theorem nextStage_wdataL (g : TxStage) (c : Ectb) : (c.nextStage g).wdataL = c.wdataL := rfl
@[simp] theorem nextStage_byte0 (g : TxStage) (c : Ectb) : (c.nextStage g).byte0 = c.byte0 := rfl
@[simp] theorem nextStage_byte1 (g : TxStage) (c : Ectb) : (c.nextStage g).byte1 = c.byte1 := rfl
@[simp] theorem nextStage_acqState (g : TxStage) (c : Ectb) : (c.nextStage g).acqState = c.acqState := rfl
@[simp] theorem nextStage_rspDone (g : TxStage) (c : Ectb) : (c.nextStage g).rspDone = c.rspDone := rfl
@[simp] theorem nextStage_rspErr (g : TxStage) (c : Ectb) : (c.nextStage g).rspErr = c.rspErr := rfl
@[simp] theorem nextStage_rspValue (g : TxStage) (c : Ectb) : (c.nextStage g).rspValue = c.rspValue := rfl
@[simp] theorem nextStage_rspScale (g : TxStage) (c : Ectb) : (c.nextStage g).rspScale = c.rspScale := rfl

@[simp] theorem endTx_fsm (c : Ectb) : (c.endTx).fsm = .seq := rfl
@[simp] theorem endTx_txKind (c : Ectb) : (c.endTx).txKind = c.txKind := rfl
@[simp] theorem endTx_txStage (c : Ectb) : (c.endTx).txStage = c.txStage := rfl
@[simp] theorem endTx_txSub (c : Ectb) : (c.endTx).txSub = c.txSub := rfl
@[simp] theorem endTx_polls (c : Ectb) : (c.endTx).polls = c.polls := rfl
@[simp] theorem endTx_k (c : Ectb) : (c.endTx).k = c.k + 1 := rfl
@[simp] theorem endTx_opL (c : Ectb) : (c.endTx).opL = c.opL := rfl
@[simp] theorem endTx_raddrL (c : Ectb) : (c.endTx).raddrL = c.raddrL := rfl
@[simp] theorem endTx_rdataInL (c : Ectb) : (c.endTx).rdataInL = c.rdataInL := rfl
@[simp] theorem endTx_fidxL (c : Ectb) : (c.endTx).fidxL = c.fidxL := rfl
@[simp] theorem endTx_opndL (c : Ectb) : (c.endTx).opndL = c.opndL := rfl
@[simp] theorem endTx_descL (c : Ectb) : (c.endTx).descL = c.descL := rfl
@[simp] theorem endTx_addrL (c : Ectb) : (c.endTx).addrL = c.addrL := rfl
@[simp] theorem endTx_wdataL (c : Ectb) : (c.endTx).wdataL = c.wdataL := rfl
@[simp] theorem endTx_byte0 (c : Ectb) : (c.endTx).byte0 = c.byte0 := rfl
@[simp] theorem endTx_byte1 (c : Ectb) : (c.endTx).byte1 = c.byte1 := rfl
@[simp] theorem endTx_acqState (c : Ectb) : (c.endTx).acqState = c.acqState := rfl
@[simp] theorem endTx_rspDone (c : Ectb) : (c.endTx).rspDone = c.rspDone := rfl
@[simp] theorem endTx_rspErr (c : Ectb) : (c.endTx).rspErr = c.rspErr := rfl
@[simp] theorem endTx_rspValue (c : Ectb) : (c.endTx).rspValue = c.rspValue := rfl
@[simp] theorem endTx_rspScale (c : Ectb) : (c.endTx).rspScale = c.rspScale := rfl

@[simp] theorem start_rd_fsm (a : Byte) (c : Ectb) : (c.start (.rd a)).fsm = .tx := rfl
@[simp] theorem start_rd_txKind (a : Byte) (c : Ectb) : (c.start (.rd a)).txKind = .rd := rfl
@[simp] theorem start_rd_txStage (a : Byte) (c : Ectb) : (c.start (.rd a)).txStage = .one := rfl
@[simp] theorem start_rd_txSub (a : Byte) (c : Ectb) : (c.start (.rd a)).txSub = .poll := rfl
@[simp] theorem start_rd_polls (a : Byte) (c : Ectb) : (c.start (.rd a)).polls = 0 := rfl
@[simp] theorem start_rd_k (a : Byte) (c : Ectb) : (c.start (.rd a)).k = c.k := rfl
@[simp] theorem start_rd_opL (a : Byte) (c : Ectb) : (c.start (.rd a)).opL = c.opL := rfl
@[simp] theorem start_rd_raddrL (a : Byte) (c : Ectb) : (c.start (.rd a)).raddrL = c.raddrL := rfl
@[simp] theorem start_rd_rdataInL (a : Byte) (c : Ectb) : (c.start (.rd a)).rdataInL = c.rdataInL := rfl
@[simp] theorem start_rd_fidxL (a : Byte) (c : Ectb) : (c.start (.rd a)).fidxL = c.fidxL := rfl
@[simp] theorem start_rd_opndL (a : Byte) (c : Ectb) : (c.start (.rd a)).opndL = c.opndL := rfl
@[simp] theorem start_rd_descL (a : Byte) (c : Ectb) : (c.start (.rd a)).descL = c.descL := rfl
@[simp] theorem start_rd_addrL (a : Byte) (c : Ectb) : (c.start (.rd a)).addrL = a := rfl
@[simp] theorem start_rd_wdataL (a : Byte) (c : Ectb) : (c.start (.rd a)).wdataL = c.wdataL := rfl
@[simp] theorem start_rd_byte0 (a : Byte) (c : Ectb) : (c.start (.rd a)).byte0 = c.byte0 := rfl
@[simp] theorem start_rd_byte1 (a : Byte) (c : Ectb) : (c.start (.rd a)).byte1 = c.byte1 := rfl
@[simp] theorem start_rd_acqState (a : Byte) (c : Ectb) : (c.start (.rd a)).acqState = c.acqState := rfl
@[simp] theorem start_rd_rspDone (a : Byte) (c : Ectb) : (c.start (.rd a)).rspDone = c.rspDone := rfl
@[simp] theorem start_rd_rspErr (a : Byte) (c : Ectb) : (c.start (.rd a)).rspErr = c.rspErr := rfl
@[simp] theorem start_rd_rspValue (a : Byte) (c : Ectb) : (c.start (.rd a)).rspValue = c.rspValue := rfl
@[simp] theorem start_rd_rspScale (a : Byte) (c : Ectb) : (c.start (.rd a)).rspScale = c.rspScale := rfl

@[simp] theorem start_wr_fsm (a v : Byte) (c : Ectb) : (c.start (.wr a v)).fsm = .tx := rfl
@[simp] theorem start_wr_txKind (a v : Byte) (c : Ectb) : (c.start (.wr a v)).txKind = .wr := rfl
@[simp] theorem start_wr_txStage (a v : Byte) (c : Ectb) : (c.start (.wr a v)).txStage = .one := rfl
@[simp] theorem start_wr_txSub (a v : Byte) (c : Ectb) : (c.start (.wr a v)).txSub = .poll := rfl
@[simp] theorem start_wr_polls (a v : Byte) (c : Ectb) : (c.start (.wr a v)).polls = 0 := rfl
@[simp] theorem start_wr_k (a v : Byte) (c : Ectb) : (c.start (.wr a v)).k = c.k := rfl
@[simp] theorem start_wr_opL (a v : Byte) (c : Ectb) : (c.start (.wr a v)).opL = c.opL := rfl
@[simp] theorem start_wr_raddrL (a v : Byte) (c : Ectb) : (c.start (.wr a v)).raddrL = c.raddrL := rfl
@[simp] theorem start_wr_rdataInL (a v : Byte) (c : Ectb) : (c.start (.wr a v)).rdataInL = c.rdataInL := rfl
@[simp] theorem start_wr_fidxL (a v : Byte) (c : Ectb) : (c.start (.wr a v)).fidxL = c.fidxL := rfl
@[simp] theorem start_wr_opndL (a v : Byte) (c : Ectb) : (c.start (.wr a v)).opndL = c.opndL := rfl
@[simp] theorem start_wr_descL (a v : Byte) (c : Ectb) : (c.start (.wr a v)).descL = c.descL := rfl
@[simp] theorem start_wr_addrL (a v : Byte) (c : Ectb) : (c.start (.wr a v)).addrL = a := rfl
@[simp] theorem start_wr_wdataL (a v : Byte) (c : Ectb) : (c.start (.wr a v)).wdataL = v := rfl
@[simp] theorem start_wr_byte0 (a v : Byte) (c : Ectb) : (c.start (.wr a v)).byte0 = c.byte0 := rfl
@[simp] theorem start_wr_byte1 (a v : Byte) (c : Ectb) : (c.start (.wr a v)).byte1 = c.byte1 := rfl
@[simp] theorem start_wr_acqState (a v : Byte) (c : Ectb) : (c.start (.wr a v)).acqState = c.acqState := rfl
@[simp] theorem start_wr_rspDone (a v : Byte) (c : Ectb) : (c.start (.wr a v)).rspDone = c.rspDone := rfl
@[simp] theorem start_wr_rspErr (a v : Byte) (c : Ectb) : (c.start (.wr a v)).rspErr = c.rspErr := rfl
@[simp] theorem start_wr_rspValue (a v : Byte) (c : Ectb) : (c.start (.wr a v)).rspValue = c.rspValue := rfl
@[simp] theorem start_wr_rspScale (a v : Byte) (c : Ectb) : (c.start (.wr a v)).rspScale = c.rspScale := rfl

/-! ### Updates of the reference EC -/

@[simp] theorem deliver_regs (e : EcRef) (v : Byte) (isCmd : Bool) : (e.deliver v isCmd).regs = e.regs := rfl
@[simp] theorem deliver_ibf (e : EcRef) (v : Byte) (isCmd : Bool) : (e.deliver v isCmd).ibf = true := rfl
@[simp] theorem deliver_obf (e : EcRef) (v : Byte) (isCmd : Bool) : (e.deliver v isCmd).obf = e.obf := rfl
@[simp] theorem deliver_odata (e : EcRef) (v : Byte) (isCmd : Bool) : (e.deliver v isCmd).odata = e.odata := rfl
@[simp] theorem deliver_inByte (e : EcRef) (v : Byte) (isCmd : Bool) : (e.deliver v isCmd).inByte = v := rfl
@[simp] theorem deliver_inIsCmd (e : EcRef) (v : Byte) (isCmd : Bool) : (e.deliver v isCmd).inIsCmd = isCmd := rfl
@[simp] theorem deliver_phase (e : EcRef) (v : Byte) (isCmd : Bool) : (e.deliver v isCmd).phase = e.phase := rfl

@[simp] theorem takeOutput_regs (e : EcRef) : (e.takeOutput).regs = e.regs := rfl
@[simp] theorem takeOutput_ibf (e : EcRef) : (e.takeOutput).ibf = e.ibf := rfl
@[simp] theorem takeOutput_obf (e : EcRef) : (e.takeOutput).obf = false := rfl
@[simp] theorem takeOutput_odata (e : EcRef) : (e.takeOutput).odata = e.odata := rfl
@[simp] theorem takeOutput_inByte (e : EcRef) : (e.takeOutput).inByte = e.inByte := rfl
@[simp] theorem takeOutput_inIsCmd (e : EcRef) : (e.takeOutput).inIsCmd = e.inIsCmd := rfl
@[simp] theorem takeOutput_phase (e : EcRef) : (e.takeOutput).phase = e.phase := rfl

@[simp] theorem consume_regs (e : EcRef) (p : EcPhase) : (e.consume p).regs = e.regs := rfl
@[simp] theorem consume_ibf (e : EcRef) (p : EcPhase) : (e.consume p).ibf = false := rfl
@[simp] theorem consume_obf (e : EcRef) (p : EcPhase) : (e.consume p).obf = e.obf := rfl
@[simp] theorem consume_odata (e : EcRef) (p : EcPhase) : (e.consume p).odata = e.odata := rfl
@[simp] theorem consume_inByte (e : EcRef) (p : EcPhase) : (e.consume p).inByte = e.inByte := rfl
@[simp] theorem consume_inIsCmd (e : EcRef) (p : EcPhase) : (e.consume p).inIsCmd = e.inIsCmd := rfl
@[simp] theorem consume_phase (e : EcRef) (p : EcPhase) : (e.consume p).phase = p := rfl

@[simp] theorem reply_regs (e : EcRef) (b : Byte) : (e.reply b).regs = e.regs := rfl
@[simp] theorem reply_ibf (e : EcRef) (b : Byte) : (e.reply b).ibf = false := rfl
@[simp] theorem reply_obf (e : EcRef) (b : Byte) : (e.reply b).obf = true := rfl
@[simp] theorem reply_odata (e : EcRef) (b : Byte) : (e.reply b).odata = b := rfl
@[simp] theorem reply_inByte (e : EcRef) (b : Byte) : (e.reply b).inByte = e.inByte := rfl
@[simp] theorem reply_inIsCmd (e : EcRef) (b : Byte) : (e.reply b).inIsCmd = e.inIsCmd := rfl
@[simp] theorem reply_phase (e : EcRef) (b : Byte) : (e.reply b).phase = .idle := rfl

@[simp] theorem store_regs (e : EcRef) (a b : Byte) : (e.store a b).regs = e.regs.write a.toNat b := rfl
@[simp] theorem store_ibf (e : EcRef) (a b : Byte) : (e.store a b).ibf = false := rfl
@[simp] theorem store_obf (e : EcRef) (a b : Byte) : (e.store a b).obf = e.obf := rfl
@[simp] theorem store_odata (e : EcRef) (a b : Byte) : (e.store a b).odata = e.odata := rfl
@[simp] theorem store_inByte (e : EcRef) (a b : Byte) : (e.store a b).inByte = e.inByte := rfl
@[simp] theorem store_inIsCmd (e : EcRef) (a b : Byte) : (e.store a b).inIsCmd = e.inIsCmd := rfl
@[simp] theorem store_phase (e : EcRef) (a b : Byte) : (e.store a b).phase = .idle := rfl

@[simp] theorem deliver_oracle (v : Byte) (isCmd : Bool) : Ec.oracle.deliver v isCmd = .oracle := rfl
@[simp] theorem deliver_ref (e : EcRef) (v : Byte) (isCmd : Bool) :
    (Ec.ref e).deliver v isCmd = .ref (e.deliver v isCmd) := rfl
@[simp] theorem deliver_race (e : EcRef) (v : Byte) (isCmd : Bool) : (Ec.race e).deliver v isCmd = .race e := rfl
@[simp] theorem ecEndRace_oracle : Ec.oracle.endRace = .oracle := rfl
@[simp] theorem ecEndRace_ref (e : EcRef) : (Ec.ref e).endRace = .ref e := rfl
@[simp] theorem ecEndRace_race (e : EcRef) : (Ec.race e).endRace = .ref e := rfl
@[simp] theorem after_regs (r : RaceResult) (e : EcRef) : (e.after r).regs = e.regs.writeAll r.writes := rfl
@[simp] theorem after_ibf (r : RaceResult) (e : EcRef) : (e.after r).ibf = r.ibf := rfl
@[simp] theorem after_obf (r : RaceResult) (e : EcRef) : (e.after r).obf = r.obf := rfl
@[simp] theorem after_odata (r : RaceResult) (e : EcRef) : (e.after r).odata = r.odata := rfl
@[simp] theorem after_inByte (r : RaceResult) (e : EcRef) : (e.after r).inByte = r.inByte := rfl
@[simp] theorem after_inIsCmd (r : RaceResult) (e : EcRef) : (e.after r).inIsCmd = r.inIsCmd := rfl
@[simp] theorem after_phase (r : RaceResult) (e : EcRef) : (e.after r).phase = r.phase := rfl
@[simp] theorem memory_oracle : Ec.oracle.memory = [] := rfl
@[simp] theorem memory_ref (e : EcRef) : (Ec.ref e).memory = e.regs := rfl
@[simp] theorem memory_race (e : EcRef) : (Ec.race e).memory = e.regs := rfl

end Sys2Proof.Machine
end

