-- ==== Sys2Proof/Laws/Ports.lean ====
section
/-! SUPPORT. Laws/Ports.lean: everything a draw or a port read can do: which parts of the state it leaves alone, and what it
adds to the trace. -/

namespace Sys2Proof.Machine

section Draws
variable (f : Nat → Byte) (s : State)

@[simp] theorem drawByte_ectb : (s.drawByte f).2.ectb = s.ectb := by unfold State.drawByte; split <;> rfl
@[simp] theorem drawByte_ec : (s.drawByte f).2.ec = s.ec := by unfold State.drawByte; split <;> rfl
@[simp] theorem drawByte_caller : (s.drawByte f).2.caller = s.caller := by unfold State.drawByte; split <;> rfl
@[simp] theorem drawByte_params : (s.drawByte f).2.params = s.params := by unfold State.drawByte; split <;> rfl
@[simp] theorem drawByte_trace : (s.drawByte f).2.trace = s.trace := by unfold State.drawByte; split <;> rfl
@[simp] theorem drawByte_schedule : (s.drawByte f).2.env.schedule = s.env.schedule := by
  unfold State.drawByte; split <;> rfl
@[simp] theorem drawByte_grants : (s.drawByte f).2.env.grants = s.env.grants := by
  unfold State.drawByte; split <;> rfl

@[simp] theorem drawGrant_ectb : s.drawGrant.2.ectb = s.ectb := by unfold State.drawGrant; split <;> rfl
@[simp] theorem drawGrant_ec : s.drawGrant.2.ec = s.ec := by unfold State.drawGrant; split <;> rfl
@[simp] theorem drawGrant_caller : s.drawGrant.2.caller = s.caller := by unfold State.drawGrant; split <;> rfl
@[simp] theorem drawGrant_params : s.drawGrant.2.params = s.params := by unfold State.drawGrant; split <;> rfl
@[simp] theorem drawGrant_trace : s.drawGrant.2.trace = s.trace := by unfold State.drawGrant; split <;> rfl
@[simp] theorem drawGrant_schedule : s.drawGrant.2.env.schedule = s.env.schedule := by
  unfold State.drawGrant; split <;> rfl
@[simp] theorem drawGrant_answers : s.drawGrant.2.env.answers = s.env.answers := by
  unfold State.drawGrant; split <;> rfl

@[simp] theorem drawRace_ectb : s.drawRace.2.ectb = s.ectb := by unfold State.drawRace; split <;> rfl
@[simp] theorem drawRace_ec : s.drawRace.2.ec = s.ec := by unfold State.drawRace; split <;> rfl
@[simp] theorem drawRace_caller : s.drawRace.2.caller = s.caller := by unfold State.drawRace; split <;> rfl
@[simp] theorem drawRace_params : s.drawRace.2.params = s.params := by unfold State.drawRace; split <;> rfl
@[simp] theorem drawRace_trace : s.drawRace.2.trace = s.trace := by unfold State.drawRace; split <;> rfl
@[simp] theorem drawRace_schedule : s.drawRace.2.env.schedule = s.env.schedule := by
  unfold State.drawRace; split <;> rfl
@[simp] theorem drawRace_answers : s.drawRace.2.env.answers = s.env.answers := by
  unfold State.drawRace; split <;> rfl
@[simp] theorem drawRace_grants : s.drawRace.2.env.grants = s.env.grants := by
  unfold State.drawRace; split <;> rfl

@[simp] theorem drawByte_races : (s.drawByte f).2.env.races = s.env.races := by
  unfold State.drawByte; split <;> rfl
@[simp] theorem drawGrant_races : s.drawGrant.2.env.races = s.env.races := by
  unfold State.drawGrant; split <;> rfl

end Draws

section Reads
variable (s : State)

@[simp] theorem readStatus_ectb : (readStatus s).2.ectb = s.ectb := by unfold readStatus; split <;> simp [drawStatus]
@[simp] theorem readStatus_ec : (readStatus s).2.ec = s.ec := by unfold readStatus; split <;> simp [drawStatus]
@[simp] theorem readStatus_caller : (readStatus s).2.caller = s.caller := by unfold readStatus; split <;> simp [drawStatus]
@[simp] theorem readStatus_params : (readStatus s).2.params = s.params := by unfold readStatus; split <;> simp [drawStatus]
@[simp] theorem readStatus_schedule : (readStatus s).2.env.schedule = s.env.schedule := by
  unfold readStatus; split <;> simp [drawStatus]
@[simp] theorem readStatus_races : (readStatus s).2.env.races = s.env.races := by
  unfold readStatus; split <;> simp [drawStatus]
@[simp] theorem readStatus_trace : (readStatus s).2.trace = .readStatus (readStatus s).1 :: s.trace := by
  unfold readStatus; split <;> simp [drawStatus]

@[simp] theorem readData_ectb : (readData s).2.ectb = s.ectb := by unfold readData; split <;> simp [drawData]
@[simp] theorem readData_caller : (readData s).2.caller = s.caller := by unfold readData; split <;> simp [drawData]
@[simp] theorem readData_params : (readData s).2.params = s.params := by unfold readData; split <;> simp [drawData]
@[simp] theorem readData_schedule : (readData s).2.env.schedule = s.env.schedule := by
  unfold readData; split <;> simp [drawData]
@[simp] theorem readData_races : (readData s).2.env.races = s.env.races := by
  unfold readData; split <;> simp [drawData]
@[simp] theorem readData_trace : (readData s).2.trace = .readData (readData s).1 :: s.trace := by
  unfold readData; split <;> simp [drawData]

/-- A data read leaves every EC register as it was. -/
@[simp] theorem readData_memory : (readData s).2.ec.memory = s.ec.memory := by
  unfold readData; split <;> simp [drawData, *]

/-- A data read takes the reference EC's output byte and changes nothing of any other EC. -/
theorem readData_ec : (readData s).2.ec = match s.ec with
    | .oracle => .oracle
    | .ref e => .ref e.takeOutput
    | .race e => .race e := by
  unfold readData; split <;> simp [drawData, *]

/-- The status the reference EC answers a poll with. -/
theorem readStatus_ref {e : EcRef} (h : s.ec = .ref e) : readStatus s = (e.status, s.log (.readStatus e.status)) := by
  simp [readStatus, h]

/-- The output byte the reference EC answers a data read with. -/
theorem readData_ref {e : EcRef} (h : s.ec = .ref e) :
    readData s = (e.odata, (s.setEc (.ref e.takeOutput)).log (.readData e.odata)) := by
  simp [readData, h]

end Reads

/-- A byte handed to the EC changes no EC register. -/
@[simp] theorem deliver_memory (e : Ec) (v : Byte) (isCmd : Bool) : (e.deliver v isCmd).memory = e.memory := by
  cases e <;> rfl

/-- The end of a race changes no EC register the model knows. -/
@[simp] theorem endRace_memory (e : Ec) : e.endRace.memory = e.memory := by cases e <;> rfl

@[simp] theorem endRace_ecReg (s : State) (a : Byte) : s.endRace.ecReg a = s.ecReg a := by
  simp [State.ecReg]

@[simp] theorem setEc_ecReg (s : State) (e : Ec) (a : Byte) : (s.setEc e).ecReg a = e.memory.read a.toNat := rfl

@[simp] theorem onEctb_ecReg (s : State) (f : Ectb → Ectb) (a : Byte) : (s.onEctb f).ecReg a = s.ecReg a := rfl

@[simp] theorem obf_statusByte (i o : Bool) : obf (statusByte i o) = o := by cases i <;> cases o <;> rfl

@[simp] theorem ibf_statusByte (i o : Bool) : ibf (statusByte i o) = i := by cases i <;> cases o <;> rfl

end Sys2Proof.Machine
end

