-- ==== Sys2Proof/Laws/Ops.lean ====
section
/-! SUPPORT. Laws/Ops.lean: for each shared operation of Machine/Ops.lean and each agent, one lemma that says everything it
can do. Provers cite these instead of unfolding the operations. -/

namespace Sys2Proof.Machine

/-- A request's ACCEPT step, by instruction; a command byte has none. -/
def acceptOf (i : Instr) (s : State) : State :=
  match i with
  | .rdreg addr => acceptTransport opRdreg addr 0 s
  | .wrreg addr value => acceptTransport opWrreg addr value s
  | .getb fidx => acceptField opGetb fidx 0 s
  | .geti fidx => acceptField opGeti fidx 0 s
  | .setb fidx value => acceptField opSetb fidx (boolOperand value) s
  | .togl fidx => acceptField opTogl fidx 0 s
  | .setl fidx n => acceptField opSetl fidx n s
  | .ecReadCmd => s
  | .ecWriteCmd => s

/-- Every request's meaning is the shared step over its own ACCEPT and plan. -/
theorem exec_request {i : Instr} (h : isRequest i = true) (s : State) :
    exec i s = requestStep (acceptOf i) (planOf i) s := by
  cases i <;> first | rfl | simp [isRequest] at h

/-- Only a request can be in progress. -/
theorem current_isRequest {c : Ectb} {i : Instr} (h : c.current = some i) : isRequest i = true := by
  unfold Ectb.current at h
  split at h <;> first | (cases h; rfl) | cases h

section Steps
variable {i : Instr} {s : State}

theorem exec_idle (h : isRequest i = true) (hf : s.ectb.fsm = .idle) : exec i s = .next (acceptOf i s) := by
  simp [exec_request h, requestStep, hf]

theorem exec_acq (h : isRequest i = true) (hf : s.ectb.fsm = .acq) : exec i s = .next (acqStep s) := by
  simp [exec_request h, requestStep, hf]

theorem exec_seq (h : isRequest i = true) (hf : s.ectb.fsm = .seq) {p : Plan} (hp : planOf i s.ectb = some p) :
    exec i s = .next (s.onEctb (Ectb.sequence p)) := by
  simp [exec_request h, requestStep, hf, seqStep, hp]

theorem exec_poll (h : isRequest i = true) (hf : s.ectb.fsm = .tx) (hs : s.ectb.txSub = .poll) :
    exec i s = .next (pollStep s) := by
  simp [exec_request h, requestStep, hf, txStep, hs]

theorem exec_act (h : isRequest i = true) (hf : s.ectb.fsm = .tx) (hs : s.ectb.txSub = .act) :
    exec i s = actStep s := by
  simp [exec_request h, requestStep, hf, txStep, hs]

theorem exec_failed (h : isRequest i = true) (hf : s.ectb.fsm = .failed) : exec i s = .next s := by
  simp [exec_request h, requestStep, hf]

/-- Everything a request's step can do when it answers a next state. -/
theorem exec_request_cases (h : isRequest i = true) {t : State} (ht : exec i s = .next t) :
    (s.ectb.fsm = .idle ∧ t = acceptOf i s) ∨
    (s.ectb.fsm = .acq ∧ t = acqStep s) ∨
    (∃ p, s.ectb.fsm = .seq ∧ planOf i s.ectb = some p ∧ t = s.onEctb (Ectb.sequence p)) ∨
    (s.ectb.fsm = .tx ∧ s.ectb.txSub = .poll ∧ t = pollStep s) ∨
    (s.ectb.fsm = .tx ∧ s.ectb.txSub = .act ∧ actStep s = .next t) ∨
    (s.ectb.fsm = .failed ∧ t = s) := by
  cases hf : s.ectb.fsm with
  | idle => rw [exec_idle h hf] at ht; cases ht; simp
  | acq => rw [exec_acq h hf] at ht; cases ht; simp
  | seq =>
    cases hp : planOf i s.ectb with
    | none => simp [exec_request h, requestStep, hf, seqStep, hp] at ht
    | some p => rw [exec_seq h hf hp] at ht; cases ht; simp
  | tx =>
    cases hs : s.ectb.txSub with
    | poll => rw [exec_poll h hf hs] at ht; cases ht; simp
    | act => rw [exec_act h hf hs] at ht; simp [ht]
  | failed => rw [exec_failed h hf] at ht; cases ht; simp

end Steps

/-- What ACCEPT leaves alone: everything but ECTB's registers and `REQ_VALID`. -/
theorem acceptOf_frame (i : Instr) (s : State) :
    (acceptOf i s).ec = s.ec ∧ (acceptOf i s).env = s.env ∧ (acceptOf i s).params = s.params ∧
      (acceptOf i s).trace = s.trace := by
  cases i <;> exact ⟨rfl, rfl, rfl, rfl⟩

/-- What the access of a stage can be (R132, R137, R138): one row of the handshake table each. -/
theorem actStep_cases {s t : State} (h : actStep s = .next t) :
    (s.ectb.txKind = .rd ∧ s.ectb.txStage = .one ∧
      t = (writeCommand Config.cmdRead s).onEctb (Ectb.nextStage .two)) ∨
    (s.ectb.txKind = .wr ∧ s.ectb.txStage = .one ∧
      t = (writeCommand Config.cmdWrite s).onEctb (Ectb.nextStage .two)) ∨
    (s.ectb.txStage = .two ∧ t = (writeData s.ectb.addrL s).onEctb (Ectb.nextStage .three)) ∨
    (s.ectb.txKind = .rd ∧ s.ectb.txStage = .three ∧ s.ectb.k = 0 ∧
      t = ((readData s).2.onEctb (fun c => Ectb.endTx { c with byte0 := (readData s).1 })).endRace) ∨
    (s.ectb.txKind = .rd ∧ s.ectb.txStage = .three ∧ s.ectb.k = 1 ∧
      t = ((readData s).2.onEctb (fun c => Ectb.endTx { c with byte1 := (readData s).1 })).endRace) ∨
    (s.ectb.txKind = .wr ∧ s.ectb.txStage = .three ∧
      t = ((writeData s.ectb.wdataL s).onEctb Ectb.endTx).endRace) := by
  unfold actStep at h
  split at h
  · cases h; simp_all
  · cases h; simp_all
  · split at h
    · cases h; simp_all
    · cases h; simp_all
    · cases h
  · cases h; simp_all
  · cases h; simp_all
  · cases h; simp_all

/-- The access of a stage fails to answer only for a read with index 2 or more. -/
theorem actStep_next {s : State} (h : s.ectb.txKind = .rd → s.ectb.k < 2) : ∃ t, actStep s = .next t := by
  unfold actStep
  split
  · exact ⟨_, rfl⟩
  · exact ⟨_, rfl⟩
  · rename_i hk _
    have hk2 : s.ectb.k = 0 ∨ s.ectb.k = 1 := by have := h hk; omega
    rcases hk2 with e | e <;> (rw [e]; exact ⟨_, rfl⟩)
  · exact ⟨_, rfl⟩
  · exact ⟨_, rfl⟩
  · exact ⟨_, rfl⟩

/-- The three ends of a poll (R133). -/
theorem polled_cases (lim : PollLimit) (st : Byte) (c : Ectb) :
    (waitHolds c.txKind c.txStage st = true ∧
      c.polled lim st = { c with polls := c.polls + 1, txSub := .act }) ∨
    (waitHolds c.txKind c.txStage st = false ∧ pollLimitReached lim (c.polls + 1) = true ∧
      c.polled lim st = Ectb.finishError .protocolStall { c with polls := c.polls + 1 }) ∨
    (waitHolds c.txKind c.txStage st = false ∧ pollLimitReached lim (c.polls + 1) = false ∧
      c.polled lim st = { c with polls := c.polls + 1 }) := by
  unfold Ectb.polled
  by_cases h1 : waitHolds c.txKind c.txStage st = true
  · simp [h1]
  · by_cases h2 : pollLimitReached lim (c.polls + 1) = true
    · simp [h1, h2]
    · simp [h1, h2]

@[simp] theorem settleRace_ectb (s : State) : s.settleRace.ectb = s.ectb := by
  unfold State.settleRace; split <;> rfl
@[simp] theorem settleRace_caller (s : State) : s.settleRace.caller = s.caller := by
  unfold State.settleRace; split <;> rfl
@[simp] theorem settleRace_env (s : State) : s.settleRace.env = s.env := by
  unfold State.settleRace; split <;> rfl
@[simp] theorem settleRace_params (s : State) : s.settleRace.params = s.params := by
  unfold State.settleRace; split <;> rfl
@[simp] theorem settleRace_trace (s : State) : s.settleRace.trace = s.trace := by
  unfold State.settleRace; split <;> rfl
/-- Whether a race is over changes no EC register the model knows. -/
@[simp] theorem settleRace_memory (s : State) : s.settleRace.ec.memory = s.ec.memory := by
  unfold State.settleRace; split <;> simp
/-- The EC after a poll: as it was, unless the transaction is no longer under way and a race with it is over. -/
theorem settleRace_ec (s : State) : s.settleRace.ec = if s.ectb.txOpen then s.ec else s.ec.endRace := by
  unfold State.settleRace; split <;> rfl

/-- A move scheduled first is the move the step makes, with the rest of the schedule left. -/
@[simp] theorem step_scheduled_cons (e : Event) (es : List Event) (s : State) :
    step (s.scheduled (e :: es)) = moveOf e (s.scheduled es) := rfl

@[simp] theorem scheduled_nil (s : State) : s.scheduled [] = s := rfl

/-- A move of a known next agent. -/
theorem step_of_schedule {s : State} {e : Event} {es : List Event} (h : s.env.schedule = e :: es) :
    step s = moveOf e { s with env := { s.env with schedule := es } } := by
  simp [step, State.nextEvent, h]

/-- What taking the next move from the schedule leaves alone. -/
theorem nextEvent_frame (s : State) :
    s.nextEvent.2.ectb = s.ectb ∧ s.nextEvent.2.ec = s.ec ∧ s.nextEvent.2.caller = s.caller ∧
      s.nextEvent.2.params = s.params ∧ s.nextEvent.2.trace = s.trace := by
  unfold State.nextEvent
  split <;> exact ⟨rfl, rfl, rfl, rfl, rfl⟩

end Sys2Proof.Machine
end

