-- ==== Sys2Proof/Laws/PerInstr.lean ====
section
/-! SUPPORT. Laws/PerInstr.lean: one lemma per instruction. Family `OpcodeMap`: the word the encoder gives a request matches
its row of R98, and a command byte is one of the two of R91 and has no row. -/

namespace Sys2Proof.Laws.OpcodeMap

/-- The word of an instruction against the opcode map. -/
def Statement (i : Instr) : Prop :=
  match encode i with
  | .request q => ∃ r, opcodeRow i = some r ∧ r.spells q = true
  | .command c => opcodeRow i = none ∧ (c = 0x80 ∨ c = 0x81)

/-- A format T word against a row, bit by bit. -/
theorem formatT_and (op : BitVec 4) (addr : Half) (data : Byte) (mask value : ReqWord)
    (h : ∀ i, i < 32 → ((if i < 8 then data.getLsbD i else if i < 24 then addr.getLsbD (i - 8)
      else if i < 28 then false else op.getLsbD (i - 28)) && mask.getLsbD i) = value.getLsbD i) :
    Req.formatT op addr data &&& mask = value := by
  apply BitVec.eq_of_getLsbD_eq
  intro i hi
  rw [BitVec.getLsbD_and, getLsbD_formatT]
  exact h i hi

/-- A format F word against a row, bit by bit. -/
theorem formatF_and (op : BitVec 4) (fidx : Byte) (opnd : Half) (mask value : ReqWord)
    (h : ∀ i, i < 32 → ((if i < 16 then opnd.getLsbD i else if i < 24 then fidx.getLsbD (i - 16)
      else if i < 28 then false else op.getLsbD (i - 28)) && mask.getLsbD i) = value.getLsbD i) :
    Req.formatF op fidx opnd &&& mask = value := by
  apply BitVec.eq_of_getLsbD_eq
  intro i hi
  rw [BitVec.getLsbD_and, getLsbD_formatF]
  exact h i hi

theorem rdreg (addr : Half) : Statement (.rdreg addr) := by
  refine ⟨_, rfl, beq_iff_eq.mpr (formatT_and _ _ _ _ _ ?_)⟩
  intro i hi
  interval_cases i <;> simp [opRdreg]

theorem wrreg (addr : Half) (value : Byte) : Statement (.wrreg addr value) := by
  refine ⟨_, rfl, beq_iff_eq.mpr (formatT_and _ _ _ _ _ ?_)⟩
  intro i hi
  interval_cases i <;> simp [opWrreg]

theorem getb (fidx : Byte) : Statement (.getb fidx) := by
  refine ⟨_, rfl, beq_iff_eq.mpr (formatF_and _ _ _ _ _ ?_)⟩
  intro i hi
  interval_cases i <;> simp [opGetb]

theorem geti (fidx : Byte) : Statement (.geti fidx) := by
  refine ⟨_, rfl, beq_iff_eq.mpr (formatF_and _ _ _ _ _ ?_)⟩
  intro i hi
  interval_cases i <;> simp [opGeti]

theorem setb (fidx : Byte) (value : Bool) : Statement (.setb fidx value) := by
  refine ⟨_, rfl, beq_iff_eq.mpr (formatF_and _ _ _ _ _ ?_)⟩
  intro i hi
  cases value <;> interval_cases i <;> simp [opSetb, boolOperand]

theorem togl (fidx : Byte) : Statement (.togl fidx) := by
  refine ⟨_, rfl, beq_iff_eq.mpr (formatF_and _ _ _ _ _ ?_)⟩
  intro i hi
  interval_cases i <;> simp [opTogl]

theorem setl (fidx : Byte) (n : Half) : Statement (.setl fidx n) := by
  refine ⟨_, rfl, beq_iff_eq.mpr (formatF_and _ _ _ _ _ ?_)⟩
  intro i hi
  interval_cases i <;> simp [opSetl]

theorem ecReadCmd : Statement .ecReadCmd := ⟨rfl, .inl rfl⟩

theorem ecWriteCmd : Statement .ecWriteCmd := ⟨rfl, .inr rfl⟩

end Sys2Proof.Laws.OpcodeMap
end

