-- ==== Sys2Proof/Laws/Request.lean ====
section
/-! SUPPORT. Laws/Request.lean: what a request's list and checks depend on: the request latches, and for a list's entries the
two result bytes. -/

namespace Sys2Proof.Machine

section Congruence
variable {c d : Ectb}

/-- The request in progress depends on the request latches alone. -/
theorem current_congr (h1 : d.opL = c.opL) (h2 : d.raddrL = c.raddrL) (h3 : d.rdataInL = c.rdataInL)
    (h4 : d.fidxL = c.fidxL) (h5 : d.opndL = c.opndL) : d.current = c.current := by
  simp [Ectb.current, Ectb.boolOperand, *]

/-- ACCEPT's checks depend on the request latches and the descriptor alone. -/
theorem accepted_congr (h1 : d.opL = c.opL) (h2 : d.raddrL = c.raddrL) (h3 : d.rdataInL = c.rdataInL)
    (h4 : d.fidxL = c.fidxL) (h5 : d.opndL = c.opndL) (h6 : d.descL = c.descL) : d.accepted = c.accepted := by
  simp [Ectb.accepted, current_congr h1 h2 h3 h4 h5, h6, h1]

/-- The list depends on the request latches, the descriptor and the result bytes alone. -/
theorem txs_congr (h1 : d.opL = c.opL) (h2 : d.raddrL = c.raddrL) (h3 : d.rdataInL = c.rdataInL)
    (h4 : d.fidxL = c.fidxL) (h5 : d.opndL = c.opndL) (h6 : d.descL = c.descL) (h7 : d.byte0 = c.byte0)
    (h8 : d.byte1 = c.byte1) : d.txs = c.txs := by
  have h : d.plan = c.plan := by
    simp only [Ectb.plan, current_congr h1 h2 h3 h4 h5]
    congr 1
    funext i
    cases i <;>
      simp [planOf, rdregPlan, wrregPlan, getbPlan, getiPlan, setbPlan, toglPlan, setlPlan, Ectb.txAddr,
        byteFieldPlan, wordFieldPlan, Ectb.boolOperand, *]
  simp [Ectb.txs, h]

/-- The length of the list does not depend on the result bytes. -/
theorem txs_length_congr (h1 : d.opL = c.opL) (h2 : d.raddrL = c.raddrL) (h3 : d.rdataInL = c.rdataInL)
    (h4 : d.fidxL = c.fidxL) (h5 : d.opndL = c.opndL) (h6 : d.descL = c.descL) : d.txs.length = c.txs.length := by
  simp only [Ectb.txs, Ectb.plan, current_congr h1 h2 h3 h4 h5]
  cases c.current with
  | none => rfl
  | some i =>
    cases i with
    | geti f =>
      simp only [Option.bind_some, planOf, getiPlan, h6]
      split <;> rename_i hk <;> revert hk <;> split <;> intro hk <;> cases hk <;> rfl
    | _ => rfl

end Congruence

/-- A list has at most three entries. -/
theorem txs_length_le (c : Ectb) : c.txs.length ≤ 3 := by
  simp only [Ectb.txs, Ectb.plan]
  cases c.current with
  | none => simp
  | some i =>
    cases i with
    | geti f =>
      simp only [Option.bind_some, planOf, getiPlan]
      cases Desc.kind c.descL <;> simp [byteFieldPlan, wordFieldPlan]
    | _ => simp [planOf, rdregPlan, wrregPlan, getbPlan, setbPlan, toglPlan, setlPlan]

/-- A list's reads stand in its first two places, so each has its byte latch (R137). -/
theorem txs_read_lt {c : Ectb} {k : Nat} {a : Byte} (h : c.txs[k]? = some (.rd a)) : k < 2 := by
  by_contra hk
  obtain ⟨n, rfl⟩ : ∃ n, k = n + 2 := ⟨k - 2, by omega⟩
  simp only [Ectb.txs, Ectb.plan] at h
  cases hc : c.current with
  | none => simp [hc] at h
  | some i =>
    cases i <;> simp [hc, planOf, rdregPlan, wrregPlan, getbPlan, setbPlan, toglPlan, setlPlan] at h
    · unfold getiPlan at h
      cases hd : Desc.kind c.descL <;> simp [hd, byteFieldPlan, wordFieldPlan] at h
    · cases n <;> simp at h

/-- An accepted request has its list and result. -/
theorem plan_of_accepted {c : Ectb} (h : c.accepted = true) : ∃ i p, c.current = some i ∧ planOf i c = some p := by
  unfold Ectb.accepted at h
  cases hc : c.current with
  | none => simp [hc] at h
  | some i =>
    simp only [hc] at h
    cases i with
    | geti f =>
      have ho : c.opL.toNat = 4 := by
        unfold Ectb.current at hc
        split at hc <;> simp_all
      simp only [kindOk, ho, Bool.and_eq_true] at h
      refine ⟨.geti f, ?_⟩
      cases hd : Desc.kind c.descL <;> simp [hd] at h <;> simp [planOf, getiPlan, hd]
    | ecReadCmd => simp at h
    | ecWriteCmd => simp at h
    | _ => exact ⟨_, _, rfl, rfl⟩

/-- A request that passes ACCEPT is within a request with its first transaction next, in `ACQ` without permission and in `SEQ`
with it. -/
theorem acceptOf_accepted {i : Instr} {s : State} (hi : isRequest i = true) (h : (acceptOf i s).ectb.fsm ≠ .idle) :
    (acceptOf i s).ectb.inRequest = true ∧ (acceptOf i s).ectb.k = 0 ∧
      (acceptOf i s).ectb.fsm = if s.ectb.acqState = .none then .acq else .seq := by
  cases i <;> simp [isRequest] at hi <;>
    simp only [acceptOf, acceptTransport, acceptField, onEctb_ectb, takeRequest_ectb, Ectb.acceptTransport,
      Ectb.acceptField] at h ⊢
  all_goals
    repeat' split at h
    all_goals first | (simp [Ectb.finishError] at h; done) | skip
    all_goals refine ⟨?_, ?_, ?_⟩
    all_goals simp_all [Ectb.beginRequest, Ectb.acceptOp, Ectb.inRequest, Ectb.accepted, Ectb.current]
    all_goals try simp [opRdreg, opWrreg, opGetb, opGeti, opSetb, opTogl, opSetl] at *
    all_goals try simp_all
    all_goals (cases s.ectb.acqState <;> rfl)

/-- ACCEPT leaves permission alone. -/
theorem acceptOf_acqState (i : Instr) (s : State) : (acceptOf i s).ectb.acqState = s.ectb.acqState := by
  cases i <;>
    simp [acceptOf, acceptTransport, acceptField, State.takeRequest, Ectb.acceptTransport, Ectb.acceptField,
      Ectb.acceptOp, Ectb.finishError, Ectb.beginRequest] <;> (repeat' split) <;> simp

end Sys2Proof.Machine
end

