-- ==== Sys2Proof/Laws/Step.lean ====
section
/-! SUPPORT. Laws/Step.lean: everything one step of each agent can do, said once. -/

namespace Sys2Proof.Machine

/-- A word of the request interface decodes to a request, never to a command byte. -/
theorem decodeRequest_isRequest {q : ReqWord} {i : Instr} (h : decode (.request q) = .ok i) : isRequest i = true := by
  simp only [decode, decodeRequest] at h
  repeat' split at h
  all_goals first | (cases h; rfl) | cases h

/-- A word of the command port decodes to one of the two command bytes. -/
theorem decodeCommand_cases {c : Byte} {i : Instr} (h : decode (.command c) = .ok i) :
    (c = Config.cmdRead ∧ i = .ecReadCmd) ∨ (c = Config.cmdWrite ∧ i = .ecWriteCmd) := by
  simp only [decode, decodeCommand] at h
  split at h
  · cases h; exact .inl ⟨‹_›, rfl⟩
  · split at h
    · cases h; exact .inr ⟨‹_›, rfl⟩
    · cases h

/-- Everything a move of ECTB can do when it answers a next state: nothing is presented, the ACCEPT of a word that decodes to
nothing, the ACCEPT of a request, the ACQ step, the SEQ step, a poll, an access, or no move in `FAILED`. -/
theorem ectbStep_cases {s t : State} (h : ectbStep s = .next t) :
    (s.ectb.fsm = .idle ∧ s.caller.reqValid = false ∧ t = s) ∨
    (s.ectb.fsm = .idle ∧ s.caller.reqValid = true ∧ t = acceptInvalid s.caller.reqWord s) ∨
    (∃ i, s.ectb.fsm = .idle ∧ s.caller.reqValid = true ∧ decode (.request s.caller.reqWord) = .ok i ∧
      isRequest i = true ∧ t = acceptOf i s) ∨
    (∃ i, s.ectb.fsm = .acq ∧ s.ectb.current = some i ∧ t = acqStep s) ∨
    (∃ i p, s.ectb.fsm = .seq ∧ s.ectb.current = some i ∧ planOf i s.ectb = some p ∧
      t = s.onEctb (Ectb.sequence p)) ∨
    (∃ i, s.ectb.fsm = .tx ∧ s.ectb.txSub = .poll ∧ s.ectb.current = some i ∧ t = pollStep s) ∨
    (∃ i, s.ectb.fsm = .tx ∧ s.ectb.txSub = .act ∧ s.ectb.current = some i ∧ actStep s = .next t) ∨
    (s.ectb.fsm = .failed ∧ t = s) := by
  have request : ∀ i, s.ectb.fsm ≠ .idle → s.ectb.fsm ≠ .failed → s.ectb.current = some i → exec i s = .next t →
      (∃ i, s.ectb.fsm = .acq ∧ s.ectb.current = some i ∧ t = acqStep s) ∨
      (∃ i p, s.ectb.fsm = .seq ∧ s.ectb.current = some i ∧ planOf i s.ectb = some p ∧
        t = s.onEctb (Ectb.sequence p)) ∨
      (∃ i, s.ectb.fsm = .tx ∧ s.ectb.txSub = .poll ∧ s.ectb.current = some i ∧ t = pollStep s) ∨
      (∃ i, s.ectb.fsm = .tx ∧ s.ectb.txSub = .act ∧ s.ectb.current = some i ∧ actStep s = .next t) := by
    intro i h1 h2 hc he
    rcases exec_request_cases (current_isRequest hc) he with
      ⟨hf, -⟩ | ⟨hf, rfl⟩ | ⟨p, hf, hp, rfl⟩ | ⟨hf, hs, rfl⟩ | ⟨hf, hs, ha⟩ | ⟨hf, -⟩
    · exact absurd hf h1
    · exact .inl ⟨i, hf, hc, rfl⟩
    · exact .inr (.inl ⟨i, p, hf, hc, hp, rfl⟩)
    · exact .inr (.inr (.inl ⟨i, hf, hs, hc, rfl⟩))
    · exact .inr (.inr (.inr ⟨i, hf, hs, hc, ha⟩))
    · exact absurd hf h2
  unfold ectbStep at h
  cases hf : s.ectb.fsm with
  | idle =>
    simp only [hf, fetchRequest] at h
    by_cases hv : s.caller.reqValid = true
    · rw [if_pos hv] at h
      cases hd : decode (.request s.caller.reqWord) with
      | ok i =>
        simp only [hd] at h
        rw [exec_idle (decodeRequest_isRequest hd) hf] at h
        cases h
        exact .inr (.inr (.inl ⟨i, rfl, hv, rfl, decodeRequest_isRequest hd, rfl⟩))
      | error e => simp only [hd] at h; cases h; exact .inr (.inl ⟨rfl, hv, rfl⟩)
    · rw [if_neg hv] at h
      cases h
      exact .inl ⟨rfl, by simpa using hv, rfl⟩
  | failed => simp only [hf] at h; cases h; simp
  | _ =>
    simp only [hf, continueRequest] at h
    cases hc : s.ectb.current with
    | none => simp [hc] at h
    | some i =>
      simp only [hc] at h
      have := request i (by simp [hf]) (by simp [hf]) hc h
      simp only [hf, hc] at this
      simp_all

/-- A transaction under way is one ECTB is in. -/
theorem txOpen_fsm {c : Ectb} (h : c.txOpen = true) : c.fsm = .tx := by
  simp only [Ectb.txOpen, Bool.and_eq_true, beq_iff_eq] at h
  exact h.1

@[simp] theorem inRace_deliver (e : Ec) (v : Byte) (isCmd : Bool) : (e.deliver v isCmd).inRace = e.inRace := by
  cases e <;> rfl

@[simp] theorem inRace_endRace (e : Ec) : e.endRace.inRace = false := by cases e <;> rfl

/-- The EC after a move of ECTB: as it was outside `TX`; in `TX` as it was, or with a byte handed to it, while the transaction
goes on; and with any race over when the transaction is, after a stall, a write's last access or a read's. -/
theorem ectbStep_ec {s t : State} (h : ectbStep s = .next t) :
    (s.ectb.fsm ≠ .tx ∧ t.ec = s.ec) ∨
    (s.ectb.fsm = .tx ∧ t.ectb.txOpen = true ∧ (t.ec = s.ec ∨ ∃ v isCmd, t.ec = s.ec.deliver v isCmd)) ∨
    (s.ectb.fsm = .tx ∧ t.ectb.txOpen = false ∧
      (t.ec = s.ec.endRace ∨ (∃ v, t.ec = (s.ec.deliver v false).endRace) ∨ t.ec = (readData s).2.ec.endRace)) := by
  rcases ectbStep_cases h with ⟨hf, -, rfl⟩ | ⟨hf, -, rfl⟩ | ⟨i, hf, -, -, -, rfl⟩ | ⟨i, hf, -, rfl⟩ |
    ⟨i, p, hf, -, -, rfl⟩ | ⟨i, hf, hs, -, rfl⟩ | ⟨i, hf, hs, -, ha⟩ | ⟨hf, rfl⟩
  · simp [hf]
  · simp [hf, acceptInvalid]
  · simp [hf, (acceptOf_frame i s).1]
  · simp [hf, acqStep]
  · simp [hf]
  · right
    rcases polled_cases s.params.pollLimit (readStatus s).1 s.ectb with ⟨-, h⟩ | ⟨-, -, h⟩ | ⟨-, -, h⟩ <;>
      simp [pollStep, settleRace_ec, h, hf, hs, Ectb.txOpen]
  · right
    rcases actStep_cases ha with ⟨-, -, rfl⟩ | ⟨-, -, rfl⟩ | ⟨-, rfl⟩ | ⟨-, -, -, rfl⟩ | ⟨-, -, -, rfl⟩ | ⟨-, -, rfl⟩
    · exact .inl ⟨hf, by simp [hf, Ectb.txOpen], .inr ⟨_, _, rfl⟩⟩
    · exact .inl ⟨hf, by simp [hf, Ectb.txOpen], .inr ⟨_, _, rfl⟩⟩
    · exact .inl ⟨hf, by simp [hf, Ectb.txOpen], .inr ⟨_, _, rfl⟩⟩
    · exact .inr ⟨hf, by simp [Ectb.endTx, Ectb.txOpen], .inr (.inr rfl)⟩
    · exact .inr ⟨hf, by simp [Ectb.endTx, Ectb.txOpen], .inr (.inr rfl)⟩
    · exact .inr ⟨hf, by simp [Ectb.endTx, Ectb.txOpen], .inr (.inl ⟨_, rfl⟩)⟩
  · simp [hf]

/-- Everything a move of the EC can do: nothing while no byte waits; a command byte begins a transaction; a data byte is taken
in its role; and a byte in no role leaves the EC under no law (R65). -/
theorem ecStep_cases {s t : State} (h : ecStep s = .next t) :
    t = s ∨
    ∃ e, s.ec = .ref e ∧ e.ibf = true ∧
      ((e.inIsCmd = true ∧ e.inByte = Config.cmdRead ∧ t = s.setEc (.ref (e.consume .rdAddr))) ∨
       (e.inIsCmd = true ∧ e.inByte = Config.cmdWrite ∧ t = s.setEc (.ref (e.consume .wrAddr))) ∨
       t = s.setEc .oracle ∨
       (e.inIsCmd = false ∧ e.phase = .rdAddr ∧ t = ecAnswer e s) ∨
       (e.inIsCmd = false ∧ e.phase = .wrAddr ∧ t = s.setEc (.ref (e.consume (.wrData e.inByte)))) ∨
       ∃ a, e.inIsCmd = false ∧ e.phase = .wrData a ∧ t = s.setEc (.ref (e.store a e.inByte))) := by
  unfold ecStep at h
  split at h
  · cases h; exact .inl rfl
  · cases h; exact .inl rfl
  · rename_i e he
    split at h
    · rename_i hb
      refine .inr ⟨e, he, hb, ?_⟩
      split at h
      · rename_i hc
        cases hd : decode (.command e.inByte) with
        | ok i =>
          simp only [hd] at h
          rcases decodeCommand_cases hd with ⟨hi, rfl⟩ | ⟨hi, rfl⟩
          · simp only [exec, execEcReadCmd, beginPhase, he] at h
            cases h; exact .inl ⟨hc, hi, rfl⟩
          · simp only [exec, execEcWriteCmd, beginPhase, he] at h
            cases h; exact .inr (.inl ⟨hc, hi, rfl⟩)
        | error _ => simp only [hd] at h; cases h; exact .inr (.inr (.inl rfl))
      · rename_i hc
        have hc : e.inIsCmd = false := by simpa using hc
        cases h
        unfold ecDataByte
        split
        · simp
        · simp_all
        · simp_all
        · simp_all
    · cases h; exact .inl rfl

/-- What the EC's answer to a read's address can be: the byte listed there, or a draw. Neither touches a register. -/
theorem ecAnswer_frame (e : EcRef) (s : State) :
    (ecAnswer e s).ectb = s.ectb ∧ (ecAnswer e s).caller = s.caller ∧ (ecAnswer e s).params = s.params ∧
      (ecAnswer e s).trace = s.trace ∧ (ecAnswer e s).ec.memory = e.regs := by
  unfold ecAnswer
  split <;> simp [Ec.memory, EcRef.reply, EcRef.consume]

/-- The EC's move changes nothing but the EC and the environment's answers. -/
theorem ecStep_frame {s t : State} (h : ecStep s = .next t) :
    t.ectb = s.ectb ∧ t.caller = s.caller ∧ t.params = s.params ∧ t.trace = s.trace := by
  rcases ecStep_cases h with rfl | ⟨e, -, -, ⟨-, -, rfl⟩ | ⟨-, -, rfl⟩ | rfl | ⟨-, -, rfl⟩ | ⟨-, -, rfl⟩ | ⟨a, -, -, rfl⟩⟩
  · exact ⟨rfl, rfl, rfl, rfl⟩
  · exact ⟨rfl, rfl, rfl, rfl⟩
  · exact ⟨rfl, rfl, rfl, rfl⟩
  · exact ⟨rfl, rfl, rfl, rfl⟩
  · obtain ⟨h1, h2, h3, h4, -⟩ := ecAnswer_frame e s; exact ⟨h1, h2, h3, h4⟩
  · exact ⟨rfl, rfl, rfl, rfl⟩
  · exact ⟨rfl, rfl, rfl, rfl⟩

/-- The EC's move always answers a next state. -/
theorem ecStep_next (s : State) : ∃ t, ecStep s = .next t := by
  unfold ecStep
  split
  · exact ⟨_, rfl⟩
  · exact ⟨_, rfl⟩
  · split
    · split
      · cases hd : decode (.command _) with
        | ok i => rcases decodeCommand_cases hd with ⟨-, rfl⟩ | ⟨-, rfl⟩ <;> exact ⟨_, rfl⟩
        | error _ => exact ⟨_, rfl⟩
      · exact ⟨_, rfl⟩
    · exact ⟨_, rfl⟩

/-- What the beginning of a race leaves alone: everything but the EC and the environment's races. -/
theorem beginRace_frame (e : EcRef) (s : State) :
    (beginRace e s).ectb = s.ectb ∧ (beginRace e s).caller = s.caller ∧ (beginRace e s).params = s.params ∧
      (beginRace e s).trace = s.trace ∧ (beginRace e s).env.schedule = s.env.schedule ∧
      (beginRace e s).ec = .race (e.after s.drawRace.1) := by
  simp [beginRace]

/-- Everything a foreign access can do: nothing at a lock it honours, at an EC under no law or in a race; a race within a
transaction; a host's access outside one. -/
theorem foreignStep_cases (h : Bool) (x : ForeignAccess) (s : State) :
    (h = true ∧ s.ectb.lockHeld s.params.guard = true ∧ foreignStep h x s = s) ∨
    ((h = false ∨ s.ectb.lockHeld s.params.guard = false) ∧
      (((s.ec = .oracle ∨ ∃ e, s.ec = .race e) ∧ foreignStep h x s = s) ∨
       ∃ e, s.ec = .ref e ∧
        ((s.ectb.txOpen = true ∧ foreignStep h x s = beginRace e s) ∨
         (s.ectb.txOpen = false ∧ foreignStep h x s = s.setEc (.ref (e.foreign x)))))) := by
  unfold foreignStep
  by_cases hl : (h && s.ectb.lockHeld s.params.guard) = true
  · rw [if_pos hl]
    simp only [Bool.and_eq_true] at hl
    exact .inl ⟨hl.1, hl.2, rfl⟩
  · rw [if_neg hl]
    refine .inr ⟨by cases h <;> simp_all, ?_⟩
    split
    · exact .inl ⟨.inl ‹_›, rfl⟩
    · exact .inl ⟨.inr ⟨_, ‹_›⟩, rfl⟩
    · rename_i e he
      refine .inr ⟨e, he, ?_⟩
      by_cases ht : s.ectb.txOpen = true
      · simp [ht]
      · simp [ht]

/-- A foreign access changes nothing but the EC and the environment's draws. -/
theorem foreignStep_frame (h : Bool) (x : ForeignAccess) (s : State) :
    (foreignStep h x s).ectb = s.ectb ∧ (foreignStep h x s).caller = s.caller ∧
      (foreignStep h x s).params = s.params ∧ (foreignStep h x s).trace = s.trace ∧
      (foreignStep h x s).env.schedule = s.env.schedule := by
  unfold foreignStep
  (repeat' split) <;> simp [beginRace]

/-- The EC's change of its own register changes nothing but the EC. -/
theorem ecChange_frame (a v : Byte) (s : State) :
    (ecChange a v s).ectb = s.ectb ∧ (ecChange a v s).caller = s.caller ∧ (ecChange a v s).params = s.params ∧
      (ecChange a v s).trace = s.trace ∧ (ecChange a v s).env = s.env := by
  unfold ecChange
  split <;> exact ⟨rfl, rfl, rfl, rfl, rfl⟩

/-- Everything a move of the program can do: nothing; take a response without or with an error; present its next request. -/
theorem callerMove_cases (ectb : Ectb) (c : Caller) :
    c.move ectb = c ∨
    (c.stopped = none ∧ c.reqValid = false ∧ c.awaiting = true ∧ ectb.rspDone = true ∧ ectb.rspErr = 0 ∧
      c.move ectb = { c with rp := c.rp + 1, awaiting := false }) ∨
    (c.stopped = none ∧ c.reqValid = false ∧ c.awaiting = true ∧ ectb.rspDone = true ∧ ectb.rspErr ≠ 0 ∧
      c.move ectb = { c with stopped := some ectb.rspErr, awaiting := false }) ∨
    ∃ q, c.stopped = none ∧ c.reqValid = false ∧ c.awaiting = false ∧ ectb.fsm = .idle ∧ c.prog[c.rp]? = some q ∧
      c.move ectb = { c with reqValid := true, reqWord := q, awaiting := true } := by
  cases hs : c.stopped with
  | some e => simp [Caller.move, hs]
  | none =>
    cases hv : c.reqValid
    · cases ha : c.awaiting
      · by_cases hf : ectb.fsm = .idle
        · cases hq : c.prog[c.rp]? with
          | some q => simp [Caller.move, Caller.present, Ectb.reqReady, hv, ha, hs, hf, hq]
          | none => simp [Caller.move, Ectb.reqReady, hv, ha, hs, hf, hq]
        · simp [Caller.move, Ectb.reqReady, hv, ha, hs, hf]
      · cases hd : ectb.rspDone
        · simp [Caller.move, hv, ha, hd]
        · by_cases he : ectb.rspErr = 0#3 <;> simp [Caller.move, Caller.takeResponse, hs, hv, ha, hd, he]
    · simp [Caller.move, hv]

/-- Everything a request of the caller's own can do: nothing, or it is presented. -/
theorem callerSubmit_cases (ectb : Ectb) (q : ReqWord) (c : Caller) :
    ((c.reqValid = true ∨ ectb.busy = true ∨ c.responseDue ectb = true) ∧ c.submit ectb q = c) ∨
    (c.reqValid = false ∧ ectb.busy = false ∧ c.responseDue ectb = false ∧
      c.submit ectb q = { c with reqValid := true, reqWord := q, awaiting := false }) := by
  cases hv : c.reqValid <;> cases hb : ectb.busy <;> cases hd : c.responseDue ectb <;>
    simp [Caller.submit, hv, hb, hd]

theorem busy_iff (c : Ectb) : c.busy = true ↔ c.fsm = .acq ∨ c.fsm = .seq ∨ c.fsm = .tx := by
  cases h : c.fsm <;> simp [Ectb.busy, h]

theorem not_busy_iff (c : Ectb) : c.busy = false ↔ c.fsm = .idle ∨ c.fsm = .failed := by
  cases h : c.fsm <;> simp [Ectb.busy, h]

/-- Nothing is recorded unless a request finishes with an error. -/
theorem recordFinish_of_no_error {s t : State} (h : s.finishes t = true → t.ectb.rspErr = 0) : s.recordFinish t = t := by
  have e : (s.finishes t && t.ectb.rspErr != 0) = false := by
    cases hf : s.finishes t with
    | false => rfl
    | true => simp [h hf]
  rw [State.recordFinish, e, Bool.or_false]

/-- A move of ECTB is its step, with an error of a request that finishes recorded by the caller. -/
theorem ectbMove_next {s t : State} (h : moveOf .ectb s = .next t) :
    ∃ u, ectbStep s = .next u ∧ t = s.recordFinish u := by
  simp only [moveOf, ectbMove] at h
  cases hu : ectbStep s with
  | next u => simp only [hu] at h; cases h; exact ⟨u, rfl, rfl⟩
  | fault r => simp [hu] at h
  | refused r => simp [hu] at h

/-- A move of ECTB whose step answers a next state. -/
theorem ectbMove_of_step {s u : State} (h : ectbStep s = .next u) : moveOf .ectb s = .next (s.recordFinish u) := by
  simp [moveOf, ectbMove, h]

end Sys2Proof.Machine
end

