-- ==== Sys2Proof/Tests/Slice0.lean ====
section
/-! SUPPORT. Tests/Slice0.lean: the ill-formed terms the checks refuse, words written out from the spec's encodings, the test
vectors of 95_test_vectors.md on single functions and single steps, and for every obligation with hypotheses a state and
operands that meet them. Expected values are from spec/95_test_vectors.md (V-…, W…) or worked by hand from the rule named. -/

namespace Sys2Proof.Tests

open Sys2Proof Sys2Proof.Machine

/-! ### Assembly lines the check refuses (R109) -/

theorem test_wf_rdreg_address : (Asm.rdreg 65536).wf = false ∧ (Asm.rdreg 65535).wf = true := by decide
theorem test_wf_wrreg_address : (Asm.wrreg 65536 0).wf = false := by decide
theorem test_wf_wrreg_value : (Asm.wrreg 0 256).wf = false ∧ (Asm.wrreg 0 255).wf = true := by decide
theorem test_wf_getb_index : (Asm.getb (.index 256)).wf = false ∧ (Asm.getb (.index 255)).wf = true := by decide
theorem test_wf_geti_index : (Asm.geti (.index 256)).wf = false := by decide
theorem test_wf_setb_index : (Asm.setb (.index 256) true).wf = false := by decide
theorem test_wf_togl_index : (Asm.togl (.index 256)).wf = false := by decide
theorem test_wf_setl_index : (Asm.setl (.index 256) 0).wf = false := by decide
theorem test_wf_setl_level : (Asm.setl (.name .bklt) 65536).wf = false ∧
    (Asm.setl (.name .bklt) 65535).wf = true := by decide
theorem test_wf_on_index : (Asm.on (.index 256)).wf = false := by decide
theorem test_wf_off_index : (Asm.off (.index 256)).wf = false := by decide

/-! ### Descriptors (R104 to R106; V-D1 to V-D23) -/

theorem test_descriptors_wf : List.map Desc.wf
    [0x10BB000100000000, 0x189E000800000000, 0x20BB003000000000, 0x30BB00FF00000000, 0x40C2C3FF00000000,
     0x508081FF0003E800, 0x60B900FF0A000000, 0x709000F004000000] = List.replicate 8 true := by decide

theorem test_descriptors_not_wf : List.map Desc.wf
    [0x0000000000000000, 0x10BB000300000000, 0x10BB000000000000, 0x11BB000100000000, 0x10BB000100000001,
     0x28BB003000000000, 0x30BB01FF00000000, 0x40C2C2FF00000000, 0x40C3C2FF00000000, 0x40C2C30F00000000,
     0x508081FF00000000, 0x60B900FF00000000, 0x60B900F00A000000, 0x709000F004000100, 0x80BB00FF00000000] =
    List.replicate 15 false := by decide

/-! ### Decoding (R91, R95 to R98; V-E1 to V-E31). Each word is written out field by field from the tables. -/

/-- OP 0001, RSV 0000, ADDR 0x00BB, DATA 0. -/
theorem test_decode_rdreg : decode (.request 0b00010000000000001011101100000000) = .ok (.rdreg 0xBB) := by decide
/-- OP 0001, RSV 0000, ADDR 65535, DATA 0: encodable. -/
theorem test_decode_rdreg_top : decode (.request 0b00010000111111111111111100000000) = .ok (.rdreg 65535) := by decide
/-- OP 0010, RSV 0000, ADDR 0x00BB, DATA 0xFF. -/
theorem test_decode_wrreg : decode (.request 0b00100000000000001011101111111111) = .ok (.wrreg 0xBB 0xFF) := by decide
/-- OP 0011, RSV 0000, FIDX 1, OPND 0. -/
theorem test_decode_getb : decode (.request 0b00110000000000010000000000000000) = .ok (.getb 1) := by decide
/-- OP 0100, RSV 0000, FIDX 4, OPND 0. -/
theorem test_decode_geti : decode (.request 0b01000000000001000000000000000000) = .ok (.geti 4) := by decide
/-- OP 0101, RSV 0000, FIDX 1, OPND 1. -/
theorem test_decode_setb : decode (.request 0b01010000000000010000000000000001) = .ok (.setb 1 true) := by decide
/-- OP 0110, RSV 0000, FIDX 255, OPND 0. -/
theorem test_decode_togl : decode (.request 0b01100000111111110000000000000000) = .ok (.togl 255) := by decide
/-- OP 0111, RSV 0000, FIDX 3, OPND 65535. -/
theorem test_decode_setl : decode (.request 0b01110000000000111111111111111111) = .ok (.setl 3 65535) := by decide
/-- The command byte 0x80. -/
theorem test_decode_ec_read : decode (.command 0b10000000) = .ok .ecReadCmd := by decide
/-- The command byte 0x81. -/
theorem test_decode_ec_write : decode (.command 0b10000001) = .ok .ecWriteCmd := by decide

/-- V-E1, V-E2, V-E3, V-E5, V-E6, V-E10, V-E14, V-E16, V-E17, V-E25, V-E26, and a command byte of R92. -/
theorem test_decode_refuses :
    decode (.request 0x00000000) = .error .reservedOpcode ∧ decode (.request 0x80000000) = .error .reservedOpcode ∧
    decode (.request 0xF0FFFFFF) = .error .reservedOpcode ∧ decode (.request 0x1100BB00) = .error .reservedBits ∧
    decode (.request 0x1000BB01) = .error .dataNotZero ∧ decode (.request 0x11012C00) = .error .reservedBits ∧
    decode (.request 0x30000001) = .error .operandNotZero ∧ decode (.request 0x50010003) = .error .operandNotZero ∧
    decode (.request 0x5001FFFE) = .error .operandNotZero ∧ decode (.request 0x30070001) = .error .operandNotZero ∧
    decode (.request 0x41070000) = .error .reservedBits ∧ decode (.command 0x82) = .error .unknownCommand := by decide

/-- V-E28 to V-E31: the rows of R98 by match and mask. -/
theorem test_opcode_rows :
    opcodeRows.map (fun r => r.spells 0x50010001) = [false, false, false, false, true, false, false] ∧
    opcodeRows.map (fun r => r.spells 0x2000BB55) = [false, true, false, false, false, false, false] ∧
    opcodeRows.map (fun r => r.spells 0x1000BB00) = [true, false, false, false, false, false, false] ∧
    opcodeRows.map (fun r => r.spells 0x1000BB01) = List.replicate 7 false := by decide

theorem test_decodeTableWord :
    decodeTableWord 32 0x1000BB00 = some (.rdreg 0xBB) ∧ decodeTableWord 8 0x80 = some .ecReadCmd ∧
    decodeTableWord 8 0x81 = some .ecWriteCmd ∧ decodeTableWord 32 0x80000000 = none ∧
    decodeTableWord 8 0x182 = none := by decide

/-! ### The assembler (R109, R110; the words of P1 to P3) -/

theorem test_assemble_lines :
    assemble (.setb (.name .blue) true) = some [0x50010001] ∧ assemble (.off (.name .wlan)) = some [0x50000000] ∧
    assemble (.setl (.name .bklt) 13) = some [0x7003000D] ∧ assemble (.rdreg 300) = some [0x10012C00] ∧
    assemble (.geti (.index 7)) = some [0x40070000] ∧ assemble (.rdreg 65536) = none := by decide

theorem test_assemble_text :
    assembleLine ['s', 'e', 't', 'b', ' ', 'B', 'L', 'U', 'E', ',', ' ', 'o', 'n'] = some [0x50010001] ∧
    assembleLine ['w', 'r', 'r', 'e', 'g', ' ', '0', 'x', 'b', 'b', ',', ' ', '0', 'x', '5', '5'] = some [0x2000BB55] ∧
    assembleLine ['t', 'o', 'g', 'l', ' ', '#', '2', ' ', ';', 'x'] = some [0x60020000] ∧
    assembleLine [';', 'x'] = some [] ∧
    assembleLine ['g', 'e', 't', 'b', ' ', '#', '2', '5', '6'] = none := by decide

/-! ### Field functions -/

/-- The descriptors of `BLUE` and `TPAD` (R170). -/
def blue : Descriptor := 0x10BB000200000000
/-- `TPAD`. -/
def tpad : Descriptor := 0x189E000800000000

/-- V-B1 to V-B8. -/
theorem test_boolDecode :
    List.map (fun b => boolDecode b blue) [0x00, 0x02, 0xFD, 0xFF] = [false, true, false, true] ∧
    List.map (fun b => boolDecode b tpad) [0x00, 0x08, 0xF7, 0xFF] = [true, false, true, false] := by decide

/-- V-B9 to V-B17. -/
theorem test_boolEncode :
    boolEncode 0x00 blue true = 0x02 ∧ boolEncode 0xFD blue true = 0xFF ∧ boolEncode 0x02 blue true = 0x02 ∧
    boolEncode 0xFF blue false = 0xFD ∧ boolEncode 0x0A blue false = 0x08 ∧ boolEncode 0x00 tpad true = 0x00 ∧
    boolEncode 0xFF tpad true = 0xF7 ∧ boolEncode 0x00 tpad false = 0x08 ∧
    boolEncode 0xF7 tpad false = 0xFF := by decide

/-- A descriptor with a mask, for the functions that read nothing else of it. -/
def masked (m : Byte) : Descriptor := 0x20BB00#24 ++ m ++ 0#32

/-- V-F1 to V-F10. -/
theorem test_enumDecode :
    enumDecode 0x00 (masked 0x30) = 0 ∧ enumDecode 0x10 (masked 0x30) = 1 ∧ enumDecode 0x20 (masked 0x30) = 2 ∧
    enumDecode 0xB4 (masked 0x30) = 3 ∧ enumDecode 0xCF (masked 0x30) = 0 ∧ enumDecode 0x06 (masked 0x06) = 3 ∧
    enumDecode 0xFD (masked 0x06) = 2 ∧ enumDecode 0xA0 (masked 0xE0) = 5 ∧ enumDecode 0x01 (masked 0x01) = 1 ∧
    enumDecode 0xFF (masked 0xFF) = 255 := by decide

/-- V-F11 to V-F15. -/
theorem test_u8Decode :
    u8Decode 0x00 (masked 0xFF) = 0 ∧ u8Decode 0x7F (masked 0xFF) = 127 ∧ u8Decode 0x80 (masked 0xFF) = 128 ∧
    u8Decode 0xFF (masked 0xFF) = 255 ∧ u8Decode 0xAB (masked 0x0F) = 11 := by decide

/-- V-F16 to V-F23. -/
theorem test_compose16 :
    compose16 0x34 0x12 = 4660 ∧ compose16 0x64 0x01 = 356 ∧ compose16 0x00 0x01 = 256 ∧ compose16 0x01 0x00 = 1 ∧
    compose16 0xFF 0x00 = 255 ∧ compose16 0x00 0xFF = 65280 ∧ compose16 0xFF 0xFF = 65535 ∧
    compose16 0x00 0x00 = 0 := by decide

/-- V-F31 to V-F41; the masks and thresholds 0xF0 and 4, 0x0F and 4, 0xFF and 0xFF, 0xFF and 0. -/
theorem test_maskedGtDecode :
    List.map (fun b => maskedGtDecode b 0x709000F004000000) [0x00, 0x04, 0x05, 0x0F, 0x10, 0x20, 0x80, 0xFF] =
      [0, 0, 0, 0, 1, 1, 1, 1] ∧
    List.map (fun b => maskedGtDecode b 0x7090000F04000000) [0x04, 0x05, 0xF4, 0x0F] = [0, 1, 0, 1] ∧
    maskedGtDecode 0xFF 0x709000FFFF000000 = 0 ∧ maskedGtDecode 0x00 0x709000FF00000000 = 0 ∧
    maskedGtDecode 0x01 0x709000FF00000000 = 1 := by decide

/-- V-L1 to V-L11: ranges 10, 1 and 255. -/
theorem test_levelEncode :
    List.map (fun n => levelEncode n 0x60B900FF0A000000) [0, 9, 10, 13, 19, 255, 256, 65535] =
      [0, 9, 0, 3, 9, 5, 6, 5] ∧
    levelEncode 65535 0x60B900FF01000000 = 0 ∧ levelEncode 254 0x60B900FFFF000000 = 254 ∧
    levelEncode 255 0x60B900FFFF000000 = 0 := by decide

/-- V-D16 and V-D21: the supplied `VOLT` and `FANS`, and `NONE` when they are not (R170). -/
theorem test_regmap_parameters :
    let p : Params :=
      { Config.original with
        voltRegs := some (0x80, 0x81), fansAddr := some 0x90, regmapExt := [(7, 0x20A0003000000000)] }
    regmap p 5 = 0x508081FF0003E800 ∧ regmap p 6 = 0x709000F004000000 ∧ regmap p 7 = 0x20A0003000000000 ∧
    regmap p 8 = 0 ∧ regmap Config.original 5 = 0 ∧ regmap Config.original 6 = 0 := by decide

/-- V-S3: the value 12348/1000 of a scaled field (R180). -/
theorem test_semanticValue :
    ({ Ectb.reset with rspValue := 12348, rspScale := 1000 } : Ectb).semanticValue = 12348 / 1000 := by
  show ((12348 : Nat) : Rat) / ((1000 : Nat) : Rat) = 12348 / 1000
  norm_num

/-! ### States -/

/-- The reference EC at rest with the registers of scenarios 1 to 5. -/
def ecRef : EcRef := EcRef.start [(0x9E, 0x08), (0xB9, 0x07), (0xBB, 0x03), (0xC2, 0x64), (0xC3, 0x01)]

/-- An idle ECTB with permission granted, the reference EC at rest, and `VOLT` and `FANS` supplied. -/
def idle : State :=
  { State.reset with
    ectb := { Ectb.reset with acqState := .granted }
    ec := .ref ecRef
    params :=
      { Config.original with
        voltRegs := some (0x80, 0x81), fansAddr := some 0x90,
        regmapExt := [(7, 0x20A0003000000000), (8, 0x30A100FF00000000), (9, 0x11BB000100000000)] } }

/-- `idle` with ECTB's registers changed. -/
def withEctb (f : Ectb → Ectb) : State := idle.onEctb f

/-- ECTB in `SEQ` with the latches of a field request and its bytes. -/
def fieldSeq (op : BitVec 4) (fidx : Byte) (opnd : Half) (d : Descriptor) (k : Nat) (b0 b1 : Byte) : State :=
  withEctb (fun c => { c with
    fsm := .seq, opL := op, fidxL := fidx, opndL := opnd, descL := d, k := k, byte0 := b0, byte1 := b1 })

/-- ECTB in `SEQ` with the latches of a transport request. -/
def transportSeq (op : BitVec 4) (addr : Half) (data : Byte) (k : Nat) (b0 : Byte) : State :=
  withEctb (fun c => { c with fsm := .seq, opL := op, raddrL := addr, rdataInL := data, k := k, byte0 := b0 })

/-- ECTB in `TX`: a RDREG of 0xBB. -/
def readTx (stage : TxStage) (sub : TxSub) (k : Nat) : State :=
  withEctb (fun c => { c with
    fsm := .tx, opL := 1, raddrL := 0xBB, txKind := .rd, txStage := stage, txSub := sub, addrL := 0xBB, k := k })

/-- ECTB in `TX`: a WRREG of 0x55 to 0xBB. -/
def writeTx (stage : TxStage) (sub : TxSub) : State :=
  withEctb (fun c => { c with
    fsm := .tx, opL := 2, raddrL := 0xBB, rdataInL := 0x55, txKind := .wr, txStage := stage, txSub := sub,
    addrL := 0xBB, wdataL := 0x55 })

/-- ECTB in `ACQ` with a RDREG of 0xBB. -/
def acquiring : State := withEctb (fun c => { c with fsm := .acq, opL := 1, raddrL := 0xBB, acqState := .none })

/-- ECTB in `FAILED`. -/
def failed : State :=
  withEctb (fun c => { c with fsm := .failed, acqState := .none, rspDone := true, rspErr := 2 })

/-- `idle` with a word presented. -/
def presented (q : ReqWord) : State := { idle with caller := { Caller.reset with reqValid := true, reqWord := q } }

/-- A next state's ECTB. -/
def ectbOf : Out → Option Ectb
  | .next t => some t.ectb
  | .fault _ => none
  | .refused _ => none

/-- A next state's EC. -/
def ecOf : Out → Option Ec
  | .next t => some t.ec
  | .fault _ => none
  | .refused _ => none

/-! ### One step of each instruction -/

/-- V-T1, step 10: RDREG finishes with the byte read and scale 1. -/
theorem test_rdreg_finishes :
    (ectbOf (exec (.rdreg 0xBB) (transportSeq 1 0xBB 0 1 0x03))).map
      (fun c => (c.rspErr, c.rspValue, c.rspScale, c.rspDone, c.fsm)) = some (0, 3, 1, true, .idle) := by decide
/-- V-E8, V-E9: RDREG of 256 and of 65535 are refused at ACCEPT. -/
theorem test_rdreg_out_of_range :
    (ectbOf (exec (.rdreg 0x100) idle)).map (fun c => (c.rspErr, c.fsm)) = some (1, .idle) ∧
    (ectbOf (exec (.rdreg 0xFFFF) idle)).map (fun c => (c.rspErr, c.fsm)) = some (1, .idle) := by decide
/-- V-T5: WRREG starts a write of 0x55 to 0xBB. -/
theorem test_wrreg_starts :
    (ectbOf (exec (.wrreg 0xBB 0x55) (transportSeq 2 0xBB 0x55 0 0))).map
      (fun c => (c.txKind, c.addrL, c.wdataL, c.polls, c.fsm)) = some (.wr, 0xBB, 0x55, 0, .tx) := by decide
/-- V-T5: its last access hands the value byte to the EC, and the transaction ends. -/
theorem test_wrreg_last_access :
    exec (.wrreg 0xBB 0x55) (writeTx .three .act) =
      .next { writeTx .three .act with
        ec := .ref { ecRef with inByte := 0x55, inIsCmd := false, ibf := true }
        trace := [.writeData 0x55]
        ectb := { (writeTx .three .act).ectb with k := 1, fsm := .seq } } := rfl
/-- W8: GETB of the inverted `TPAD` with its bit set is 0. -/
theorem test_getb_inverted :
    (ectbOf (exec (.getb 2) (fieldSeq 3 2 0 tpad 1 0x08 0))).map
      (fun c => (c.rspErr, c.rspValue, c.rspScale)) = some (0, 0, 1) := by decide
/-- V-E19: GETB of `BKLT` is a kind mismatch. -/
theorem test_getb_kind : (ectbOf (exec (.getb 3) idle)).map (fun c => (c.rspErr, c.fsm)) = some (4, .idle) := by decide
/-- W11: GETI of `BCAP` is 356. -/
theorem test_geti_bcap :
    (ectbOf (exec (.geti 4) (fieldSeq 4 4 0 0x40C2C3FF00000000 2 0x64 0x01))).map
      (fun c => (c.rspErr, c.rspValue, c.rspScale)) = some (0, 356, 1) := by decide
/-- V-S3: GETI of `VOLT` answers the raw integer and the scale. -/
theorem test_geti_volt :
    (ectbOf (exec (.geti 5) (fieldSeq 4 5 0 0x508081FF0003E800 2 0x3C 0x30))).map
      (fun c => (c.rspErr, c.rspValue, c.rspScale)) = some (0, 12348, 1000) := by decide
/-- V-B19: SETB of `BLUE` over 0xA5 writes 0xA7. -/
theorem test_setb_writes :
    (ectbOf (exec (.setb 1 true) (fieldSeq 5 1 1 blue 1 0xA5 0))).map
      (fun c => (c.txKind, c.addrL, c.wdataL)) = some (.wr, 0xBB, 0xA7) := by decide
/-- V-E27: TOGL of an absent entry. -/
theorem test_togl_absent : (ectbOf (exec (.togl 255) idle)).map (fun c => (c.rspErr, c.fsm)) = some (5, .idle) := by
  decide
/-- V-B22: TOGL writes 0xF0 when the two readings of `TPAD` are 0x08 and 0xF8. -/
theorem test_togl_two_readings :
    (ectbOf (exec (.togl 2) (fieldSeq 6 2 0 tpad 2 0x08 0xF8))).map
      (fun c => (c.txKind, c.addrL, c.wdataL)) = some (.wr, 0x9E, 0xF0) := by decide
/-- W6: SETL of 13 to `BKLT` writes 3. -/
theorem test_setl_wraps :
    (ectbOf (exec (.setl 3 13) (fieldSeq 7 3 13 0x60B900FF0A000000 0 0 0))).map
      (fun c => (c.txKind, c.addrL, c.wdataL)) = some (.wr, 0xB9, 3) := by decide
/-- R65: the EC takes the command 0x80. -/
theorem test_ecReadCmd :
    ecOf (exec .ecReadCmd { idle with ec := .ref (ecRef.deliver 0x80 true) }) =
      some (.ref { ecRef with inByte := 0x80, inIsCmd := true, phase := .rdAddr }) := by decide
/-- R65: the EC takes the command 0x81. -/
theorem test_ecWriteCmd :
    ecOf (exec .ecWriteCmd { idle with ec := .ref (ecRef.deliver 0x81 true) }) =
      some (.ref { ecRef with inByte := 0x81, inIsCmd := true, phase := .wrAddr }) := by decide

/-- V-T4: the first unsatisfied poll with `POLL_LIMIT = 1` is a stall in RD stage 2. -/
theorem test_stall :
    let s := { readTx .two .poll 0 with
      ec := .ref { ecRef with ibf := true }, params := { idle.params with pollLimit := .finite 1 } }
    (ectbOf (exec (.rdreg 0xBB) s)).map (fun c => (c.rspErr, c.fsm, c.txKind, c.txStage, c.addrL)) =
      some (3, .idle, .rd, .two, 0xBB) := by decide

/-- V-R2: a denied acquisition fails ECTB. -/
theorem test_denied :
    (ectbOf (exec (.rdreg 0xBB) { acquiring with env := { Env.reset with grants := [false] } })).map
      (fun c => (c.rspErr, c.fsm, c.reqReady)) = some (2, .failed, false) := by decide

/-- A step from reset with a table word presented runs it: RDREG 0xBB goes to `ACQ`, and the EC takes a command byte. -/
theorem test_withFetchWord :
    (ectbOf (step (State.reset.withFetchWord 32 0x1000BB00))).map (fun c => (c.opL, c.raddrL, c.fsm)) =
      some (1, 0xBB, .acq) ∧
    ecOf (step (State.reset.withFetchWord 8 0x81)) =
      some (.ref { EcRef.start [] with inByte := 0x81, inIsCmd := true, phase := .wrAddr }) := by decide

/-- R233: the exit codes of a run that ended, one that stopped, and one under way. -/
theorem test_exitCode :
    let s (c : Caller) : State := { idle with caller := c }
    (s Caller.reset).exitCode = some 0 ∧ (s { Caller.reset with stopped := some 3 }).exitCode = some 1 ∧
    (s { Caller.reset with prog := [0], awaiting := true }).exitCode = none ∧
    ({ readTx .two .poll 0 with caller := Caller.reset } : State).exitCode = none ∧
    (s { Caller.reset with cut := true }).exitCode = none := by decide

/-! ### Witnesses: states and operands that meet each obligation's hypotheses -/

/-- A step that answers a next state, as the obligations over every step ask. -/
theorem witness_step : ∃ t, step (idle.scheduled [.ectb]) = .next t := ⟨_, rfl⟩

theorem witness_EncodeOfDecodeIsTheWord : ∃ i, decode (.request 0x2000BBFF) = .ok i := ⟨_, rfl⟩

/-- Each way a word can be illegal, at the ends of its range. -/
theorem witness_IllegalWordEndsAtOnce :
    idle.ectb.fsm = .idle ∧ (presented 0).caller.reqValid = true ∧
    (0x00000000#32).toNat / 2 ^ 28 = 0 ∧ 8 ≤ (0x80000000#32).toNat / 2 ^ 28 ∧ 8 ≤ (0xF0FFFFFF#32).toNat / 2 ^ 28 ∧
    (0x11000000#32).toNat / 2 ^ 24 % 16 ≠ 0 ∧ (0x28000000#32).toNat / 2 ^ 24 % 16 ≠ 0 ∧
    ((0x10000001#32).toNat / 2 ^ 28 = 1 ∧ (0x10000001#32).toNat % 256 ≠ 0) ∧
    ((0x30000001#32).toNat / 2 ^ 28 = 3 ∧ (0x30000001#32).toNat % 65536 ≠ 0) ∧
    ((0x40008000#32).toNat / 2 ^ 28 = 4 ∧ (0x40008000#32).toNat % 65536 ≠ 0) ∧
    ((0x60000080#32).toNat / 2 ^ 28 = 6 ∧ (0x60000080#32).toNat % 65536 ≠ 0) ∧
    ((0x50000002#32).toNat / 2 ^ 28 = 5 ∧ (0x50000002#32).toNat % 65536 / 2 ≠ 0) ∧
    ((0x5000FFFF#32).toNat / 2 ^ 28 = 5 ∧ (0x5000FFFF#32).toNat % 65536 / 2 ≠ 0) := by decide

theorem witness_AssemblerEncodesEveryLine :
    (∃ ws, assemble (.wrreg 65535 255) = some ws) ∧ (∃ ws, assemble (.setl (.index 255) 65535) = some ws) ∧
    assemble (.wrreg 65535 256) = none ∧ assemble (.setl (.index 256) 0) = none :=
  ⟨⟨_, rfl⟩, ⟨_, rfl⟩, by decide, by decide⟩

theorem witness_StepRunsTheDecodedInstruction :
    (idle.ectb.fsm = .idle ∧ (presented 0x1000BB00).caller.reqValid = true ∧
      decode (.request (presented 0x1000BB00).caller.reqWord) = .ok (.rdreg 0xBB)) ∧
    (acquiring.ectb.fsm = .acq ∧ acquiring.ectb.current = some (.rdreg 0xBB)) ∧
    ((transportSeq 2 0xBB 0x55 0 0).ectb.fsm = .seq ∧
      (transportSeq 2 0xBB 0x55 0 0).ectb.current = some (.wrreg 0xBB 0x55)) ∧
    ((readTx .one .poll 0).ectb.fsm = .tx ∧ (readTx .one .poll 0).ectb.current = some (.rdreg 0xBB)) ∧
    ((ecRef.deliver 0x81 true).ibf = true ∧ (ecRef.deliver 0x81 true).inIsCmd = true ∧
      decode (.command (ecRef.deliver 0x81 true).inByte) = .ok .ecWriteCmd) ∧
    (exec (.rdreg 0x12C) idle = .next (acceptOf (.rdreg 0x12C) idle) ∧
      (acceptOf (.rdreg 0x12C) idle).ectb.fsm = .idle ∧ (acceptOf (.rdreg 0x12C) idle).ectb.rspErr ≠ 0) ∧
    ((readTx .three .act 2).ectb.current = some (.rdreg 0xBB) ∧
      exec (.rdreg 0xBB) (readTx .three .act 2) = .fault .noByteLatch) := by
  refine ⟨by decide, by decide, by decide, by decide, by decide, ⟨rfl, by decide, by decide⟩, by decide, rfl⟩

theorem witness_AcceptedLatchesHoldTheRequest :
    idle.ectb.fsm = .idle ∧ ∃ t, exec (.setb 1 true) idle = .next t ∧ t.ectb.fsm ≠ .idle :=
  ⟨rfl, _, rfl, by decide⟩

/-- `AtMostOnePortAccessPerStep`: the access, and the reset. -/
theorem witness_AtMostOnePortAccessPerStep :
    (∃ t, step ((readTx .one .poll 0).scheduled [.ectb]) = .next t ∧ t.trace = [.readStatus 0]) ∧
    (∃ t, step ((readTx .one .poll 0).scheduled [.reset]) = .next t ∧ t.trace = []) := ⟨⟨_, rfl, rfl⟩, _, rfl, rfl⟩

theorem witness_TransportRequestInRangeIsAccepted :
    idle.ectb.fsm = .idle ∧ (0xFF : Half).toNat < 256 ∧ (0x00 : Half).toNat < 256 := by decide

theorem witness_AddressOutOfRangeIsRefused :
    idle.ectb.fsm = .idle ∧ 256 ≤ (0x100 : Half).toNat ∧ 256 ≤ (0xFFFF : Half).toNat := by decide

/-- A field of every kind the requests admit: `WLAN` (0), `BKLT` (3), `BCAP` (4), `VOLT` (5), `FANS` (6), an ENUM (7), a U8 (8). -/
theorem witness_FieldRequestIsAccepted :
    idle.ectb.fsm = .idle ∧ (∀ i ∈ [0, 3, 4, 5, 6, 7, 8], Desc.wf (regmap idle.params i) = true) ∧
    List.map (fun i => Desc.kind (regmap idle.params i)) [0, 3, 4, 5, 6, 7, 8] =
      [.bool, .level, .u16le, .scaled, .maskedGt, .enum, .u8] := by decide

/-- An entry that is `NONE` and one that is malformed. -/
theorem witness_AbsentFieldIsRefused :
    idle.ectb.fsm = .idle ∧ Desc.wf (regmap idle.params 255) = false ∧ Desc.wf (regmap idle.params 9) = false ∧
    regmap idle.params 9 ≠ 0 := by decide

theorem witness_KindMismatchIsRefused :
    idle.ectb.fsm = .idle ∧ Desc.wf (regmap idle.params 3) = true ∧ Desc.kind (regmap idle.params 3) ≠ .bool ∧
    Desc.wf (regmap idle.params 0) = true ∧ Desc.kind (regmap idle.params 0) = .bool ∧
    Desc.kind (regmap idle.params 0) ≠ .level := by decide

/-- A granted and a denied answer. -/
theorem witness_AcquisitionGrantsOrFails :
    isRequest (.rdreg 0xBB) = true ∧ acquiring.ectb.fsm = .acq ∧
    (∀ g ∈ [true, false],
      let s : State := { acquiring with env := { Env.reset with grants := [g, true] } }
      s.ectb.fsm = .acq ∧ s.env.grants = g :: [true] ∧ s.drawGrant.1 = g) := by decide

theorem witness_FailedIsTerminalUntilReset : failed.ectb.fsm = .failed ∧ failed.inv = true := by decide

/-- A poll whose wait holds, one that reaches the limit, one below the limit and one without a limit. -/
theorem witness_PollReadsTheStatusOnce :
    isRequest (.rdreg 0xBB) = true ∧ (readTx .three .poll 0).ectb.fsm = .tx ∧ (readTx .three .poll 0).ectb.txSub = .poll ∧
    (readStatus (readTx .one .poll 0)).1.getLsbD 1 = false ∧
    ¬ (readStatus (readTx .three .poll 0)).1.getLsbD 0 = true ∧ (readTx .three .poll 0).params.pollLimit = .inf ∧
    (1 ≤ (readTx .three .poll 0).ectb.polls + 1 ∧ (readTx .three .poll 0).ectb.polls + 1 < 2) := by decide

theorem witness_ReadStageAccesses :
    isRequest (.rdreg 0xBB) = true ∧
    (∀ st ∈ [TxStage.one, .two, .three], ∀ k ∈ [0, 1],
      (readTx st .act k).ectb.fsm = .tx ∧ (readTx st .act k).ectb.txSub = .act ∧
      (readTx st .act k).ectb.txKind = .rd ∧ (readTx st .act k).ectb.txStage = st ∧
      (readTx st .act k).ectb.k = k ∧ (readTx st .act k).ec = .ref ecRef) ∧
    (∀ k ∈ [0, 1], ({ readTx .three .act k with ec := .race ecRef } : State).ec = .race ecRef ∧
      ({ readTx .three .act k with ec := .race ecRef } : State).ectb.k = k) := by decide

theorem witness_WriteStageAccesses :
    isRequest (.wrreg 0xBB 0x55) = true ∧
    (∀ st ∈ [TxStage.one, .two, .three],
      (writeTx st .act).ectb.fsm = .tx ∧ (writeTx st .act).ectb.txSub = .act ∧
      (writeTx st .act).ectb.txKind = .wr ∧ (writeTx st .act).ectb.txStage = st) := by decide

/-- A read entry, a write entry, and the end of SETB's list. -/
theorem witness_SequencerStartsOrFinishes :
    (∃ p, planOf (.setb 1 true) (fieldSeq 5 1 1 blue 0 0 0).ectb = some p ∧ p.txs[0]? = some (.rd 0xBB)) ∧
    (∃ p, planOf (.setb 1 true) (fieldSeq 5 1 1 blue 1 0xA5 0).ectb = some p ∧ p.txs[1]? = some (.wr 0xBB 0xA7)) ∧
    (∃ p, planOf (.setb 1 true) (fieldSeq 5 1 1 blue 2 0xA5 0).ectb = some p ∧ p.txs.length ≤ 2) :=
  ⟨⟨_, rfl, by decide⟩, ⟨_, rfl, by decide⟩, _, rfl, by decide⟩

theorem witness_TransportRequestsListAndResult :
    (transportSeq 1 0xBB 0 0 0).ectb.fsm = .seq ∧ (transportSeq 1 0xBB 0 0 0).ectb.k = 0 ∧
    (transportSeq 1 0xBB 0 1 3).ectb.fsm = .seq ∧ 1 ≤ (transportSeq 1 0xBB 0 1 3).ectb.k := by decide

/-- `SEQ` with each index a clause of the field requests names. -/
theorem witness_field_lists :
    (∀ k ∈ [0, 1, 2, 3], (fieldSeq 6 2 0 tpad k 8 8).ectb.fsm = .seq ∧ (fieldSeq 6 2 0 tpad k 8 8).ectb.descL = tpad ∧
      (fieldSeq 6 2 0 tpad k 8 8).ectb.k = k) ∧
    List.map Desc.kind [0x30A100FF00000000, 0x20A0003000000000, 0x60B900FF0A000000, 0x709000F004000000,
      0x40C2C3FF00000000, 0x508081FF0003E800] = [.u8, .enum, .level, .maskedGt, .u16le, .scaled] := by decide

theorem witness_BooleanEncodeSetsOnlyTheField : Desc.wf tpad = true ∧ Desc.kind tpad = .bool := by decide

theorem witness_EnumeratedDecodeReadsTheMaskedBits :
    Desc.mask (masked 0x01) ≠ 0 ∧ Desc.mask (masked 0x80) ≠ 0 ∧ Desc.mask (masked 0xFF) ≠ 0 := by decide

theorem witness_LevelWrapsIntoTheRange :
    1 ≤ (Desc.param 0x60B900FF01000000).toNat ∧ 1 ≤ (Desc.param 0x60B900FFFF000000).toNat := by decide

theorem witness_FixedRegisterMapEntries :
    Config.original.voltRegs = none ∧ Config.original.fansAddr = none ∧
    idle.params.voltRegs = some (0x80, 0x81) ∧ idle.params.fansAddr = some 0x90 := by decide

theorem witness_EcCommandBeginsATransaction : idle.ec = .ref ecRef := by decide

/-- A data byte waiting in each phase that gives it a role, at the lowest and highest register. -/
theorem witness_EcConsumesDataBytes :
    (ecRef.deliver 0xBB false).ibf = true ∧ (ecRef.deliver 0xBB false).inIsCmd = false ∧
    (ecRef.deliver 0xBB false).inByte = 0xBB ∧ ({ ecRef with phase := .rdAddr } : EcRef).regs.read 0xBB = some 3 ∧
    ({ ecRef with phase := .rdAddr } : EcRef).phase = .rdAddr ∧ ecRef.regs.read 0x00 = none ∧
    ecRef.regs.read 0xFF = none ∧
    ({ ecRef with phase := .wrAddr } : EcRef).phase = .wrAddr ∧
    ({ ecRef with phase := .wrData 0xFF } : EcRef).phase = .wrData 0xFF := by decide

/-- The data read, at either index, and a poll, of an EC under no law and of one in a race, with a byte queued. -/
theorem witness_AnyByteMayBeRead :
    (∀ ec ∈ [Ec.oracle, .race ecRef],
      let s : State := { readTx .two .poll 0 with ec := ec, env := { Env.reset with answers := [0xFF] } }
      s.ec = ec ∧ s.ectb.fsm = .tx ∧ s.ectb.txSub = .poll ∧ s.env.answers = 0xFF :: []) ∧
    ∀ k ∈ [0, 1], ∀ ec ∈ [Ec.oracle, .race ecRef],
      let s : State := { readTx .three .act k with ec := ec, env := { Env.reset with answers := [0xFF] } }
      s.ec = ec ∧ s.ectb.fsm = .tx ∧ s.ectb.txSub = .act ∧ s.ectb.txKind = .rd ∧ s.ectb.txStage = .three ∧
      s.env.answers = 0xFF :: [] ∧ s.ectb.k = k := by decide

/-- `s` with a guard. -/
def withGuard (g : Guard) (s : State) : State := { s with params := { s.params with guard := g } }

/-- What a race may leave: two registers written, one of them twice, and the EC awaiting a value byte. -/
def raced : RaceResult :=
  { writes := [(0xBB, 7), (0xBB, 9), (0x00, 1)], ibf := false, obf := true, odata := 0x5A, inByte := 0, inIsCmd := false,
    phase := .wrData 0x10 }

/-- `s` in a race that leaves the EC as `ecRef`, with what the next race leaves queued. -/
def inRace (s : State) : State := { s with ec := .race ecRef, env := { s.env with races := [raced] } }

/-- Each guard: the lock held within a transaction and, with `per_request`, between two; not held, out of a transaction, before
its first POLL, and with `per_request` before the request's first port access; a race without the lock, its last access and a
stall in it, what it leaves; moves with no foreign access, and with ones that honour the lock. -/
theorem witness_ForeignAccessIsLockedOutOrARace :
    (readTx .one .poll 0).ectb.txOpen = false ∧ (readTx .one .act 0).ectb.txOpen = true ∧
    (readTx .three .act 0).ectb.txOpen = true ∧
    (∀ s ∈ [withGuard .perTransaction (readTx .one .act 0), withGuard .perRequest (readTx .three .act 0),
        withGuard .perRequest (fieldSeq 6 2 0 tpad 1 8 8)],
      s.ectb.lockHeld s.params.guard = true) ∧
    (∀ s ∈ [withGuard .perRequest idle, withGuard .perRequest acquiring, withGuard .perRequest (readTx .one .poll 0),
        withGuard .perRequest (fieldSeq 6 2 0 tpad 0 8 8), withGuard .perTransaction (fieldSeq 6 2 0 tpad 1 8 8),
        withGuard .absent idle],
      s.ectb.lockHeld s.params.guard = false ∧ s.ectb.txOpen = false ∧ s.ec = .ref ecRef) ∧
    (∀ s ∈ [withGuard .absent (readTx .two .poll 0)],
      s.ectb.lockHeld s.params.guard = false ∧ s.ectb.txOpen = true ∧ s.ec = .ref ecRef ∧ s.ec.inRace = false ∧
        s.env.races = []) ∧
    State.reset.ec = .oracle ∧
    (∀ s ∈ [inRace (readTx .one .act 0), inRace (readTx .two .poll 0), inRace (readTx .three .act 0)],
      s.ec = .race ecRef ∧ s.ectb.txOpen = true ∧ s.env.races = [raced]) ∧
    raced.writes = [(0xBB, 7)] ++ (0xBB, 9) :: [(0x00, 1)] ∧ (∀ w, (0xBB, w) ∉ [((0x00 : Byte), (1 : Byte))]) ∧
    (∀ v, (0xFF, v) ∉ raced.writes) :=
  ⟨by decide, by decide, by decide, by decide, by decide, by decide, by decide, by decide, rfl, by decide,
    fun v => by simp [raced]⟩

/-- Moves of a run under the premise `NoForeignTraffic`, and of one in which every foreign master honours the lock. -/
theorem witness_NoForeignTraffic :
    NoForeignTraffic [.ectb, .ec, .ecChange 0xBB 1, .caller] ∧ ForeignMastersHonour [.ectb, .foreign true .readData] ∧
    (withGuard .perRequest (readTx .two .poll 0)).params.guard ≠ .absent :=
  ⟨fun _ _ => by simp, fun _ => by simp, by decide⟩

/-- R78: a foreign access within a transaction begins a race, whatever access it is; after the transaction's last access the EC is
the reference EC as the race left it, any registers written with any bytes. -/
theorem test_race_begins_and_ends :
    let s : State := withGuard .absent (readTx .three .act 0)
    let r : State := { s with env := { s.env with races := [raced] } }
    ecOf (step (r.scheduled [.foreign true .readStatus])) = some (.race (ecRef.after raced)) ∧
    ecOf (exec (.rdreg 0xBB) (inRace s)) = some (.ref ecRef) ∧
    (ecRef.after raced).regs.read 0xBB = some 9 ∧ (ecRef.after raced).regs.read 0x00 = some 1 ∧
    (ecRef.after raced).phase = .wrData 0x10 := by decide

/-- R229, V-R3: after an error that stopped its program the caller presents another request, and ECTB accepts it. -/
theorem test_request_after_error :
    let s : State := { idle with caller := { Caller.reset with prog := [0x10012C00], stopped := some 1 } }
    (match step (s.scheduled [.request 0x10001000]) with
      | .next t => t.caller.reqValid && t.caller.reqWord == 0x10001000 && t.caller.stopped == some 1
      | .fault _ => false
      | .refused _ => false) = true := by decide

/-- A foreign master that does not honour the lock is not excluded by it, and one that does is (R240). -/
theorem test_foreign_lock :
    let s := withGuard .perRequest (fieldSeq 6 2 0 tpad 1 8 8)
    ecOf (step (s.scheduled [.foreign true (.writeCommand 0x81)])) = some (.ref ecRef) ∧
    ecOf (step (s.scheduled [.foreign false (.writeCommand 0x81)])) = some (.ref (ecRef.deliver 0x81 true)) := by decide

/-- A request's step in each control state. -/
theorem witness_RequestStepFrame :
    (∃ t, exec (.setb 1 true) idle = .next t ∧ t.ectb.rspDone = false) ∧
    (∃ t, exec (.rdreg 0xBB) { acquiring with env := { Env.reset with grants := [true] } } = .next t) ∧
    (∃ t, exec (.setb 1 true) (fieldSeq 5 1 1 blue 0 0 0) = .next t) ∧
    (∃ t, exec (.rdreg 0xBB) (readTx .two .poll 1) = .next t) ∧
    (∃ t, exec (.rdreg 0xBB) (readTx .three .act 0) = .next t) :=
  ⟨⟨_, rfl, rfl⟩, ⟨_, rfl⟩, ⟨_, rfl⟩, ⟨_, rfl⟩, _, rfl⟩

theorem witness_EcCommandFrame :
    (∃ t, exec .ecReadCmd idle = .next t ∧ ∃ e, t.ec = .ref e) ∧
    (∃ t, exec .ecWriteCmd State.reset = .next t) ∧ State.reset.ec = .oracle ∧
    (∃ t, exec .ecWriteCmd (inRace (readTx .two .poll 0)) = .next t) :=
  ⟨⟨_, rfl, _, rfl⟩, ⟨_, rfl⟩, rfl, _, rfl⟩

/-- The EC stores the value byte of a write to 0xBB, and changes a register of its own. -/
theorem witness_OnlyTheEcChangesItsRegisters :
    let s : State := { idle with ec := .ref { ecRef.deliver 0x55 false with phase := .wrData 0xBB } }
    (∃ t, step (s.scheduled [.ec]) = .next t ∧ t.ecReg 0xBB = some 0x55 ∧ s.ecReg 0xBB = some 3 ∧ t.ec ≠ .oracle) ∧
    (∃ t, step (s.scheduled [.ecChange 0xFF 9]) = .next t ∧ t.ecReg 0xFF = some 9) ∧
    (∀ e ∈ [Event.ectb, .caller, .request 0x1000BB00, .reset], (s.scheduled [e]).nextEvent.1 = e ∧
      ∃ t, step (s.scheduled [e]) = .next t) :=
  ⟨⟨_, rfl, by decide, by decide, by decide⟩, ⟨_, rfl, by decide⟩, by
    simp only [List.forall_mem_cons, List.not_mem_nil, false_implies, implies_true, and_true]
    exact ⟨⟨rfl, _, rfl⟩, ⟨rfl, _, rfl⟩, ⟨rfl, _, rfl⟩, rfl, _, rfl⟩⟩

/-- A whole state for each clause on the caller: a word to present, ECTB busy, a response without and with an error, a response
that is due, one that a reset cleared, the end of the program, a word not yet accepted, and a program that stopped; and a request
that ends with an error at its ACCEPT, at the ACQ step and by a stall. -/
theorem witness_CallerAdvancesOrStops :
    let c : Caller := { Caller.reset with prog := [0x1000BB00] }
    let s (caller : Caller) (done : Bool) (err : BitVec 3) (fsm : Fsm) : State :=
      { idle with caller := caller, ectb := { idle.ectb with rspDone := done, rspErr := err, fsm := fsm } }
    let waits : Caller := { c with awaiting := true }
    let ready := s c false 0 .idle
    let busy := s c false 0 .seq
    let succeeded := s waits true 0 .idle
    let erred := s waits true 1 .idle
    let due := s waits false 0 .tx
    let ended := s { c with rp := 1 } true 0 .idle
    let cleared := s waits false 0 .idle
    (∀ t ∈ [ready, busy, succeeded, erred, due, ended, cleared],
      t.caller.stopped = none ∧ t.caller.reqValid = false) ∧
    (ready.caller.awaiting = false ∧ ready.ectb.fsm = .idle ∧
      ready.caller.prog[ready.caller.rp]? = some 0x1000BB00) ∧
    (busy.caller.awaiting = false ∧ busy.ectb.fsm = .seq) ∧
    (succeeded.caller.awaiting = true ∧ succeeded.ectb.rspDone = true ∧ succeeded.ectb.rspErr = 0) ∧
    (erred.caller.awaiting = true ∧ erred.ectb.rspDone = true ∧ erred.ectb.rspErr ≠ 0) ∧
    (due.caller.awaiting = true ∧ due.ectb.rspDone = false) ∧
    (ended.caller.awaiting = false ∧ ended.caller.rp = ended.caller.prog.length) ∧
    (cleared.caller.awaiting = true ∧ cleared.ectb.fsm = .idle ∧ cleared.ectb.rspDone = false) ∧
    (s { c with reqValid := true } false 0 .idle).caller.reqValid = true ∧
    (s { c with stopped := some 3 } true 3 .idle).caller.stopped ≠ none ∧
    (∀ t ∈ [presented 0x10012C00, { acquiring with env := { Env.reset with grants := [false] } },
        { readTx .three .poll 0 with params := { idle.params with pollLimit := .finite 1 } }],
      (ectbOf (step (t.scheduled [.ectb]))).map (fun c => c.rspErr != 0 && (c.fsm == .idle || c.fsm == .failed)) =
        some true) ∧
    (s { c with erred := true } false 0 .idle).exitCode = some 1 := by decide

/-- The exit code after a move that answers a next state. -/
def exitCodeOf : Out → Option Nat
  | .next t => t.exitCode
  | .fault _ => none
  | .refused _ => none

/-- R233: a request that no program presented ends in an error at its ACCEPT: the exit code is 1, and a reset right after leaves it
so. -/
theorem test_exit_code_of_any_request :
    let s := presented 0x10012C00
    exitCodeOf (step (s.scheduled [.ectb])) = some 1 ∧ exitCodeOf (run 2 (s.scheduled [.ectb, .reset])) = some 1 := by
  decide

/-- The invariant holds in each control state, with and without a limit, and in a race. -/
theorem witness_invariant :
    idle.inv = true ∧ acquiring.inv = true ∧ (fieldSeq 5 1 1 blue 1 0xA5 0).inv = true ∧
    (readTx .three .poll 0).inv = true ∧ failed.inv = true ∧ (inRace (readTx .three .poll 0)).inv = true ∧
    ({ readTx .three .poll 0 with params := { idle.params with pollLimit := .finite 1 } } : State).inv = true := by decide

theorem witness_PortsNeedPermission :
    (readTx .one .poll 0).inv = true ∧
    (∃ t, step ((readTx .one .poll 0).scheduled [.ectb]) = .next t ∧ t.trace ≠ (readTx .one .poll 0).trace) ∧
    ((readTx .one .poll 0).scheduled [.ectb]).nextEvent.1 ≠ .reset ∧
    (readTx .one .poll 0).ectb.acqState = .granted :=
  ⟨by decide, ⟨_, rfl, by decide⟩, by decide, rfl⟩

/-- The start state of the whole requests: ECTB ready, the EC at rest, registers seeded. -/
theorem witness_whole_requests :
    idle.ectb.ready = true ∧ idle.ec = .ref ecRef ∧ ecRef.atRest = true ∧ (0xBB : Half).toNat < 256 ∧
    ecRef.regs.read 0xBB = some 3 ∧ ecRef.regs.read 0xC2 = some 0x64 ∧ ecRef.regs.read 0xC3 = some 1 ∧
    ecRef.regs.read (Desc.addr (regmap idle.params 2)).toNat = some 8 ∧
    Desc.wf (regmap idle.params 2) = true ∧ Desc.kind (regmap idle.params 2) = .bool ∧
    Desc.wf (regmap idle.params 3) = true ∧ Desc.kind (regmap idle.params 3) = .level ∧
    Desc.wf (regmap idle.params 4) = true ∧ Desc.kind (regmap idle.params 4) = .u16le := by decide

/-- `GetiCompositeWholeRequest` on a SCALED field: `VOLT` with both its registers seeded. -/
theorem witness_GetiCompositeWholeRequest_scaled :
    let e : EcRef := { ecRef with regs := (ecRef.regs.write 0x80 0x3C).write 0x81 0x30 }
    e.atRest = true ∧ Desc.kind (regmap idle.params 5) = .scaled ∧ Desc.wf (regmap idle.params 5) = true ∧
    e.regs.read (Desc.addr (regmap idle.params 5)).toNat = some 0x3C ∧
    e.regs.read (Desc.addrHi (regmap idle.params 5)).toNat = some 0x30 := by decide

/-- A U16LE field (`BCAP`) and a SCALED one (`VOLT`). -/
theorem witness_CompositeMayCombineAnyTwoReadings :
    let s : State := { idle with ec := .oracle, env := { Env.reset with answers := [0, 0, 1, 0xFF, 0, 0, 1, 0x01] } }
    s.ectb.ready = true ∧ s.ec = .oracle ∧ Desc.wf (regmap s.params 4) = true ∧
    Desc.kind (regmap s.params 4) = .u16le ∧ Desc.wf (regmap s.params 5) = true ∧
    Desc.kind (regmap s.params 5) = .scaled ∧ (0 : Byte).getLsbD 1 = false ∧ (1 : Byte).getLsbD 0 = true ∧
    s.env.answers = [0, 0, 1, 0xFF, 0, 0, 1, 0x01] := by decide

theorem witness_FiniteLimitFinishesEveryRequest :
    let s : State := { readTx .three .poll 0 with params := { idle.params with pollLimit := .finite 1 } }
    s.inv = true ∧ s.params.pollLimit = .finite 1 ∧ s.ectb.fsm = .tx ∧
    Event.reset ∉ List.replicate 23 Event.ectb ∧ 9 * 1 + 14 ≤ (List.replicate 23 Event.ectb).count .ectb := by decide

/-- The last wait of a write, which the reference EC satisfies, ECTB moving alone and for ever: a run that meets `ECResponds`. -/
theorem witness_ECResponds :
    (writeTx .three .poll).inv = true ∧ (writeTx .three .poll).ectb.fsm = .tx ∧
    (writeTx .three .poll).ectb.waiting ∧ (writeTx .three .poll).params.pollLimit = .inf ∧
    (∀ n : Nat, (fun _ => Event.ectb) n ≠ .reset) ∧
    EctbFair (fun _ => .ectb) ∧ ECResponds (fun _ => .ectb) (writeTx .three .poll) := by
  have finishes : ∃ t, runMoves (fun _ => .ectb) 3 (writeTx .three .poll) = .next t ∧ t.ectb.fsm = .idle ∧
      t.caller.reqValid = false := ⟨_, rfl, rfl, rfl⟩
  obtain ⟨t, ht, hf, hv⟩ := finishes
  have stays : ∀ n, runMoves (fun _ => .ectb) (n + 3) (writeTx .three .poll) = .next t := by
    intro n
    induction n with
    | zero => exact ht
    | succ n ih =>
      rw [show n + 1 + 3 = (n + 3) + 1 by omega, runMoves, ih]
      have idles : ectbStep t = .next t := by simp [ectbStep, fetchRequest, hf, hv]
      show moveOf .ectb t = .next t
      rw [ectbMove_of_step idles, recordFinish_of_no_error]
      simp [State.finishes, Ectb.busy, hf, hv]
  refine ⟨by decide, rfl, ⟨rfl, rfl⟩, rfl, fun _ => by simp, fun n => ⟨n, Nat.le_refl n, rfl⟩, ?_⟩
  intro n u hu hw
  match n, hu with
  | 0, hu => cases hu; exact ⟨0, _, Nat.le_refl 0, rfl, rfl, hw, by decide⟩
  | 1, hu => cases hu; exact absurd hw.2 (by decide)
  | 2, hu => cases hu; exact absurd hw.1 (by decide)
  | n + 3, hu =>
    rw [stays n] at hu
    cases hu
    rw [Ectb.waiting, hf] at hw
    exact absurd hw.1 (by decide)

/-- A wait on the silent reference EC whose output buffer is empty. -/
theorem witness_NoLimitMayHangForEver :
    (readTx .three .poll 0).inv = true ∧ (readTx .three .poll 0).params.pollLimit = .inf ∧
    (readTx .three .poll 0).ec = .ref ecRef ∧ (readTx .three .poll 0).ectb.fsm = .tx ∧
    (readTx .three .poll 0).ectb.txSub = .poll ∧ waitHolds .rd .three ecRef.status = false := by decide

theorem witness_WaitEndsAtTheFirstSatisfiedPoll :
    let s : State := { readTx .one .poll 0 with
      ec := .oracle, env := { Env.reset with answers := [2, 3, 0] }, params := { idle.params with pollLimit := .finite 3 } }
    s.inv = true ∧ s.ec = .oracle ∧ s.ectb.fsm = .tx ∧ s.ectb.txSub = .poll ∧ s.env.answers = [2, 3] ++ 0 :: [] ∧
    (∀ b ∈ ([2, 3] : List Byte), waitHolds s.ectb.txKind s.ectb.txStage b = false) ∧
    waitHolds s.ectb.txKind s.ectb.txStage 0 = true ∧ s.ectb.polls + 2 < 3 := by decide

/-- Two idle ECTBs that differ in every latch, and a run of the first. -/
theorem witness_NoLatchIsReadBeforeItIsWritten :
    let c : Ectb := { idle.ectb with
      txKind := .wr, txStage := .three, txSub := .act, polls := 7, k := 2, opL := 6, raddrL := 1, rdataInL := 2,
      fidxL := 3, opndL := 4, descL := 5, addrL := 6, wdataL := 7, byte0 := 8, byte1 := 9 }
    idle.ectb.fsm = .idle ∧ c.fsm = .idle ∧ c.acqState = idle.ectb.acqState ∧ c.rspDone = idle.ectb.rspDone ∧
    c.rspErr = idle.ectb.rspErr ∧ c.rspValue = idle.ectb.rspValue ∧ c.rspScale = idle.ectb.rspScale ∧
    ∃ t, run 2 ((presented 0x30010000).scheduled [.ectb, .ectb]) = .next t ∧ t.ectb.fsm = .tx :=
  ⟨rfl, rfl, rfl, rfl, rfl, rfl, rfl, _, rfl, by decide⟩

end Sys2Proof.Tests
end

section
/-! PROOFS. ACCEPT in two parts: the latches it fills, then its verdict, which depends on the word and the ROM alone; and what
follows of the request the latches hold (10_state.md R25). -/

namespace Sys2Proof.Machine

/-! ### ACCEPT: the latches it fills, then its verdict -/

/-- A transport request; the other requests are field requests. -/
def isTransport : Instr → Bool
  | .rdreg _ => true
  | .wrreg _ _ => true
  | _ => false

/-- ECTB with the latches of a transport request filled (R130). -/
def Ectb.latchTransport (op : BitVec 4) (addr : Half) (data : Byte) (c : Ectb) : Ectb :=
  { c.acceptOp op with raddrL := addr, rdataInL := data }

/-- ECTB with the latches of a field request filled (R130). -/
def Ectb.latchField (op : BitVec 4) (fidx : Byte) (opnd : Half) (d : Descriptor) (c : Ectb) : Ectb :=
  { c.acceptOp op with fidxL := fidx, opndL := opnd, descL := d }

/-- ECTB with the latches of a request filled, before ACCEPT's checks. -/
def Ectb.latched (p : Params) (i : Instr) (c : Ectb) : Ectb :=
  match i with
  | .rdreg addr => c.latchTransport opRdreg addr 0
  | .wrreg addr value => c.latchTransport opWrreg addr value
  | .getb fidx => c.latchField opGetb fidx 0 (regmap p fidx)
  | .geti fidx => c.latchField opGeti fidx 0 (regmap p fidx)
  | .setb fidx value => c.latchField opSetb fidx (Sys2Proof.boolOperand value) (regmap p fidx)
  | .togl fidx => c.latchField opTogl fidx 0 (regmap p fidx)
  | .setl fidx n => c.latchField opSetl fidx n (regmap p fidx)
  | .ecReadCmd => c
  | .ecWriteCmd => c

section Latched
variable (p : Params) (i : Instr) (c : Ectb)

@[simp] theorem latched_txKind : (c.latched p i).txKind = c.txKind := by cases i <;> rfl
@[simp] theorem latched_addrL : (c.latched p i).addrL = c.addrL := by cases i <;> rfl
@[simp] theorem latched_wdataL : (c.latched p i).wdataL = c.wdataL := by cases i <;> rfl
@[simp] theorem latched_byte0 : (c.latched p i).byte0 = c.byte0 := by cases i <;> rfl
@[simp] theorem latched_byte1 : (c.latched p i).byte1 = c.byte1 := by cases i <;> rfl
@[simp] theorem latched_acqState : (c.latched p i).acqState = c.acqState := by cases i <;> rfl
@[simp] theorem latched_rspErr : (c.latched p i).rspErr = c.rspErr := by cases i <;> rfl
@[simp] theorem latched_rspValue : (c.latched p i).rspValue = c.rspValue := by cases i <;> rfl
@[simp] theorem latched_rspScale : (c.latched p i).rspScale = c.rspScale := by cases i <;> rfl

/-- A request's ACCEPT clears the response before its checks (R130). -/
theorem latched_rspDone (hi : isRequest i = true) : (c.latched p i).rspDone = false := by
  cases i with
  | ecReadCmd => cases hi
  | ecWriteCmd => cases hi
  | _ => rfl

end Latched

/-- The error of a transport request's range check (R222). -/
def transportError (addr : Half) : Option ErrorKind :=
  if addrInRange addr then none else some .invalidRegister

/-- The error of a field request's descriptor and kind checks (R225, R226, R227). -/
def fieldError (op : BitVec 4) (d : Descriptor) : Option ErrorKind :=
  if !Desc.wf d then some .invalidField else if !kindOk op (Desc.kind d) then some .invalidRequest else none

/-- The error a request's ACCEPT ends with, if any: a matter of its word and the ROM alone. -/
def acceptError (p : Params) : Instr → Option ErrorKind
  | .rdreg addr => transportError addr
  | .wrreg addr _ => transportError addr
  | .getb fidx => fieldError opGetb (regmap p fidx)
  | .geti fidx => fieldError opGeti (regmap p fidx)
  | .setb fidx _ => fieldError opSetb (regmap p fidx)
  | .togl fidx => fieldError opTogl (regmap p fidx)
  | .setl fidx _ => fieldError opSetl (regmap p fidx)
  | .ecReadCmd => none
  | .ecWriteCmd => none

/-- The end of ACCEPT: the request goes on, or it ends with an error. -/
def Ectb.conclude (e : Option ErrorKind) (c : Ectb) : Ectb :=
  match e with
  | none => c.beginRequest
  | some e => c.finishError e

@[simp] theorem conclude_none (c : Ectb) : c.conclude none = c.beginRequest := rfl
@[simp] theorem conclude_some (e : ErrorKind) (c : Ectb) : c.conclude (some e) = c.finishError e := rfl

theorem acceptTransport_eq (op : BitVec 4) (addr : Half) (data : Byte) (c : Ectb) :
    c.acceptTransport op addr data = (c.latchTransport op addr data).conclude (transportError addr) := by
  unfold Ectb.acceptTransport transportError
  split <;> rfl

theorem acceptField_eq (op : BitVec 4) (fidx : Byte) (opnd : Half) (d : Descriptor) (c : Ectb) :
    c.acceptField op fidx opnd d = (c.latchField op fidx opnd d).conclude (fieldError op d) := by
  unfold Ectb.acceptField fieldError
  split
  · rfl
  · split <;> rfl

/-- ACCEPT fills the latches, then concludes by its checks. -/
theorem acceptOf_eq {i : Instr} (hi : isRequest i = true) (s : State) :
    acceptOf i s =
      s.takeRequest.onEctb (fun c => (c.latched s.params i).conclude (acceptError s.params i)) := by
  cases i with
  | ecReadCmd => cases hi
  | ecWriteCmd => cases hi
  | rdreg addr => exact congrArg (s.takeRequest.onEctb ·) (funext fun c => acceptTransport_eq _ _ _ c)
  | wrreg addr value => exact congrArg (s.takeRequest.onEctb ·) (funext fun c => acceptTransport_eq _ _ _ c)
  | _ => exact congrArg (s.takeRequest.onEctb ·) (funext fun c => acceptField_eq _ _ _ _ c)

/-- ACCEPT never denies permission, so an error of its own leaves ECTB in `IDLE`. -/
theorem acceptError_ne_permissionDenied (p : Params) (i : Instr) : acceptError p i ≠ some .permissionDenied := by
  have ht (addr : Half) : transportError addr ≠ some .permissionDenied := by
    unfold transportError; split <;> simp
  have hf (op : BitVec 4) (d : Descriptor) : fieldError op d ≠ some .permissionDenied := by
    unfold fieldError; (repeat' split) <;> simp
  cases i <;> simp [acceptError, ht, hf]

/-- Filled latches hold the request they were filled from (R25, R142). -/
theorem latched_current {i : Instr} (hi : isRequest i = true) (p : Params) (c : Ectb) :
    (c.latched p i).current = some i := by
  cases i with
  | ecReadCmd => cases hi
  | ecWriteCmd => cases hi
  | setb fidx value =>
    show some (Instr.setb fidx ((Sys2Proof.boolOperand value).getLsbD 0)) = _
    simp
  | _ => rfl

@[simp] theorem beginRequest_current (c : Ectb) : c.beginRequest.current = c.current := rfl

/-- Settles O8: a request that goes on passed ACCEPT's checks, and `beginRequest` leaves the latches as filled. -/
theorem acceptedLatchesHoldTheRequest : Obligations.AcceptedLatchesHoldTheRequest := by
  intro i s t hf ht hgo
  cases hi : isRequest i with
  | false =>
    have same : t.ectb = s.ectb := by
      cases i <;> simp [isRequest] at hi <;> cases ht <;> unfold beginPhase <;> split <;> rfl
    exact absurd (same ▸ hf) hgo
  | true =>
    rw [exec_idle hi hf] at ht
    cases ht
    rw [acceptOf_eq hi] at hgo ⊢
    cases he : acceptError s.params i with
    | none => simpa [he] using latched_current hi s.params s.ectb
    | some e =>
      have hne : e ≠ .permissionDenied := fun h => acceptError_ne_permissionDenied s.params i (h ▸ he)
      simp [he, hne] at hgo

end Sys2Proof.Machine
end

section
/-! PROOFS. The relation between two ECTBs that differ only in latches and `tx_*` fields no rule will read before it writes them
(10_state.md R26), and why it fixes the next entry of the request's list. -/

namespace Sys2Proof.Machine

/-! ### Two ECTBs that differ only in what no rule reads again -/

/-- How many entries at the head of a request's list may be reads; every write comes after them. -/
def readsOf : Instr → Nat
  | .rdreg _ => 1
  | .wrreg _ _ => 0
  | .getb _ => 1
  | .geti _ => 2
  | .setb _ _ => 1
  | .togl _ => 2
  | .setl _ _ => 0
  | .ecReadCmd => 0
  | .ecWriteCmd => 0

/-- Both are within request `i` at the same entry of its list, and agree on the latches of its format and on the result bytes
its reads have filled so far. -/
structure SameRequest (i : Instr) (c d : Ectb) : Prop where
  current : c.current = some i
  current' : d.current = some i
  k : d.k = c.k
  transport : isTransport i = true → d.raddrL = c.raddrL ∧ d.rdataInL = c.rdataInL
  field : isTransport i = false → d.opndL = c.opndL ∧ d.descL = c.descL
  byte0 : 0 < readsOf i → 0 < c.k → d.byte0 = c.byte0
  byte1 : 1 < readsOf i → 1 < c.k → d.byte1 = c.byte1

/-- Both are at the same point of the same transaction of request `i`. -/
structure SameTransaction (i : Instr) (c d : Ectb) : Prop where
  txKind : d.txKind = c.txKind
  txStage : d.txStage = c.txStage
  txSub : d.txSub = c.txSub
  polls : d.polls = c.polls
  addrL : d.addrL = c.addrL
  wdataL : c.txKind = .wr → d.wdataL = c.wdataL
  /-- a write has every read of the request behind it -/
  readsDone : c.txKind = .wr → readsOf i ≤ c.k

/-- Two ECTBs no rule tells apart: the same control state, permission and response, and whatever else the request in progress
has written already. -/
structure Alike (c d : Ectb) : Prop where
  fsm : d.fsm = c.fsm
  acqState : d.acqState = c.acqState
  rspDone : d.rspDone = c.rspDone
  rspErr : d.rspErr = c.rspErr
  rspValue : d.rspValue = c.rspValue
  rspScale : d.rspScale = c.rspScale
  within : c.busy = true → ∃ i, SameRequest i c d ∧ (c.fsm = .tx → SameTransaction i c d)

section Request
variable {i : Instr} {c d : Ectb}

@[simp] theorem finishError_busy (e : ErrorKind) (c : Ectb) : (c.finishError e).busy = false := by
  cases e <;> rfl

@[simp] theorem finishOk_busy (v sc : Half) (c : Ectb) : (c.finishOk v sc).busy = false := rfl

/-- ECTBs that finish a request with the same error are alike, whatever they were before. -/
theorem Alike.of_finishError (e : ErrorKind) (h : d.acqState = c.acqState) :
    Alike (c.finishError e) (d.finishError e) :=
  ⟨rfl, h, rfl, rfl, rfl, rfl, fun hb => by simp at hb⟩

theorem Alike.of_finishOk (v sc : Half) (h : d.acqState = c.acqState) :
    Alike (c.finishOk v sc) (d.finishOk v sc) :=
  ⟨rfl, h, rfl, rfl, rfl, rfl, fun hb => by simp at hb⟩

/-- Any two ECTBs that fill their latches from one request, and go on with it, are within the same request (R130). -/
theorem latched_sameRequest (hi : isRequest i = true) (p : Params) (c d : Ectb) :
    SameRequest i (c.latched p i).beginRequest (d.latched p i).beginRequest where
  current := by simpa using latched_current hi p c
  current' := by simpa using latched_current hi p d
  k := rfl
  transport h := by
    cases i with
    | rdreg addr => exact ⟨rfl, rfl⟩
    | wrreg addr value => exact ⟨rfl, rfl⟩
    | _ => cases h
  field h := by
    cases i with
    | rdreg addr => cases h
    | wrreg addr value => cases h
    | ecReadCmd => cases hi
    | ecWriteCmd => cases hi
    | _ => exact ⟨rfl, rfl⟩
  byte0 _ h := by cases h
  byte1 _ h := by cases h

/-- The lists and results of two ECTBs within the same request: the entry that is next is the same one, a write comes after
every read, and where the list is at its end the results are the same. -/
structure SamePlan (i : Instr) (k : Nat) (p q : Plan) : Prop where
  next : q.txs[k]? = p.txs[k]?
  readsDone : ∀ a v, p.txs[k]? = some (.wr a v) → readsOf i ≤ k
  result : p.txs[k]? = none → q.value = p.value ∧ q.scale = p.scale

/-- Plans of the same reads, whose writes and results agree once those reads are made. -/
theorem samePlan_of_reads {k : Nat} (as : List Byte) (ws ws' : List Transaction) {v v' sc : Half}
    (hw : ws ≠ [] → readsOf i ≤ as.length) (h : as.length ≤ k → ws' = ws ∧ v' = v) :
    SamePlan i k ⟨as.map .rd ++ ws, v, sc⟩ ⟨as.map .rd ++ ws', v', sc⟩ := by
  rcases lt_or_ge k as.length with hk | hk
  · have head (xs : List Transaction) : (as.map Transaction.rd ++ xs)[k]? = some (.rd as[k]) := by
      simp [List.getElem?_append_left, hk]
    exact ⟨(head ws').trans (head ws).symm, by simp [head], by simp [head]⟩
  · obtain ⟨rfl, rfl⟩ := h hk
    refine ⟨rfl, fun a v hr => (hw ?_).trans hk, fun _ => ⟨rfl, rfl⟩⟩
    rintro rfl
    simp [hk] at hr

/-- Two ECTBs within the same request have the same entry of its list next, or the same result (R26). -/
theorem SameRequest.plan (h : SameRequest i c d) {p : Plan} (hp : planOf i c = some p) :
    ∃ q, planOf i d = some q ∧ SamePlan i c.k p q := by
  obtain ⟨-, -, -, ht, hf, h0, h1⟩ := h
  cases i with
  | rdreg addr =>
    obtain ⟨ha, -⟩ := ht rfl
    cases hp
    simp only [planOf, rdregPlan, Ectb.txAddr, ha]
    exact ⟨_, rfl, samePlan_of_reads [_] [] [] (by simp) fun hk => ⟨rfl, by rw [h0 Nat.one_pos hk]⟩⟩
  | wrreg addr value =>
    obtain ⟨ha, hv⟩ := ht rfl
    cases hp
    simp only [planOf, wrregPlan, Ectb.txAddr, ha, hv]
    exact ⟨_, rfl, samePlan_of_reads [] [_] [_] (fun _ => Nat.le_refl _) fun _ => ⟨rfl, rfl⟩⟩
  | getb fidx =>
    obtain ⟨-, hd⟩ := hf rfl
    cases hp
    simp only [planOf, getbPlan, hd]
    exact ⟨_, rfl, samePlan_of_reads [_] [] [] (by simp) fun hk => ⟨rfl, by rw [h0 Nat.one_pos hk]⟩⟩
  | geti fidx =>
    obtain ⟨-, hd⟩ := hf rfl
    have oneByte {f : Byte → Descriptor → Byte} :
        SamePlan (.geti fidx) c.k (byteFieldPlan c (f c.byte0 c.descL)) (byteFieldPlan d (f d.byte0 c.descL)) := by
      simp only [byteFieldPlan, hd]
      exact samePlan_of_reads [_] [] [] (by simp) fun hk => ⟨rfl, by rw [h0 Nat.two_pos hk]⟩
    have twoBytes {sc : Half} : SamePlan (.geti fidx) c.k (wordFieldPlan c sc) (wordFieldPlan d sc) := by
      simp only [wordFieldPlan, hd]
      exact samePlan_of_reads [_, _] [] [] (by simp) fun hk =>
        ⟨rfl, by rw [h0 Nat.two_pos (Nat.lt_of_lt_of_le Nat.two_pos hk), h1 Nat.one_lt_two hk]⟩
    simp only [planOf, getiPlan, hd] at hp ⊢
    cases hkind : Desc.kind c.descL <;> simp only [hkind] at hp ⊢ <;> cases hp
    · exact ⟨_, rfl, oneByte (f := enumDecode)⟩
    · exact ⟨_, rfl, oneByte (f := u8Decode)⟩
    · exact ⟨_, rfl, twoBytes⟩
    · exact ⟨_, rfl, twoBytes⟩
    · exact ⟨_, rfl, oneByte (f := fun b _ => b)⟩
    · exact ⟨_, rfl, oneByte (f := maskedGtDecode)⟩
  | setb fidx value =>
    obtain ⟨ho, hd⟩ := hf rfl
    cases hp
    simp only [planOf, setbPlan, Ectb.boolOperand, ho, hd]
    exact ⟨_, rfl, samePlan_of_reads [_] [_] [_] (fun _ => Nat.le_refl _) fun hk => ⟨by rw [h0 Nat.one_pos hk], rfl⟩⟩
  | togl fidx =>
    obtain ⟨-, hd⟩ := hf rfl
    cases hp
    simp only [planOf, toglPlan, hd]
    exact ⟨_, rfl, samePlan_of_reads [_, _] [_] [_] (fun _ => Nat.le_refl _) fun hk =>
      ⟨by rw [h0 Nat.two_pos (Nat.lt_of_lt_of_le Nat.two_pos hk), h1 Nat.one_lt_two hk], rfl⟩⟩
  | setl fidx n =>
    obtain ⟨ho, hd⟩ := hf rfl
    cases hp
    simp only [planOf, setlPlan, ho, hd]
    exact ⟨_, rfl, samePlan_of_reads [] [_] [_] (fun _ => Nat.le_refl _) fun _ => ⟨rfl, rfl⟩⟩
  | ecReadCmd => cases hp
  | ecWriteCmd => cases hp

end Request
end Sys2Proof.Machine
end

section
/-! PROOFS. Two ECTBs alike: after each of ECTB's operations, and in the eyes of the other agents. -/

namespace Sys2Proof.Machine

section Moves
variable {i : Instr} {c d : Ectb}

/-! ### ECTB's operations keep two ECTBs alike -/

/-- Within a request both agree on it. -/
theorem Alike.request (h : Alike c d) (hi : c.current = some i) (hb : c.busy = true) :
    SameRequest i c d ∧ (c.fsm = .tx → SameTransaction i c d) := by
  obtain ⟨j, hr, ht⟩ := h.within hb
  obtain rfl : j = i := Option.some.inj (hr.current.symm.trans hi)
  exact ⟨hr, ht⟩

theorem Alike.acquire (h : Alike c d) (hr : SameRequest i c d) (g : Bool) : Alike (c.acquire g) (d.acquire g) := by
  cases g with
  | false => exact .of_finishError _ h.acqState
  | true => exact { h with fsm := rfl, acqState := rfl, within := fun _ => ⟨i, { hr with }, (nomatch ·)⟩ }

/-- A transaction that starts is the same one on both sides. -/
theorem Alike.start (h : Alike c d) (hr : SameRequest i c d) (t : Transaction)
    (hdone : ∀ a v, t = .wr a v → readsOf i ≤ c.k) : Alike (c.start t) (d.start t) := by
  cases t with
  | rd a =>
    exact { h with
      fsm := rfl
      within := fun _ =>
        ⟨i, { hr with }, fun _ => ⟨rfl, rfl, rfl, rfl, rfl, (nomatch ·), (nomatch ·)⟩⟩ }
  | wr a v =>
    exact { h with
      fsm := rfl
      within := fun _ =>
        ⟨i, { hr with }, fun _ => ⟨rfl, rfl, rfl, rfl, rfl, fun _ => rfl, fun _ => hdone a v rfl⟩⟩ }

theorem Alike.sequence (h : Alike c d) (hr : SameRequest i c d) {p q : Plan} (hp : SamePlan i c.k p q) :
    Alike (c.sequence p) (d.sequence q) := by
  obtain ⟨hnext, hdone, hresult⟩ := hp
  unfold Ectb.sequence
  rw [hr.k, hnext]
  cases hk : p.txs[c.k]? with
  | none =>
    obtain ⟨hv, hsc⟩ := hresult hk
    rw [hv, hsc]
    exact .of_finishOk _ _ h.acqState
  | some t => exact h.start hr t fun a v ht => hdone a v (by rw [hk, ht])

theorem Alike.polled (h : Alike c d) (hr : SameRequest i c d) (ht : SameTransaction i c d) (lim : PollLimit) (st : Byte) :
    Alike (c.polled lim st) (d.polled lim st) := by
  have goesOn {sub sub' : TxSub} (hsub : sub' = sub) : Alike { c with polls := c.polls + 1, txSub := sub }
      { d with polls := d.polls + 1, txSub := sub' } :=
    { h with
      within := fun _ => ⟨i, { hr with }, fun _ => { ht with txSub := hsub, polls := congrArg (· + 1) ht.polls }⟩ }
  have hw : waitHolds d.txKind d.txStage st = waitHolds c.txKind c.txStage st := by rw [ht.txKind, ht.txStage]
  have hl : pollLimitReached lim (d.polls + 1) = pollLimitReached lim (c.polls + 1) := by rw [ht.polls]
  simp only [Ectb.polled, hw, hl]
  split
  · exact goesOn rfl
  · split
    · exact .of_finishError _ h.acqState
    · exact goesOn ht.txSub

theorem Alike.nextStage (h : Alike c d) (hr : SameRequest i c d) (ht : SameTransaction i c d) (g : TxStage) :
    Alike (c.nextStage g) (d.nextStage g) :=
  { h with within := fun _ => ⟨i, { hr with }, fun _ => { ht with txStage := rfl, txSub := rfl, polls := rfl }⟩ }

/-- The end of a read that fills the first result byte. -/
theorem Alike.endRead_zero (h : Alike c d) (hr : SameRequest i c d) (hk : c.k = 0) (b : Byte) :
    Alike (Ectb.endTx { c with byte0 := b }) (Ectb.endTx { d with byte0 := b }) :=
  { h with
    fsm := rfl
    within := fun _ =>
      ⟨i, { hr with k := congrArg (· + 1) hr.k, byte0 := fun _ _ => rfl, byte1 := fun _ h1 => by simp [hk] at h1 },
        (nomatch ·)⟩ }

/-- The end of a read that fills the second result byte. -/
theorem Alike.endRead_one (h : Alike c d) (hr : SameRequest i c d) (hk : c.k = 1) (b : Byte) :
    Alike (Ectb.endTx { c with byte1 := b }) (Ectb.endTx { d with byte1 := b }) :=
  { h with
    fsm := rfl
    within := fun _ =>
      ⟨i, { hr with k := congrArg (· + 1) hr.k, byte0 := fun hn _ => hr.byte0 hn (by omega), byte1 := fun _ _ => rfl },
        (nomatch ·)⟩ }

/-- The end of a write: the result bytes that will be read are filled already. -/
theorem Alike.endWrite (h : Alike c d) (hr : SameRequest i c d) (hdone : readsOf i ≤ c.k) :
    Alike c.endTx d.endTx :=
  { h with
    fsm := rfl
    within := fun _ =>
      ⟨i, { hr with
            k := congrArg (· + 1) hr.k
            byte0 := fun hn _ => hr.byte0 hn (by omega)
            byte1 := fun hn _ => hr.byte1 hn (by omega) },
        (nomatch ·)⟩ }

/-! ### What other agents see of ECTB -/

theorem Alike.busy (h : Alike c d) : d.busy = c.busy := by simp [Ectb.busy, h.fsm]

theorem Alike.txOpen (h : Alike c d) : d.txOpen = c.txOpen := by
  by_cases hf : c.fsm = .tx
  · obtain ⟨i, -, ht⟩ := h.within ((busy_iff c).2 (by simp [hf]))
    obtain ⟨-, hstage, hsub, hpolls, -⟩ := ht hf
    simp [Ectb.txOpen, h.fsm, hstage, hsub, hpolls]
  · have closed (e : Ectb) (he : e.fsm = c.fsm) : e.txOpen = false := by
      by_contra ho
      exact hf (he ▸ txOpen_fsm (by simpa using ho))
    rw [closed d h.fsm, closed c rfl]

theorem Alike.lockHeld (h : Alike c d) (g : Guard) : d.lockHeld g = c.lockHeld g := by
  cases g with
  | absent => rfl
  | perTransaction => exact h.txOpen
  | perRequest =>
    unfold Ectb.lockHeld
    rw [h.txOpen, h.fsm]
    cases hb : c.busy with
    | true =>
      obtain ⟨i, hr, -⟩ := h.within hb
      rw [hr.k]
    | false => rcases (not_busy_iff c).1 hb with hf | hf <;> rw [hf] <;> rfl

theorem Alike.callerMove (h : Alike c d) (r : Caller) : r.move d = r.move c := by
  unfold Caller.move Ectb.reqReady
  rw [h.fsm, h.rspDone, h.rspErr]

theorem Alike.callerSubmit (h : Alike c d) (q : ReqWord) (r : Caller) : r.submit d q = r.submit c q := by
  unfold Caller.submit Caller.responseDue Ectb.reqReady
  rw [h.busy, h.fsm, h.rspDone]

end Moves

end Sys2Proof.Machine
end

section
/-! PROOFS. Every operation of the machine commutes with putting another ECTB in it. -/

namespace Sys2Proof.Machine

/-! ### The rest of the machine under another ECTB -/

/-- The machine with another ECTB in it, everything else as it is. -/
def State.withEctb (d : Ectb) (s : State) : State := { s with ectb := d }

section WithEctb
variable (d : Ectb) (s : State)

@[simp] theorem withEctb_ectb : (s.withEctb d).ectb = d := rfl
@[simp] theorem withEctb_ec : (s.withEctb d).ec = s.ec := rfl
@[simp] theorem withEctb_caller : (s.withEctb d).caller = s.caller := rfl
@[simp] theorem withEctb_env : (s.withEctb d).env = s.env := rfl
@[simp] theorem withEctb_params : (s.withEctb d).params = s.params := rfl

theorem onEctb_withEctb (f : Ectb → Ectb) : (s.withEctb d).onEctb f = (s.onEctb f).withEctb (f d) := rfl
theorem endRace_withEctb : (s.withEctb d).endRace = s.endRace.withEctb d := rfl
theorem writeCommand_withEctb (b : Byte) : writeCommand b (s.withEctb d) = (writeCommand b s).withEctb d := rfl
theorem writeData_withEctb (b : Byte) : writeData b (s.withEctb d) = (writeData b s).withEctb d := rfl

theorem nextEvent_withEctb : (s.withEctb d).nextEvent = (s.nextEvent.1, s.nextEvent.2.withEctb d) := by
  simp only [State.nextEvent, withEctb_env]; split <;> rfl

theorem drawByte_withEctb (f : Nat → Byte) :
    (s.withEctb d).drawByte f = ((s.drawByte f).1, (s.drawByte f).2.withEctb d) := by
  simp only [State.drawByte, withEctb_env]; split <;> rfl

theorem drawGrant_withEctb : (s.withEctb d).drawGrant = (s.drawGrant.1, s.drawGrant.2.withEctb d) := by
  simp only [State.drawGrant, withEctb_env]; split <;> rfl

theorem drawRace_withEctb : (s.withEctb d).drawRace = (s.drawRace.1, s.drawRace.2.withEctb d) := by
  simp only [State.drawRace, withEctb_env]; split <;> rfl

theorem readStatus_withEctb : readStatus (s.withEctb d) = ((readStatus s).1, (readStatus s).2.withEctb d) := by
  simp only [readStatus, withEctb_ec, drawStatus, drawByte_withEctb]; split <;> rfl

theorem readData_withEctb : readData (s.withEctb d) = ((readData s).1, (readData s).2.withEctb d) := by
  simp only [readData, withEctb_ec, drawData, drawByte_withEctb]; split <;> rfl

theorem acqStep_withEctb : acqStep (s.withEctb d) = (acqStep s).withEctb (d.acquire s.drawGrant.1) := by
  simp only [acqStep, drawGrant_withEctb, onEctb_withEctb]

/-- Whether a race is over depends on ECTB's transaction alone. -/
theorem settleRace_withEctb (h : d.txOpen = s.ectb.txOpen) :
    (s.withEctb d).settleRace = s.settleRace.withEctb d := by
  simp only [State.settleRace, withEctb_ectb, h]; split <;> rfl

theorem beginPhase_withEctb (p : EcPhase) : beginPhase p (s.withEctb d) = (beginPhase p s).withEctb d := by
  simp only [beginPhase, withEctb_ec]; split <;> rfl

theorem ecAnswer_withEctb (e : EcRef) : ecAnswer e (s.withEctb d) = (ecAnswer e s).withEctb d := by
  simp only [ecAnswer, drawByte_withEctb]; split <;> rfl

theorem ecDataByte_withEctb (e : EcRef) : ecDataByte e (s.withEctb d) = (ecDataByte e s).withEctb d := by
  simp only [ecDataByte, ecAnswer_withEctb]; split <;> rfl

theorem ecChange_withEctb (a v : Byte) : ecChange a v (s.withEctb d) = (ecChange a v s).withEctb d := by
  simp only [ecChange, withEctb_ec]; split <;> rfl

theorem beginRace_withEctb (e : EcRef) : beginRace e (s.withEctb d) = (beginRace e s).withEctb d := by
  simp only [beginRace, drawRace_withEctb]; rfl

end WithEctb

/-- The EC's move reads nothing of ECTB. -/
theorem ecStep_withEctb (d : Ectb) {s t : State} (h : ecStep s = .next t) :
    ecStep (s.withEctb d) = .next (t.withEctb d) := by
  unfold ecStep at h ⊢
  rw [withEctb_ec]
  cases he : s.ec with
  | oracle => rw [he] at h; cases h; rfl
  | race e => rw [he] at h; cases h; rfl
  | ref e =>
    simp only [he] at h ⊢
    cases hb : e.ibf with
    | false => simp only [hb] at h ⊢; cases h; rfl
    | true =>
      cases hc : e.inIsCmd with
      | false => simp only [hb, hc, ecDataByte_withEctb] at h ⊢; cases h; rfl
      | true =>
        simp only [hb, hc, if_true] at h ⊢
        cases hd : decode (.command e.inByte) with
        | ok i =>
          simp only [hd] at h ⊢
          rcases decodeCommand_cases hd with ⟨-, rfl⟩ | ⟨-, rfl⟩
          · cases h; exact congrArg _ (beginPhase_withEctb d s .rdAddr)
          · cases h; exact congrArg _ (beginPhase_withEctb d s .wrAddr)
        | error _ => simp only [hd] at h ⊢; cases h; rfl

/-- A foreign access sees of ECTB only whether it holds the lock and whether a transaction is under way. -/
theorem foreignStep_withEctb {d : Ectb} {s : State} (h : Alike s.ectb d) (honours : Bool) (x : ForeignAccess) :
    foreignStep honours x (s.withEctb d) = (foreignStep honours x s).withEctb d := by
  simp only [foreignStep, withEctb_ectb, withEctb_params, withEctb_ec, h.lockHeld, h.txOpen, beginRace_withEctb]
  (repeat' split) <;> rfl

end Sys2Proof.Machine
end

section
/-! PROOFS. The simulation: one move, one step and a run on two ECTBs alike (10_state.md R26). -/

namespace Sys2Proof.Machine

/-! ### ECTB's step on two ECTBs alike -/

/-- Within a request, ECTB's step is the step of the request its latches hold. -/
theorem ectbStep_of_current {s : State} {i : Instr} (hb : s.ectb.busy = true) (hi : s.ectb.current = some i) :
    ectbStep s = exec i s := by
  rcases (busy_iff _).1 hb with hf | hf | hf <;> simp [ectbStep, hf, continueRequest, hi]

/-- An idle ECTB with a word presented that decodes runs its request. -/
theorem ectbStep_of_decode {s : State} {i : Instr} (hf : s.ectb.fsm = .idle) (hv : s.caller.reqValid = true)
    (hd : decode (.request s.caller.reqWord) = .ok i) : ectbStep s = .next (acceptOf i s) := by
  simp [ectbStep, hf, fetchRequest, hv, hd, exec_idle (decodeRequest_isRequest hd) hf]

/-- An idle ECTB with a word presented that spells no request ends it at once. -/
theorem ectbStep_of_decodeError {s : State} {e : DecodeError} (hf : s.ectb.fsm = .idle) (hv : s.caller.reqValid = true)
    (hd : decode (.request s.caller.reqWord) = .error e) : ectbStep s = .next (acceptInvalid s.caller.reqWord s) := by
  simp [ectbStep, hf, fetchRequest, hv, hd]

/-- ACCEPT of the same request makes alike two ECTBs that agree on permission and response (R25, R130). -/
theorem Alike.accept {i : Instr} {c d : Ectb} (h : Alike c d) (hi : isRequest i = true) (p : Params) :
    Alike ((c.latched p i).conclude (acceptError p i)) ((d.latched p i).conclude (acceptError p i)) := by
  have hacq : (d.latched p i).acqState = (c.latched p i).acqState := by simp [h.acqState]
  cases acceptError p i with
  | some e => exact .of_finishError e hacq
  | none =>
    exact
      { fsm := by simp [h.acqState]
        acqState := hacq
        rspDone := by simp [latched_rspDone, hi]
        rspErr := by simp [h.rspErr]
        rspValue := by simp [h.rspValue]
        rspScale := by simp [h.rspScale]
        within := fun _ =>
          ⟨i, latched_sameRequest hi p c d, fun hf => by
            rw [conclude_none, beginRequest_fsm] at hf
            split at hf <;> cases hf⟩ }

/-- ACCEPT of whatever word is presented keeps two idle ECTBs alike. -/
theorem acceptStep_alike {s t : State} {d : Ectb} (h : Alike s.ectb d) (hf : s.ectb.fsm = .idle)
    (hv : s.caller.reqValid = true) (hs : ectbStep s = .next t) :
    ∃ d', ectbStep (s.withEctb d) = .next (t.withEctb d') ∧ Alike t.ectb d' := by
  have hfd : (s.withEctb d).ectb.fsm = .idle := h.fsm.trans hf
  cases hd : decode (.request s.caller.reqWord) with
  | ok i =>
    have hi := decodeRequest_isRequest hd
    rw [ectbStep_of_decode hf hv hd, acceptOf_eq hi] at hs
    cases hs
    rw [ectbStep_of_decode hfd hv hd, acceptOf_eq hi]
    exact ⟨_, rfl, h.accept hi s.params⟩
  | error e =>
    rw [ectbStep_of_decodeError hf hv hd] at hs
    cases hs
    rw [ectbStep_of_decodeError hfd hv hd]
    exact ⟨_, rfl, .of_finishError .invalidRequest h.acqState⟩

section Access
variable {s : State}

/-! The row of R132 that an access is, by kind, stage and for a data read by `k` (R137, R138). -/

theorem actStep_rd_one (hk : s.ectb.txKind = .rd) (hg : s.ectb.txStage = .one) :
    actStep s = .next ((writeCommand Config.cmdRead s).onEctb (Ectb.nextStage .two)) := by
  simp only [actStep, hk, hg]

theorem actStep_wr_one (hk : s.ectb.txKind = .wr) (hg : s.ectb.txStage = .one) :
    actStep s = .next ((writeCommand Config.cmdWrite s).onEctb (Ectb.nextStage .two)) := by
  simp only [actStep, hk, hg]

theorem actStep_two (hg : s.ectb.txStage = .two) :
    actStep s = .next ((writeData s.ectb.addrL s).onEctb (Ectb.nextStage .three)) := by
  cases hk : s.ectb.txKind <;> simp only [actStep, hk, hg]

theorem actStep_rd_three_zero (hk : s.ectb.txKind = .rd) (hg : s.ectb.txStage = .three) (h0 : s.ectb.k = 0) :
    actStep s = .next ((readData s).2.onEctb (fun c => Ectb.endTx { c with byte0 := (readData s).1 })).endRace := by
  simp only [actStep, hk, hg, h0]

theorem actStep_rd_three_one (hk : s.ectb.txKind = .rd) (hg : s.ectb.txStage = .three) (h1 : s.ectb.k = 1) :
    actStep s = .next ((readData s).2.onEctb (fun c => Ectb.endTx { c with byte1 := (readData s).1 })).endRace := by
  simp only [actStep, hk, hg, h1]

theorem actStep_wr_three (hk : s.ectb.txKind = .wr) (hg : s.ectb.txStage = .three) :
    actStep s = .next ((writeData s.ectb.wdataL s).onEctb Ectb.endTx).endRace := by
  simp only [actStep, hk, hg]

end Access

/-- A stage's access on two ECTBs alike. -/
theorem actStep_alike {i : Instr} {s t : State} {d : Ectb} (h : Alike s.ectb d) (hr : SameRequest i s.ectb d)
    (ht : SameTransaction i s.ectb d) (ha : actStep s = .next t) :
    ∃ d', actStep (s.withEctb d) = .next (t.withEctb d') ∧ Alike t.ectb d' := by
  rcases actStep_cases ha with ⟨hk, hg, rfl⟩ | ⟨hk, hg, rfl⟩ | ⟨hg, rfl⟩ | ⟨hk, hg, h0, rfl⟩ | ⟨hk, hg, h1, rfl⟩ |
    ⟨hk, hg, rfl⟩
  · rw [actStep_rd_one (ht.txKind.trans hk) (ht.txStage.trans hg)]
    exact ⟨_, rfl, h.nextStage hr ht .two⟩
  · rw [actStep_wr_one (ht.txKind.trans hk) (ht.txStage.trans hg)]
    exact ⟨_, rfl, h.nextStage hr ht .two⟩
  · rw [actStep_two (ht.txStage.trans hg), withEctb_ectb, ht.addrL]
    exact ⟨_, rfl, h.nextStage hr ht .three⟩
  · rw [actStep_rd_three_zero (ht.txKind.trans hk) (ht.txStage.trans hg) (hr.k.trans h0), readData_withEctb]
    exact ⟨_, rfl, by simpa using h.endRead_zero hr h0 (readData s).1⟩
  · rw [actStep_rd_three_one (ht.txKind.trans hk) (ht.txStage.trans hg) (hr.k.trans h1), readData_withEctb]
    exact ⟨_, rfl, by simpa using h.endRead_one hr h1 (readData s).1⟩
  · rw [actStep_wr_three (ht.txKind.trans hk) (ht.txStage.trans hg), withEctb_ectb, ht.wdataL hk]
    exact ⟨_, rfl, h.endWrite hr (ht.readsDone hk)⟩

/-- A poll on two ECTBs alike. -/
theorem pollStep_alike {i : Instr} {s : State} {d : Ectb} (h : Alike s.ectb d) (hr : SameRequest i s.ectb d)
    (ht : SameTransaction i s.ectb d) :
    ∃ d', pollStep (s.withEctb d) = (pollStep s).withEctb d' ∧ Alike (pollStep s).ectb d' := by
  have hp := h.polled hr ht s.params.pollLimit (readStatus s).1
  refine ⟨d.polled s.params.pollLimit (readStatus s).1, ?_, by simpa [pollStep] using hp⟩
  simp only [pollStep, readStatus_withEctb, withEctb_params, onEctb_withEctb]
  exact settleRace_withEctb _ _ (by simpa using hp.txOpen)

/-- One move of ECTB keeps two ECTBs alike and does the same to the rest of the machine. -/
theorem ectbStep_alike {s t : State} {d : Ectb} (h : Alike s.ectb d) (hs : ectbStep s = .next t) :
    ∃ d', ectbStep (s.withEctb d) = .next (t.withEctb d') ∧ Alike t.ectb d' := by
  have within {i : Instr} (hb : s.ectb.fsm = .acq ∨ s.ectb.fsm = .seq ∨ s.ectb.fsm = .tx)
      (hi : s.ectb.current = some i) : SameRequest i s.ectb d ∧ (s.ectb.fsm = .tx → SameTransaction i s.ectb d) ∧
        isRequest i = true ∧ ectbStep (s.withEctb d) = exec i (s.withEctb d) := by
    obtain ⟨hr, ht⟩ := h.request hi ((busy_iff _).2 hb)
    exact ⟨hr, ht, current_isRequest hi, ectbStep_of_current (h.busy.trans ((busy_iff _).2 hb)) hr.current'⟩
  rcases ectbStep_cases hs with ⟨hf, hv, rfl⟩ | ⟨hf, hv, -⟩ | ⟨-, hf, hv, -⟩ | ⟨i, hf, hc, rfl⟩ |
    ⟨i, p, hf, hc, hp, rfl⟩ | ⟨i, hf, hsub, hc, rfl⟩ | ⟨i, hf, hsub, hc, ha⟩ | ⟨hf, rfl⟩
  · exact ⟨d, by simp [ectbStep, h.fsm, hf, fetchRequest, hv], h⟩
  · exact acceptStep_alike h hf hv hs
  · exact acceptStep_alike h hf hv hs
  · obtain ⟨hr, -, hi, he⟩ := within (.inl hf) hc
    rw [he, exec_acq hi (h.fsm.trans hf), acqStep_withEctb]
    exact ⟨_, rfl, by simpa [acqStep] using h.acquire hr s.drawGrant.1⟩
  · obtain ⟨hr, -, hi, he⟩ := within (.inr (.inl hf)) hc
    obtain ⟨q, hq, hpq⟩ := hr.plan hp
    rw [he, exec_seq hi (h.fsm.trans hf) hq]
    exact ⟨_, rfl, h.sequence hr hpq⟩
  · obtain ⟨hr, ht, hi, he⟩ := within (.inr (.inr hf)) hc
    obtain ⟨d', hd', ha'⟩ := pollStep_alike h hr (ht hf)
    exact ⟨d', by rw [he, exec_poll hi (h.fsm.trans hf) ((ht hf).txSub.trans hsub), hd'], ha'⟩
  · obtain ⟨hr, ht, hi, he⟩ := within (.inr (.inr hf)) hc
    rw [he, exec_act hi (h.fsm.trans hf) ((ht hf).txSub.trans hsub)]
    exact actStep_alike h hr (ht hf) ha
  · exact ⟨d, by simp [ectbStep, h.fsm, hf], h⟩

/-- One move of any agent keeps two ECTBs alike and does the same to the rest of the machine. -/
theorem moveOf_alike {e : Event} {s t : State} {d : Ectb} (h : Alike s.ectb d) (hm : moveOf e s = .next t) :
    ∃ d', moveOf e (s.withEctb d) = .next (t.withEctb d') ∧ Alike t.ectb d' := by
  cases e with
  | ectb =>
    obtain ⟨u, hu, rfl⟩ := ectbMove_next hm
    obtain ⟨d', hd', hu'⟩ := ectbStep_alike h hu
    refine ⟨d', ?_, hu'⟩
    rw [ectbMove_of_step hd']
    simp only [State.recordFinish, State.finishes, withEctb_ectb, withEctb_caller, h.busy, h.fsm, hu'.busy, hu'.rspErr]
    rfl
  | ec =>
    obtain ⟨he, -⟩ := ecStep_frame hm
    exact ⟨d, ecStep_withEctb d hm, he ▸ h⟩
  | ecChange a v =>
    cases hm
    obtain ⟨he, -⟩ := ecChange_frame a v s
    exact ⟨d, congrArg _ (ecChange_withEctb d s a v), he ▸ h⟩
  | foreign honours x =>
    cases hm
    obtain ⟨he, -⟩ := foreignStep_frame honours x s
    exact ⟨d, congrArg _ (foreignStep_withEctb h honours x), he ▸ h⟩
  | caller =>
    cases hm
    refine ⟨d, ?_, h⟩
    simp only [moveOf, callerStep, withEctb_caller, withEctb_ectb, h.callerMove]
    rfl
  | request q =>
    cases hm
    refine ⟨d, ?_, h⟩
    simp only [moveOf, submitStep, withEctb_caller, withEctb_ectb, h.callerSubmit]
    rfl
  | reset =>
    cases hm
    refine ⟨Ectb.reset, ?_, ⟨rfl, rfl, rfl, rfl, rfl, rfl, (nomatch ·)⟩⟩
    simp only [moveOf, ectbReset, withEctb_caller, withEctb_ectb, h.busy]
    rfl

theorem step_alike {s t : State} {d : Ectb} (h : Alike s.ectb d) (hs : step s = .next t) :
    ∃ d', step (s.withEctb d) = .next (t.withEctb d') ∧ Alike t.ectb d' := by
  obtain ⟨he, -⟩ := nextEvent_frame s
  simp only [step, nextEvent_withEctb]
  exact moveOf_alike (he.symm ▸ h) hs

/-- A run keeps two ECTBs alike, and the rest of the machine the same (R26). -/
theorem run_alike {m : Nat} {s t : State} {d : Ectb} (h : Alike s.ectb d) (hm : run m s = .next t) :
    ∃ d', run m (s.withEctb d) = .next (t.withEctb d') ∧ Alike t.ectb d' := by
  induction m generalizing s d with
  | zero => cases hm; exact ⟨d, rfl, h⟩
  | succ m ih =>
    simp only [run] at hm ⊢
    cases hs : step s with
    | next u =>
      rw [hs] at hm
      obtain ⟨d', hd', hu⟩ := step_alike h hs
      rw [hd']
      exact ih hu hm
    | fault r => rw [hs] at hm; cases hm
    | refused r => rw [hs] at hm; cases hm

/-- Settles O60: idle ECTBs that agree on permission and response are alike, and a run keeps them so. -/
theorem noLatchIsReadBeforeItIsWritten : Obligations.NoLatchIsReadBeforeItIsWritten := by
  intro s c m t hs hc hacq hdone herr hvalue hscale hm
  have h : Alike s.ectb c :=
    ⟨hc.trans hs.symm, hacq, hdone, herr, hvalue, hscale, fun hb => by simp [Ectb.busy, hs] at hb⟩
  obtain ⟨d, hd, ht⟩ := run_alike h hm
  exact ⟨_, hd, ht.fsm, ht.acqState, ht.rspDone, ht.rspErr, ht.rspValue, ht.rspScale, rfl, rfl, rfl, rfl, rfl⟩

end Sys2Proof.Machine
end

section
/-! PROOFS. The frame of a request's step, operation by operation (10_state.md R25 to R28). -/

namespace Sys2Proof.Machine

/-! ### The frame of a request's step -/

/-- What a request's step from `s` to `t` leaves unchanged, clause by clause (R25 to R28, R141). -/
structure RequestFrame (s t : State) : Prop where
  registers : ∀ a, t.ecReg a = s.ecReg a
  params : t.params = s.params
  schedule : t.env.schedule = s.env.schedule
  races : t.env.races = s.env.races
  caller : { t.caller with reqValid := s.caller.reqValid } = s.caller
  latches : s.ectb.fsm ≠ .idle →
    t.caller = s.caller ∧ t.ectb.opL = s.ectb.opL ∧ t.ectb.raddrL = s.ectb.raddrL ∧ t.ectb.rdataInL = s.ectb.rdataInL ∧
      t.ectb.fidxL = s.ectb.fidxL ∧ t.ectb.opndL = s.ectb.opndL ∧ t.ectb.descL = s.ectb.descL
  permission : s.ectb.fsm ≠ .acq → t.ectb.acqState = s.ectb.acqState ∧ t.env.grants = s.env.grants
  transaction : s.ectb.fsm ≠ .seq →
    t.ectb.addrL = s.ectb.addrL ∧ t.ectb.wdataL = s.ectb.wdataL ∧ t.ectb.txKind = s.ectb.txKind
  ports : s.ectb.fsm ≠ .tx →
    t.ectb.byte0 = s.ectb.byte0 ∧ t.ectb.byte1 = s.ectb.byte1 ∧ t.ec = s.ec ∧ t.trace = s.trace ∧
      t.env.answers = s.env.answers
  otherByte : s.ectb.fsm = .tx →
    (s.ectb.k ≠ 0 → t.ectb.byte0 = s.ectb.byte0) ∧ (s.ectb.k ≠ 1 → t.ectb.byte1 = s.ectb.byte1)
  bytes : s.ectb.fsm = .tx → (s.ectb.txSub = .poll ∨ s.ectb.txKind = .wr ∨ s.ectb.txStage ≠ .three) →
    t.ectb.byte0 = s.ectb.byte0 ∧ t.ectb.byte1 = s.ectb.byte1
  response : t.ectb.rspDone = false →
    t.ectb.rspErr = s.ectb.rspErr ∧ t.ectb.rspValue = s.ectb.rspValue ∧ t.ectb.rspScale = s.ectb.rspScale

@[simp] theorem readStatus_grants (s : State) : (readStatus s).2.env.grants = s.env.grants := by
  unfold readStatus; split <;> simp [drawStatus]
@[simp] theorem readData_grants (s : State) : (readData s).2.env.grants = s.env.grants := by
  unfold readData; split <;> simp [drawData]

section Operations
variable {s : State}

theorem acceptOf_requestFrame {i : Instr} (hi : isRequest i = true) (hf : s.ectb.fsm = .idle) :
    RequestFrame s (acceptOf i s) := by
  rw [acceptOf_eq hi]
  cases acceptError s.params i <;> constructor <;> simp [hf, State.ecReg]

theorem acqStep_requestFrame (hf : s.ectb.fsm = .acq) : RequestFrame s (acqStep s) := by
  cases hg : s.drawGrant.1 <;> constructor <;> simp [acqStep, Ectb.acquire, hg, hf, State.ecReg]

theorem sequence_requestFrame (hf : s.ectb.fsm = .seq) (p : Plan) :
    RequestFrame s (s.onEctb (Ectb.sequence p)) := by
  cases ht : p.txs[s.ectb.k]? with
  | none => constructor <;> simp [Ectb.sequence, ht, hf]
  | some t => cases t <;> constructor <;> simp [Ectb.sequence, ht, hf]

theorem pollStep_requestFrame (hf : s.ectb.fsm = .tx) : RequestFrame s (pollStep s) := by
  rcases polled_cases s.params.pollLimit (readStatus s).1 s.ectb with ⟨-, h⟩ | ⟨-, -, h⟩ | ⟨-, -, h⟩ <;>
    constructor <;> simp [pollStep, h, hf, State.ecReg]

theorem actStep_requestFrame (hf : s.ectb.fsm = .tx) (hs : s.ectb.txSub = .act) {t : State} (h : actStep s = .next t) :
    RequestFrame s t := by
  rcases actStep_cases h with ⟨hk, hg, rfl⟩ | ⟨hk, hg, rfl⟩ | ⟨hg, rfl⟩ | ⟨hk, hg, h0, rfl⟩ | ⟨hk, hg, h1, rfl⟩ |
    ⟨hk, hg, rfl⟩ <;> constructor <;> simp [State.ecReg, *]

end Operations

/-- A request's step, whichever it is, keeps to the frame. -/
theorem exec_requestFrame {i : Instr} {s t : State} (hi : isRequest i = true) (h : exec i s = .next t) :
    RequestFrame s t := by
  rcases exec_request_cases hi h with ⟨hf, rfl⟩ | ⟨hf, rfl⟩ | ⟨p, hf, -, rfl⟩ | ⟨hf, -, rfl⟩ | ⟨hf, hs, ha⟩ | ⟨-, rfl⟩
  · exact acceptOf_requestFrame hi hf
  · exact acqStep_requestFrame hf
  · exact sequence_requestFrame hf p
  · exact pollStep_requestFrame hf
  · exact actStep_requestFrame hf hs ha
  · constructor <;> simp

/-- Settles O41: the frame holds of each of ECTB's operations, and a request's step is one of them. -/
theorem requestStepFrame : Obligations.RequestStepFrame := by
  intro i s t hi h
  obtain ⟨hregs, hparams, hsched, hraces, hcaller, hlatch, hperm, htx, hports, hother, hbytes, hrsp⟩ :=
    exec_requestFrame hi h
  exact ⟨hregs, hparams, hsched, hraces, hcaller, hlatch, hperm, htx, hports, hother, hbytes, hrsp⟩

end Sys2Proof.Machine
end

section
/-! PROOFS. Which agent changes an EC register (10_state.md R20, R30). -/

namespace Sys2Proof.Machine

/-! ### Who changes an EC register -/

/-- Taking the next move from the schedule changes no EC register. -/
@[simp] theorem nextEvent_ecReg (s : State) (a : Byte) : s.nextEvent.2.ecReg a = s.ecReg a := by
  obtain ⟨-, he, -⟩ := nextEvent_frame s
  simp [State.ecReg, he]

/-- A move of ECTB changes no EC register: it hands the EC a byte, takes one, or ends a race. -/
theorem ectbStep_ecReg {s t : State} (h : ectbStep s = .next t) (a : Byte) : t.ecReg a = s.ecReg a := by
  rcases ectbStep_ec h with ⟨-, he⟩ | ⟨-, -, he | ⟨v, isCmd, he⟩⟩ | ⟨-, -, he | ⟨v, he⟩ | he⟩ <;>
    simp [State.ecReg, he]

/-- The EC's own step changes a register only by storing the value byte of a write, unless it leaves the EC under no law. -/
theorem ecStep_ecReg {s t : State} {a : Byte} (h : ecStep s = .next t) (ha : t.ecReg a ≠ s.ecReg a)
    (ht : t.ec ≠ .oracle) :
    ∃ e, s.ec = .ref e ∧ e.ibf = true ∧ e.inIsCmd = false ∧ e.phase = .wrData a ∧ t.ecReg a = some e.inByte := by
  rcases ecStep_cases h with rfl | ⟨e, he, hb, ⟨-, -, rfl⟩ | ⟨-, -, rfl⟩ | rfl | ⟨-, -, rfl⟩ | ⟨-, -, rfl⟩ | ⟨b, hd, hp, rfl⟩⟩
  · exact absurd rfl ha
  · simp [State.ecReg, he] at ha
  · simp [State.ecReg, he] at ha
  · exact absurd rfl ht
  · obtain ⟨-, -, -, -, hm⟩ := ecAnswer_frame e s
    simp [State.ecReg, he, hm] at ha
  · simp [State.ecReg, he] at ha
  · obtain rfl : b = a := by
      by_contra hne
      have hn : a.toNat ≠ b.toNat := fun e => hne (BitVec.eq_of_toNat_eq e.symm)
      simp [State.ecReg, he, memory_read_write_other _ _ hn] at ha
    exact ⟨e, he, hb, hd, hp, by simp⟩

/-- The EC's change of one of its registers changes no other. -/
theorem ecChange_ecReg_other {a b : Byte} (hne : b ≠ a) (v : Byte) (s : State) :
    (ecChange a v s).ecReg b = s.ecReg b := by
  have hn : b.toNat ≠ a.toNat := fun e => hne (BitVec.eq_of_toNat_eq e)
  unfold ecChange
  split
  · rfl
  · rfl
  · simp [State.ecReg, *, memory_read_write_other _ _ hn]

/-- Settles O43, agent by agent. -/
theorem onlyTheEcChangesItsRegisters : Obligations.OnlyTheEcChangesItsRegisters := by
  intro s t h
  obtain ⟨-, hec, -⟩ := nextEvent_frame s
  unfold step at h
  refine ⟨?_, fun a he ha ht => ?_, fun a v he b hb => ?_⟩
  · rintro (he | he | ⟨q, he⟩ | he) a <;> rw [he] at h
    · obtain ⟨u, hu, rfl⟩ := ectbMove_next h
      exact (ectbStep_ecReg hu a).trans (nextEvent_ecReg s a)
    · cases h
      exact nextEvent_ecReg s a
    · cases h
      exact nextEvent_ecReg s a
    · cases h
      simp [State.ecReg, hec]
  · rw [he] at h
    rw [← nextEvent_ecReg s a] at ha
    simpa only [hec] using ecStep_ecReg h ha ht
  · rw [he] at h
    cases h
    rw [ecChange_ecReg_other hb, nextEvent_ecReg]

end Sys2Proof.Machine
end

section
/-! PROOFS. The caller's moves, the record of an error and the exit code (10_state.md R35, 60_exceptions.md R229, R233). -/

namespace Sys2Proof.Machine

/-! ### The caller's moves -/

theorem step_caller (s : State) : step (s.scheduled [.caller]) = .next { s with caller := s.caller.move s.ectb } := rfl

theorem step_request (q : ReqWord) (s : State) :
    step (s.scheduled [.request q]) = .next { s with caller := s.caller.submit s.ectb q } := rfl

/-- The program makes no move once it has stopped, or while its word is not accepted. -/
theorem move_of_stopped_or_presented {c : Caller} (e : Ectb) (h : c.stopped ≠ none ∨ c.reqValid = true) :
    c.move e = c := by
  have hc : (c.stopped.isSome || c.reqValid) = true := by simpa [Option.isSome_iff_ne_none] using h
  simp only [Caller.move, hc, if_true]

section Program
variable {c : Caller} {e : Ectb} (hs : c.stopped = none) (hv : c.reqValid = false)
include hs hv

theorem move_present {q : ReqWord} (ha : c.awaiting = false) (hf : e.fsm = .idle) (hq : c.prog[c.rp]? = some q) :
    c.move e = { c with reqValid := true, reqWord := q, awaiting := true } := by
  simp [Caller.move, Caller.present, Ectb.reqReady, *]

theorem move_of_not_ready (ha : c.awaiting = false) (hf : e.fsm ≠ .idle) : c.move e = c := by
  simp [Caller.move, Ectb.reqReady, *]

theorem move_success (ha : c.awaiting = true) (hd : e.rspDone = true) (he : e.rspErr = 0) :
    c.move e = { c with rp := c.rp + 1, awaiting := false } := by
  simp [Caller.move, Caller.takeResponse, *]

theorem move_error (ha : c.awaiting = true) (hd : e.rspDone = true) (he : e.rspErr ≠ 0) :
    c.move e = { c with stopped := some e.rspErr, awaiting := false } := by
  simp only [Caller.move, Caller.takeResponse, hs, hv, ha, hd, if_neg he]
  rfl

theorem move_of_response_due (ha : c.awaiting = true) (hd : e.rspDone = false) : c.move e = c := by
  simp [Caller.move, *]

theorem move_at_end (ha : c.awaiting = false) (hr : c.rp = c.prog.length) : c.move e = c := by
  simp [Caller.move, *]

end Program

section Submit
variable {c : Caller} {e : Ectb} (q : ReqWord)

theorem submit_present (hv : c.reqValid = false) (hf : e.fsm = .idle ∨ e.fsm = .failed)
    (ha : c.awaiting = false ∨ (e.fsm = .idle ∧ e.rspDone = false)) :
    c.submit e q = { c with reqValid := true, reqWord := q, awaiting := false } := by
  have hd : c.responseDue e = false := by
    rcases ha with ha | ⟨hi, hn⟩ <;> simp [Caller.responseDue, Ectb.reqReady, *]
  simp [Caller.submit, hv, (not_busy_iff e).2 hf, hd]

theorem submit_of_response_due (ha : c.awaiting = true) (hd : e.rspDone = true) : c.submit e q = c := by
  simp [Caller.submit, Caller.responseDue, ha, hd]

theorem submit_of_busy (hf : e.fsm = .acq ∨ e.fsm = .seq ∨ e.fsm = .tx) : c.submit e q = c := by
  simp [Caller.submit, (busy_iff e).2 hf]

theorem submit_of_presented (hv : c.reqValid = true) : c.submit e q = c := by
  simp [Caller.submit, hv]

end Submit

/-! ### The exit code -/

theorem exitCode_eq_one_iff (s : State) :
    s.exitCode = some 1 ↔ s.caller.erred = true ∨ s.caller.stopped ≠ none := by
  simp only [State.exitCode, Bool.or_eq_true, Option.isSome_iff_ne_none]
  split
  · simp [*]
  · split <;> simp [*]

theorem exitCode_eq_zero_iff (s : State) :
    s.exitCode = some 0 ↔
      s.caller.erred = false ∧ s.caller.stopped = none ∧ s.caller.cut = false ∧ s.caller.rp = s.caller.prog.length ∧
        s.caller.awaiting = false ∧ s.caller.reqValid = false ∧ (s.ectb.fsm = .idle ∨ s.ectb.fsm = .failed) := by
  rw [← not_busy_iff]
  cases he : s.caller.erred <;> cases hs : s.caller.stopped <;> simp [State.exitCode, he, hs]
  tauto

theorem exitCode_cases (s : State) : s.exitCode = none ∨ s.exitCode = some 0 ∨ s.exitCode = some 1 := by
  unfold State.exitCode
  (repeat' split) <;> simp

/-- A move of ECTB that ends a request with an error leaves the exit code 1 (R233). -/
theorem exitCode_of_error {s t : State} (h : step (s.scheduled [.ectb]) = .next t) (he : t.ectb.rspErr ≠ 0)
    (ht : t.ectb.fsm = .idle ∨ t.ectb.fsm = .failed)
    (hs : s.ectb.fsm = .acq ∨ s.ectb.fsm = .seq ∨ s.ectb.fsm = .tx ∨ (s.ectb.fsm = .idle ∧ s.caller.reqValid = true)) :
    t.exitCode = some 1 := by
  rw [step_scheduled_cons, scheduled_nil] at h
  obtain ⟨u, -, rfl⟩ := ectbMove_next h
  have hstart : (s.ectb.busy || (s.ectb.fsm == .idle && s.caller.reqValid)) = true := by
    simpa only [Bool.or_eq_true, Bool.and_eq_true, beq_iff_eq, busy_iff, or_assoc] using hs
  have hfin : s.finishes u = true := by
    simp only [State.finishes, hstart, (not_busy_iff u.ectb).2 ht, Bool.not_false, Bool.and_true]
  have herr : (u.ectb.rspErr != 0) = true := bne_iff_ne.2 he
  exact (exitCode_eq_one_iff _).2 (.inl (by rw [recordFinish_caller, hfin, herr]; simp))

/-- A move of ECTB changes of the caller at most `REQ_VALID`, which ACCEPT lowers. -/
theorem ectbStep_caller {s t : State} (h : ectbStep s = .next t) :
    t.caller = s.caller ∨ t.caller = { s.caller with reqValid := false } := by
  rcases ectbStep_cases h with ⟨-, -, rfl⟩ | ⟨-, -, rfl⟩ | ⟨i, -, -, -, hi, rfl⟩ | ⟨i, hf, -, rfl⟩ |
    ⟨i, p, hf, -, -, rfl⟩ | ⟨i, hf, -, -, rfl⟩ | ⟨i, hf, hs, -, ha⟩ | ⟨-, rfl⟩
  · exact .inl rfl
  · exact .inr rfl
  · exact .inr (by rw [acceptOf_eq hi]; rfl)
  · exact .inl (by simp [acqStep])
  · exact .inl rfl
  · exact .inl (by simp [pollStep])
  · exact .inl ((actStep_requestFrame hf hs ha).latches (by simp [hf])).1
  · exact .inl rfl

/-- No move clears the caller's record of an error, nor lets its stopped program go on. -/
theorem moveOf_keeps_failure {e : Event} {s t : State} (h : moveOf e s = .next t)
    (hs : s.caller.erred = true ∨ s.caller.stopped ≠ none) : t.caller.erred = true ∨ t.caller.stopped ≠ none := by
  cases e with
  | ectb =>
    obtain ⟨u, hu, rfl⟩ := ectbMove_next h
    rcases ectbStep_caller hu with hc | hc <;> rcases hs with hs | hs <;> simp [hc, hs]
  | ec => rwa [(ecStep_frame h).2.1]
  | ecChange a v => cases h; rwa [(ecChange_frame a v s).2.1]
  | foreign honours x => cases h; rwa [(foreignStep_frame honours x s).2.1]
  | caller =>
    cases h
    rw [callerStep_caller]
    rcases callerMove_cases s.ectb s.caller with hm | ⟨-, -, -, -, -, hm⟩ | ⟨-, -, -, -, -, hm⟩ | ⟨q, -, -, -, -, -, hm⟩ <;>
      rw [hm]
    · exact hs
    · exact hs
    · exact .inr (by simp)
    · exact hs
  | request q =>
    cases h
    rw [submitStep_caller]
    rcases callerSubmit_cases s.ectb q s.caller with ⟨-, hm⟩ | ⟨-, -, -, hm⟩ <;> rw [hm] <;> exact hs
  | reset => cases h; exact hs

/-- An exit code of 1 stays through every step. -/
theorem exitCode_one_stays {s t : State} (h : step s = .next t) (hs : s.exitCode = some 1) : t.exitCode = some 1 := by
  obtain ⟨-, -, hc, -⟩ := nextEvent_frame s
  rw [exitCode_eq_one_iff] at hs ⊢
  exact moveOf_keeps_failure h (hc.symm ▸ hs)

/-- Settles O45: the program's move, the caller's own requests, the record of an error, and the exit code. -/
theorem callerAdvancesOrStops : Obligations.CallerAdvancesOrStops := by
  refine ⟨rfl, fun s hs hv => ⟨?_, ?_, ?_, ?_, ?_, ?_⟩, fun s h => ?_, fun s q => ⟨?_, ?_, ?_, ?_⟩,
    fun s t h he ht hs => exitCode_of_error h he ht hs, fun s t h hs => exitCode_one_stays h hs,
    fun s => ⟨exitCode_eq_one_iff s, exitCode_eq_zero_iff s, exitCode_cases s⟩⟩
  · intro q ha hf hq
    rw [step_caller, move_present hs hv ha hf hq]
  · intro ha hf
    rw [step_caller, move_of_not_ready hs hv ha hf]
  · intro ha hd he
    rw [step_caller, move_success hs hv ha hd he]
  · intro ha hd he
    rw [step_caller, move_error hs hv ha hd he]
  · intro ha hd
    rw [step_caller, move_of_response_due hs hv ha hd]
  · intro ha hr
    rw [step_caller, move_at_end hs hv ha hr]
  · rw [step_caller, move_of_stopped_or_presented s.ectb h]
  · intro hv hf ha
    rw [step_request, submit_present q hv hf ha]
  · intro ha hd
    rw [step_request, submit_of_response_due q ha hd]
  · intro hf
    rw [step_request, submit_of_busy q hf]
  · intro hv
    rw [step_request, submit_of_presented q hv]

end Sys2Proof.Machine
end

section
/-! PROOFS. What a move of each agent leaves alone: the parameters, the rest of the schedule, and, unless it is ECTB's or a
reset, ECTB and its trace (00_scope.md R9, R13; 20_memory.md R61, R73). -/

namespace Sys2Proof.Machine

/-! ### The frame of a move -/

section EctbStep
variable {s t : State}

/-- An idle ECTB's step makes no port access and asks for no permission: it is an ACCEPT, or nothing. -/
theorem ectbStep_idle_frame (h : ectbStep s = .next t) (hf : s.ectb.fsm = .idle) :
    t.ec = s.ec ∧ t.env = s.env ∧ t.params = s.params ∧ t.trace = s.trace ∧ t.ectb.acqState = s.ectb.acqState := by
  rcases ectbStep_cases h with ⟨-, -, rfl⟩ | ⟨-, -, rfl⟩ | ⟨i, -, -, -, -, rfl⟩ | ⟨i, hf', -⟩ | ⟨i, p, hf', -⟩ |
    ⟨i, hf', -⟩ | ⟨i, hf', -⟩ | ⟨hf', -⟩
  · exact ⟨rfl, rfl, rfl, rfl, rfl⟩
  · exact ⟨rfl, rfl, rfl, rfl, rfl⟩
  · obtain ⟨hec, henv, hparams, htrace⟩ := acceptOf_frame i s
    exact ⟨hec, henv, hparams, htrace, acceptOf_acqState i s⟩
  all_goals rw [hf] at hf'; cases hf'

/-- Out of `IDLE`, ECTB's step keeps to the frame of a request's step. -/
theorem ectbStep_requestFrame (h : ectbStep s = .next t) (hf : s.ectb.fsm ≠ .idle) : RequestFrame s t := by
  rcases ectbStep_cases h with ⟨hi, -⟩ | ⟨hi, -⟩ | ⟨i, hi, -⟩ | ⟨i, ha, -, rfl⟩ | ⟨i, p, hq, -, -, rfl⟩ |
    ⟨i, ht, -, -, rfl⟩ | ⟨i, ht, hs, -, ha⟩ | ⟨-, rfl⟩
  · exact absurd hi hf
  · exact absurd hi hf
  · exact absurd hi hf
  · exact acqStep_requestFrame ha
  · exact sequence_requestFrame hq p
  · exact pollStep_requestFrame ht
  · exact actStep_requestFrame ht hs ha
  · constructor <;> simp

theorem ectbStep_params (h : ectbStep s = .next t) : t.params = s.params := by
  by_cases hf : s.ectb.fsm = .idle
  · obtain ⟨-, -, hp, -⟩ := ectbStep_idle_frame h hf
    exact hp
  · exact (ectbStep_requestFrame h hf).params

theorem ectbStep_schedule (h : ectbStep s = .next t) : t.env.schedule = s.env.schedule := by
  by_cases hf : s.ectb.fsm = .idle
  · obtain ⟨-, he, -⟩ := ectbStep_idle_frame h hf
    rw [he]
  · exact (ectbStep_requestFrame h hf).schedule

/-- Only the ACQ step changes permission. -/
theorem ectbStep_acqState (h : ectbStep s = .next t) (hf : s.ectb.fsm ≠ .acq) : t.ectb.acqState = s.ectb.acqState := by
  by_cases hi : s.ectb.fsm = .idle
  · obtain ⟨-, -, -, -, ha⟩ := ectbStep_idle_frame h hi
    exact ha
  · exact ((ectbStep_requestFrame h hi).permission hf).1

/-- A move of ECTB makes no port access, or one in `TX`, whose command byte if it is one is 0x80 or 0x81 (R92, R131). -/
theorem ectbStep_trace (h : ectbStep s = .next t) :
    t.trace = s.trace ∨ ∃ x, s.ectb.fsm = .tx ∧ commandsOk x = true ∧ t.trace = x :: s.trace := by
  rcases ectbStep_cases h with ⟨-, -, rfl⟩ | ⟨-, -, rfl⟩ | ⟨i, -, -, -, -, rfl⟩ | ⟨i, -, -, rfl⟩ |
    ⟨i, p, -, -, -, rfl⟩ | ⟨i, hf, -, -, rfl⟩ | ⟨i, hf, -, -, ha⟩ | ⟨-, rfl⟩
  · exact .inl rfl
  · exact .inl rfl
  · obtain ⟨-, -, -, htrace⟩ := acceptOf_frame i s
    exact .inl htrace
  · exact .inl (by simp [acqStep])
  · exact .inl rfl
  · exact .inr ⟨.readStatus (readStatus s).1, hf, rfl, by simp [pollStep]⟩
  · right
    rcases actStep_cases ha with ⟨-, -, rfl⟩ | ⟨-, -, rfl⟩ | ⟨-, rfl⟩ | ⟨-, -, -, rfl⟩ | ⟨-, -, -, rfl⟩ | ⟨-, -, rfl⟩
    · exact ⟨.writeCommand Config.cmdRead, hf, rfl, rfl⟩
    · exact ⟨.writeCommand Config.cmdWrite, hf, rfl, rfl⟩
    · exact ⟨.writeData s.ectb.addrL, hf, rfl, rfl⟩
    · exact ⟨.readData (readData s).1, hf, rfl, by simp⟩
    · exact ⟨.readData (readData s).1, hf, rfl, by simp⟩
    · exact ⟨.writeData s.ectb.wdataL, hf, rfl, rfl⟩
  · exact .inl rfl

end EctbStep

section Moves
variable {e : Event} {s t : State}

/-- The EC's move draws at most an answer. -/
theorem ecStep_schedule (h : ecStep s = .next t) : t.env.schedule = s.env.schedule := by
  rcases ecStep_cases h with rfl | ⟨e, -, -, ⟨-, -, rfl⟩ | ⟨-, -, rfl⟩ | rfl | ⟨-, -, rfl⟩ | ⟨-, -, rfl⟩ | ⟨a, -, -, rfl⟩⟩
  · rfl
  · rfl
  · rfl
  · rfl
  · unfold ecAnswer
    split <;> simp
  · rfl
  · rfl

/-- No move of any agent writes a parameter (R9). -/
theorem moveOf_params (h : moveOf e s = .next t) : t.params = s.params := by
  cases e with
  | ectb =>
    obtain ⟨u, hu, rfl⟩ := ectbMove_next h
    rw [recordFinish_params]
    exact ectbStep_params hu
  | ec =>
    obtain ⟨-, -, hp, -⟩ := ecStep_frame h
    exact hp
  | ecChange a v =>
    cases h
    obtain ⟨-, -, hp, -⟩ := ecChange_frame a v s
    exact hp
  | foreign honours x =>
    cases h
    obtain ⟨-, -, hp, -⟩ := foreignStep_frame honours x s
    exact hp
  | caller => cases h; rfl
  | request q => cases h; rfl
  | reset => cases h; rfl

/-- No move of any agent changes the order of the moves to come. -/
theorem moveOf_schedule (h : moveOf e s = .next t) : t.env.schedule = s.env.schedule := by
  cases e with
  | ectb =>
    obtain ⟨u, hu, rfl⟩ := ectbMove_next h
    rw [recordFinish_env]
    exact ectbStep_schedule hu
  | ec => exact ecStep_schedule h
  | ecChange a v =>
    cases h
    obtain ⟨-, -, -, -, he⟩ := ecChange_frame a v s
    exact congrArg Env.schedule he
  | foreign honours x =>
    cases h
    obtain ⟨-, -, -, -, he⟩ := foreignStep_frame honours x s
    exact he
  | caller => cases h; rfl
  | request q => cases h; rfl
  | reset => cases h; rfl

/-- Only ECTB's own moves and its reset change ECTB or its trace. -/
theorem moveOf_keeps_ectb (h : moveOf e s = .next t) (he : e ≠ .ectb) (hr : e ≠ .reset) :
    t.ectb = s.ectb ∧ t.trace = s.trace := by
  cases e with
  | ectb => exact absurd rfl he
  | ec =>
    obtain ⟨hc, -, -, ht⟩ := ecStep_frame h
    exact ⟨hc, ht⟩
  | ecChange a v =>
    cases h
    obtain ⟨hc, -, -, ht, -⟩ := ecChange_frame a v s
    exact ⟨hc, ht⟩
  | foreign honours x =>
    cases h
    obtain ⟨hc, -, -, ht, -⟩ := foreignStep_frame honours x s
    exact ⟨hc, ht⟩
  | caller => cases h; exact ⟨rfl, rfl⟩
  | request q => cases h; exact ⟨rfl, rfl⟩
  | reset => exact absurd rfl hr

end Moves

/-- Settles O9: no agent's move writes a parameter, and the ROM is a function of the parameters. -/
theorem parametersNeverChange : Obligations.ParametersNeverChange := by
  intro s t h
  obtain ⟨-, -, -, hp, -⟩ := nextEvent_frame s
  have heq : t.params = s.params := (moveOf_params h).trans hp
  exact ⟨heq, fun f => by rw [heq]⟩

end Sys2Proof.Machine
end

section
/-! PROOFS. The invariant, conjunct by conjunct and operation by operation (20_memory.md R61, 30_encoding.md R92, R102). -/

namespace Sys2Proof.Machine

/-! ### The invariant as propositions -/

/-- The conjuncts of `State.inv`, named. -/
structure Invariant (s : State) : Prop where
  control : s.ectb.inv = true
  code : s.ectb.rspErr.toNat ≤ 5
  permission : s.ectb.acqState = .granted ∨ s.trace = []
  commands : ∀ x ∈ s.trace, commandsOk x = true
  polls : pollsInBound s.params.pollLimit s.ectb = true
  registers : s.ec.memory.wf = true
  race : s.ec.inRace = true → s.ectb.txOpen = true

theorem inv_iff (s : State) : s.inv = true ↔ Invariant s := by
  have race : (!s.ec.inRace || s.ectb.txOpen) = true ↔ (s.ec.inRace = true → s.ectb.txOpen = true) := by
    cases s.ec.inRace <;> simp
  simp only [State.inv, Bool.and_eq_true, Bool.or_eq_true, decide_eq_true_eq, beq_iff_eq, List.isEmpty_iff,
    List.all_eq_true, race]
  exact ⟨fun ⟨⟨⟨⟨⟨⟨h1, h2⟩, h3⟩, h4⟩, h5⟩, h6⟩, h7⟩ => ⟨h1, h2, h3, h4, h5, h6, h7⟩,
    fun ⟨h1, h2, h3, h4, h5, h6, h7⟩ => ⟨⟨⟨⟨⟨⟨h1, h2⟩, h3⟩, h4⟩, h5⟩, h6⟩, h7⟩⟩

section Control
variable {c : Ectb}

theorem inRequest_iff : c.inRequest = true ↔ c.accepted = true ∧ c.rspDone = false ∧ c.k ≤ c.txs.length := by
  simp [Ectb.inRequest, and_assoc]

theorem inTransaction_iff : c.inTransaction = true ↔ ∃ t, c.txs[c.k]? = some t ∧ c.holds t = true := by
  unfold Ectb.inTransaction
  cases c.txs[c.k]? <;> simp

theorem inv_of_idle (hf : c.fsm = .idle) : c.inv = true := by simp [Ectb.inv, hf]

theorem inv_acq_iff (hf : c.fsm = .acq) : c.inv = true ↔ c.inRequest = true ∧ c.acqState = .none ∧ c.k = 0 := by
  simp [Ectb.inv, hf, and_assoc]

theorem inv_seq_iff (hf : c.fsm = .seq) : c.inv = true ↔ c.inRequest = true ∧ c.acqState = .granted := by
  simp [Ectb.inv, hf]

theorem inv_tx_iff (hf : c.fsm = .tx) :
    c.inv = true ↔ c.inRequest = true ∧ c.acqState = .granted ∧ c.inTransaction = true := by
  simp [Ectb.inv, hf, and_assoc]

theorem inv_failed_iff (hf : c.fsm = .failed) :
    c.inv = true ↔ c.acqState = .none ∧ c.rspDone = true ∧ c.rspErr = ErrorKind.permissionDenied.code := by
  simp [Ectb.inv, hf, and_assoc]

/-- Where in its handshake a transaction is, the control invariant does not say. -/
theorem inv_handshake (c : Ectb) (g : TxStage) (u : TxSub) (n : Nat) :
    ({ c with txStage := g, txSub := u, polls := n } : Ectb).inv = c.inv := rfl

/-! ### ECTB's operations keep the control invariant -/

/-- Every error but PERMISSION_DENIED leaves ECTB in `IDLE`, of which nothing is asked (R228). -/
theorem finishError_inv {e : ErrorKind} (he : e ≠ .permissionDenied) (c : Ectb) : (c.finishError e).inv = true :=
  inv_of_idle (by simp [he])

theorem acceptOf_inv {i : Instr} (hi : isRequest i = true) (s : State) : (acceptOf i s).ectb.inv = true := by
  by_cases hf : (acceptOf i s).ectb.fsm = .idle
  · exact inv_of_idle hf
  · obtain ⟨hreq, hk, hfsm⟩ := acceptOf_accepted hi hf
    have hacq := acceptOf_acqState i s
    cases ha : s.ectb.acqState with
    | none => exact (inv_acq_iff (by simp [hfsm, ha])).2 ⟨hreq, hacq.trans ha, hk⟩
    | granted => exact (inv_seq_iff (by simp [hfsm, ha])).2 ⟨hreq, hacq.trans ha⟩

theorem acquire_inv (h : c.inv = true) (hf : c.fsm = .acq) (g : Bool) : (c.acquire g).inv = true := by
  obtain ⟨hreq, hacq, -⟩ := (inv_acq_iff hf).1 h
  cases g with
  | false => exact (inv_failed_iff rfl).2 ⟨hacq, rfl, rfl⟩
  | true => exact (inv_seq_iff rfl).2 ⟨hreq, rfl⟩

/-- A transaction started from the list's entry `k` is the one the latches then hold (R135). -/
theorem start_inTransaction {t : Transaction} (h : c.txs[c.k]? = some t) : (c.start t).inTransaction = true := by
  refine inTransaction_iff.2 ⟨t, ?_, ?_⟩
  · cases t <;> exact h
  · cases t <;> simp [Ectb.holds]

theorem sequence_inv (h : c.inv = true) (hf : c.fsm = .seq) {p : Plan} (hp : c.plan = some p) :
    (c.sequence p).inv = true := by
  obtain ⟨hreq, hacq⟩ := (inv_seq_iff hf).1 h
  have htxs : c.txs = p.txs := by simp [Ectb.txs, hp]
  cases ht : p.txs[c.k]? with
  | none => exact inv_of_idle (by simp [Ectb.sequence, ht])
  | some t =>
    have hin : (c.start t).inTransaction = true := start_inTransaction (htxs ▸ ht)
    simp only [Ectb.sequence, ht]
    cases t <;> exact (inv_tx_iff rfl).2 ⟨hreq, hacq, hin⟩

theorem polled_inv (h : c.inv = true) (lim : PollLimit) (st : Byte) : (c.polled lim st).inv = true := by
  rcases polled_cases lim st c with ⟨-, hp⟩ | ⟨-, -, hp⟩ | ⟨-, -, hp⟩ <;> rw [hp]
  · exact (inv_handshake c _ _ _).trans h
  · exact finishError_inv (by decide) _
  · exact (inv_handshake c _ _ _).trans h

/-- The end of a transaction (R139): the next entry of the list is next, and the byte a read filled does not change how many
entries there are. -/
theorem endTx_inv {d : Ectb} (h : c.inv = true) (hf : c.fsm = .tx)
    (hd : ∃ b0 b1, d = { c with byte0 := b0, byte1 := b1 }) : d.endTx.inv = true := by
  obtain ⟨b0, b1, rfl⟩ := hd
  obtain ⟨hreq, hacq, hin⟩ := (inv_tx_iff hf).1 h
  obtain ⟨hacc, hdone, -⟩ := inRequest_iff.1 hreq
  obtain ⟨t, ht, -⟩ := inTransaction_iff.1 hin
  have hk : c.k < c.txs.length := (List.getElem?_eq_some_iff.1 ht).1
  have hlen : ({ c with byte0 := b0, byte1 := b1 } : Ectb).endTx.txs.length = c.txs.length :=
    txs_length_congr rfl rfl rfl rfl rfl rfl
  exact (inv_seq_iff rfl).2 ⟨inRequest_iff.2 ⟨hacc, hdone, hk.trans_eq hlen.symm⟩, hacq⟩

end Control

section EctbStep
variable {s t : State}

theorem actStep_inv (h : s.ectb.inv = true) (hf : s.ectb.fsm = .tx) (ha : actStep s = .next t) : t.ectb.inv = true := by
  rcases actStep_cases ha with ⟨-, -, rfl⟩ | ⟨-, -, rfl⟩ | ⟨-, rfl⟩ | ⟨-, -, -, rfl⟩ | ⟨-, -, -, rfl⟩ | ⟨-, -, rfl⟩
  · exact (inv_handshake s.ectb _ _ _).trans h
  · exact (inv_handshake s.ectb _ _ _).trans h
  · exact (inv_handshake s.ectb _ _ _).trans h
  · exact endTx_inv h hf ⟨(readData s).1, s.ectb.byte1, by simp⟩
  · exact endTx_inv h hf ⟨s.ectb.byte0, (readData s).1, by simp⟩
  · exact endTx_inv h hf ⟨s.ectb.byte0, s.ectb.byte1, rfl⟩

/-- ECTB's registers fit its control state after each of its moves. -/
theorem ectbStep_inv (h : s.ectb.inv = true) (ht : ectbStep s = .next t) : t.ectb.inv = true := by
  rcases ectbStep_cases ht with ⟨-, -, rfl⟩ | ⟨-, -, rfl⟩ | ⟨i, -, -, -, hi, rfl⟩ | ⟨i, hf, -, rfl⟩ |
    ⟨i, p, hf, hc, hp, rfl⟩ | ⟨i, -, -, -, rfl⟩ | ⟨i, hf, -, -, ha⟩ | ⟨-, rfl⟩
  · exact h
  · exact finishError_inv (by decide) _
  · exact acceptOf_inv hi s
  · simpa [acqStep] using acquire_inv h hf s.drawGrant.1
  · exact sequence_inv h hf (by simp [Ectb.plan, hc, hp])
  · simpa [pollStep] using polled_inv h s.params.pollLimit (readStatus s).1
  · exact actStep_inv h hf ha
  · exact h

/-! ### The other conjuncts -/

theorem code_toNat_le (e : ErrorKind) : e.code.toNat ≤ 5 := by cases e <;> decide

/-- After a move of ECTB the response's code is what it was, `OK`, or an error's (R102). -/
theorem ectbStep_rspErr (h : ectbStep s = .next t) :
    t.ectb.rspErr = s.ectb.rspErr ∨ t.ectb.rspErr = 0 ∨ ∃ e : ErrorKind, t.ectb.rspErr = e.code := by
  rcases ectbStep_cases h with ⟨-, -, rfl⟩ | ⟨-, -, rfl⟩ | ⟨i, -, -, -, hi, rfl⟩ | ⟨i, -, -, rfl⟩ |
    ⟨i, p, -, -, -, rfl⟩ | ⟨i, -, -, -, rfl⟩ | ⟨i, -, -, -, ha⟩ | ⟨-, rfl⟩
  · exact .inl rfl
  · exact .inr (.inr ⟨.invalidRequest, rfl⟩)
  · rw [acceptOf_eq hi]
    cases he : acceptError s.params i with
    | none => exact .inl (by simp)
    | some e => exact .inr (.inr ⟨e, by simp⟩)
  · cases hg : s.drawGrant.1 with
    | false => exact .inr (.inr ⟨.permissionDenied, by simp [acqStep, hg, Ectb.acquire]⟩)
    | true => exact .inl (by simp [acqStep, hg, Ectb.acquire])
  · cases hx : p.txs[s.ectb.k]? with
    | none => exact .inr (.inl (by simp [Ectb.sequence, hx]))
    | some x => cases x <;> exact .inl (by simp [Ectb.sequence, hx])
  · rcases polled_cases s.params.pollLimit (readStatus s).1 s.ectb with ⟨-, hp⟩ | ⟨-, -, hp⟩ | ⟨-, -, hp⟩
    · exact .inl (by simp [pollStep, hp])
    · exact .inr (.inr ⟨.protocolStall, by simp [pollStep, hp]⟩)
    · exact .inl (by simp [pollStep, hp])
  · rcases actStep_cases ha with ⟨-, -, rfl⟩ | ⟨-, -, rfl⟩ | ⟨-, rfl⟩ | ⟨-, -, -, rfl⟩ | ⟨-, -, -, rfl⟩ | ⟨-, -, rfl⟩ <;>
      exact .inl (by simp)
  · exact .inl rfl

theorem pollsInBound_iff (lim : PollLimit) (c : Ectb) :
    pollsInBound lim c = true ↔ ∀ n, lim = .finite n → 0 < n ∧ (c.fsm = .tx → c.txSub = .poll → c.polls < n) := by
  cases lim with
  | inf => simp [pollsInBound]
  | finite n =>
    have himp : (c.fsm = .tx → c.txSub = .poll → c.polls < n) ↔
        (!(c.fsm == .tx && c.txSub == .poll)) = true ∨ c.polls < n := by
      cases hf : c.fsm <;> cases hs : c.txSub <;> simp
    simp [pollsInBound, himp]

theorem acceptOf_fsm_ne_tx {i : Instr} (hi : isRequest i = true) (s : State) : (acceptOf i s).ectb.fsm ≠ .tx := by
  intro hf
  obtain ⟨-, -, hfsm⟩ := acceptOf_accepted (s := s) hi (by simp [hf])
  rw [hf] at hfsm
  split at hfsm <;> cases hfsm

/-- ECTB within a wait after a move of its own has made no poll of it yet, or has not reached the limit (R133). -/
theorem ectbStep_wait (h : ectbStep s = .next t) (hw : t.ectb.fsm = .tx) (hs : t.ectb.txSub = .poll) :
    t.ectb.polls = 0 ∨ pollLimitReached s.params.pollLimit t.ectb.polls = false := by
  rcases ectbStep_cases h with ⟨hf, -, rfl⟩ | ⟨-, -, rfl⟩ | ⟨i, -, -, -, hi, rfl⟩ | ⟨i, -, -, rfl⟩ |
    ⟨i, p, -, -, -, rfl⟩ | ⟨i, -, -, -, rfl⟩ | ⟨i, -, -, -, ha⟩ | ⟨hf, rfl⟩
  · rw [hf] at hw; cases hw
  · cases hw
  · exact absurd hw (acceptOf_fsm_ne_tx hi s)
  · cases hg : s.drawGrant.1 <;> simp [acqStep, Ectb.acquire, hg] at hw
  · cases hx : p.txs[s.ectb.k]? with
    | none => simp [Ectb.sequence, hx] at hw
    | some x => cases x <;> exact .inl (by simp [Ectb.sequence, hx])
  · rcases polled_cases s.params.pollLimit (readStatus s).1 s.ectb with ⟨-, hp⟩ | ⟨-, -, hp⟩ | ⟨-, hl, hp⟩
    · simp [pollStep, hp] at hs
    · simp [pollStep, hp] at hw
    · exact .inr (by simpa [pollStep, hp] using hl)
  · rcases actStep_cases ha with ⟨-, -, rfl⟩ | ⟨-, -, rfl⟩ | ⟨-, rfl⟩ | ⟨-, -, -, rfl⟩ | ⟨-, -, -, rfl⟩ | ⟨-, -, rfl⟩
    · exact .inl rfl
    · exact .inl rfl
    · exact .inl rfl
    all_goals simp at hw
  · rw [hf] at hw; cases hw

theorem ectbStep_pollsInBound (hb : pollsInBound s.params.pollLimit s.ectb = true) (h : ectbStep s = .next t) :
    pollsInBound t.params.pollLimit t.ectb = true := by
  rw [ectbStep_params h]
  refine (pollsInBound_iff _ _).2 fun n hn => ?_
  obtain ⟨hpos, -⟩ := (pollsInBound_iff _ _).1 hb n hn
  refine ⟨hpos, fun hw hs => ?_⟩
  rcases ectbStep_wait h hw hs with h0 | hl
  · omega
  · simpa [hn, pollLimitReached] using hl

/-- A move of ECTB changes nothing in the EC's registers. -/
theorem ectbStep_memory (h : ectbStep s = .next t) : t.ec.memory = s.ec.memory := by
  rcases ectbStep_ec h with ⟨-, he⟩ | ⟨-, -, he | ⟨v, isCmd, he⟩⟩ | ⟨-, -, he | ⟨v, he⟩ | he⟩ <;> simp [he]

/-- A race that outlasts a move of ECTB was there before, and its transaction is still under way. -/
theorem ectbStep_race (h : ectbStep s = .next t) (ht : t.ec.inRace = true) :
    s.ec.inRace = true ∧ (s.ectb.fsm = .tx → t.ectb.txOpen = true) := by
  rcases ectbStep_ec h with ⟨hf, he⟩ | ⟨-, ho, he | ⟨v, isCmd, he⟩⟩ | ⟨-, -, he | ⟨v, he⟩ | he⟩ <;> rw [he] at ht
  · exact ⟨ht, fun hf' => absurd hf' hf⟩
  · exact ⟨ht, fun _ => ho⟩
  · exact ⟨by simpa using ht, fun _ => ho⟩
  all_goals simp at ht

/-- In `TX` permission is granted (R234). -/
theorem Invariant.granted_of_tx (h : Invariant s) (hf : s.ectb.fsm = .tx) : s.ectb.acqState = .granted := by
  obtain ⟨-, hg, -⟩ := (inv_tx_iff hf).1 h.control
  exact hg

/-- Permission, once granted, outlasts every move of ECTB: only in `ACQ` is it asked for, and there it is not granted (R235). -/
theorem Invariant.ectbStep_granted (h : Invariant s) (hg : s.ectb.acqState = .granted) (ht : ectbStep s = .next t) :
    t.ectb.acqState = .granted := by
  have hf : s.ectb.fsm ≠ .acq := fun hf => by
    obtain ⟨-, hn, -⟩ := (inv_acq_iff hf).1 h.control
    rw [hn] at hg
    cases hg
  exact (ectbStep_acqState ht hf).trans hg

/-- A move of ECTB keeps the invariant. -/
theorem ectbStep_invariant (h : Invariant s) (ht : ectbStep s = .next t) : Invariant t where
  control := ectbStep_inv h.control ht
  code := by
    rcases ectbStep_rspErr ht with he | he | ⟨e, he⟩ <;> rw [he]
    · exact h.code
    · decide
    · exact code_toNat_le e
  permission := by
    rcases h.permission with hg | he
    · exact .inl (h.ectbStep_granted hg ht)
    · rcases ectbStep_trace ht with he' | ⟨x, hf, -, -⟩
      · exact .inr (he'.trans he)
      · exact .inl (h.ectbStep_granted (h.granted_of_tx hf) ht)
  commands := by
    rcases ectbStep_trace ht with he | ⟨x, -, hx, he⟩ <;> rw [he]
    · exact h.commands
    · exact List.forall_mem_cons.2 ⟨hx, h.commands⟩
  polls := ectbStep_pollsInBound h.polls ht
  registers := by rw [ectbStep_memory ht]; exact h.registers
  race := fun hr => by
    obtain ⟨hs, ho⟩ := ectbStep_race ht hr
    exact ho (txOpen_fsm (h.race hs))

end EctbStep

/-! ### Every agent keeps the invariant -/

section Agents
variable {e : Event} {s t : State}

/-- A move that leaves ECTB, its trace and the parameters alone keeps the invariant if the EC it leaves fits. -/
theorem Invariant.of_ec (h : Invariant s) (hectb : t.ectb = s.ectb) (htrace : t.trace = s.trace)
    (hparams : t.params = s.params) (hregs : t.ec.memory.wf = true) (hrace : t.ec.inRace = true → s.ectb.txOpen = true) :
    Invariant t where
  control := hectb ▸ h.control
  code := hectb ▸ h.code
  permission := by rw [hectb, htrace]; exact h.permission
  commands := htrace ▸ h.commands
  polls := by rw [hectb, hparams]; exact h.polls
  registers := hregs
  race := hectb ▸ hrace

/-- The EC's own move stores at most one byte in its registers. -/
theorem ecStep_registers (hs : s.ec.memory.wf = true) (h : ecStep s = .next t) : t.ec.memory.wf = true := by
  rcases ecStep_cases h with rfl | ⟨e, he, -, ⟨-, -, rfl⟩ | ⟨-, -, rfl⟩ | rfl | ⟨-, -, rfl⟩ | ⟨-, -, rfl⟩ | ⟨a, -, -, rfl⟩⟩
  · exact hs
  all_goals rw [he, memory_ref] at hs
  · exact hs
  · exact hs
  · rfl
  · obtain ⟨-, -, -, -, hm⟩ := ecAnswer_frame e s
    exact hm ▸ hs
  · exact hs
  · exact memory_write_wf e.regs a e.inByte hs

/-- The EC's own move begins no race. -/
theorem ecStep_inRace (h : ecStep s = .next t) (ht : t.ec.inRace = true) : s.ec.inRace = true := by
  rcases ecStep_cases h with rfl | ⟨e, -, -, ⟨-, -, rfl⟩ | ⟨-, -, rfl⟩ | rfl | ⟨-, -, rfl⟩ | ⟨-, -, rfl⟩ | ⟨a, -, -, rfl⟩⟩
  · exact ht
  · cases ht
  · cases ht
  · cases ht
  · unfold ecAnswer at ht
    split at ht <;> cases ht
  · cases ht
  · cases ht

theorem ecChange_registers (hs : s.ec.memory.wf = true) (a v : Byte) : (ecChange a v s).ec.memory.wf = true := by
  unfold ecChange
  split
  · exact hs
  · exact hs
  · rename_i e he
    rw [he, memory_ref] at hs
    exact memory_write_wf e.regs a v hs

theorem ecChange_inRace (a v : Byte) (s : State) : (ecChange a v s).ec.inRace = s.ec.inRace := by
  unfold ecChange
  split
  · rfl
  · rfl
  · rename_i e he
    rw [he]
    rfl

@[simp] theorem foreign_regs (e : EcRef) (x : ForeignAccess) : (e.foreign x).regs = e.regs := by cases x <;> rfl

/-- A foreign access writes no register, but for what the race it begins is drawn to leave behind. -/
theorem foreignStep_registers (hs : s.ec.memory.wf = true) (honours : Bool) (x : ForeignAccess) :
    (foreignStep honours x s).ec.memory.wf = true := by
  rcases foreignStep_cases honours x s with ⟨-, -, h⟩ | ⟨-, ⟨-, h⟩ | ⟨e, he, ⟨-, h⟩ | ⟨-, h⟩⟩⟩ <;> rw [h]
  · exact hs
  · exact hs
  · rw [he, memory_ref] at hs
    exact memory_writeAll_wf e.regs _ hs
  · rw [he, memory_ref] at hs
    rw [setEc_ec, memory_ref, foreign_regs]
    exact hs

/-- A race that a foreign access leaves under way was so before, or begins within a transaction. -/
theorem foreignStep_inRace {honours : Bool} {x : ForeignAccess} (h : (foreignStep honours x s).ec.inRace = true) :
    s.ec.inRace = true ∨ s.ectb.txOpen = true := by
  rcases foreignStep_cases honours x s with ⟨-, -, hs⟩ | ⟨-, ⟨-, hs⟩ | ⟨e, -, ⟨ho, -⟩ | ⟨-, hs⟩⟩⟩
  · exact .inl (hs ▸ h)
  · exact .inl (hs ▸ h)
  · exact .inr ho
  · rw [hs] at h
    cases h

theorem ectbReset_invariant (h : Invariant s) : Invariant (ectbReset s) where
  control := inv_of_idle rfl
  code := Nat.zero_le 5
  permission := .inr rfl
  commands := fun _ hx => nomatch hx
  polls := (pollsInBound_iff _ _).2 fun n hn =>
    ⟨((pollsInBound_iff _ _).1 h.polls n hn).1, fun hw => nomatch hw⟩
  registers := by simpa using h.registers
  race := fun hr => by simp at hr

/-- A move of any agent keeps the invariant. -/
theorem moveOf_invariant (h : Invariant s) (hm : moveOf e s = .next t) : Invariant t := by
  have hparams : t.params = s.params := moveOf_params hm
  cases e with
  | ectb =>
    obtain ⟨u, hu, rfl⟩ := ectbMove_next hm
    have hi : Invariant u := ectbStep_invariant h hu
    exact hi.of_ec rfl rfl rfl hi.registers hi.race
  | ec =>
    obtain ⟨hectb, htrace⟩ := moveOf_keeps_ectb hm nofun nofun
    exact h.of_ec hectb htrace hparams (ecStep_registers h.registers hm) fun hr => h.race (ecStep_inRace hm hr)
  | ecChange a v =>
    obtain ⟨hectb, htrace⟩ := moveOf_keeps_ectb hm nofun nofun
    cases hm
    exact h.of_ec hectb htrace hparams (ecChange_registers h.registers a v) fun hr =>
      h.race (ecChange_inRace a v s ▸ hr)
  | foreign honours x =>
    obtain ⟨hectb, htrace⟩ := moveOf_keeps_ectb hm nofun nofun
    cases hm
    exact h.of_ec hectb htrace hparams (foreignStep_registers h.registers honours x) fun hr =>
      (foreignStep_inRace hr).elim h.race id
  | caller => cases hm; exact h.of_ec rfl rfl rfl h.registers h.race
  | request q => cases hm; exact h.of_ec rfl rfl rfl h.registers h.race
  | reset => cases hm; exact ectbReset_invariant h

/-- Taking the next move from the schedule keeps the invariant. -/
theorem nextEvent_invariant (h : Invariant s) : Invariant s.nextEvent.2 := by
  obtain ⟨hectb, hec, -, hparams, htrace⟩ := nextEvent_frame s
  exact h.of_ec hectb htrace hparams (hec ▸ h.registers) (hec ▸ h.race)

end Agents

/-- Settles O47: each conjunct of the invariant is kept by each agent's move. -/
theorem everyStepKeepsTheInvariant : Obligations.EveryStepKeepsTheInvariant := by
  intro s t hs h
  exact (inv_iff t).2 (moveOf_invariant (nextEvent_invariant ((inv_iff s).1 hs)) h)

/-- Settles O49: only ECTB's own step touches the ports, in `TX`, where permission is granted, and only its reset ends it. -/
theorem portsNeedPermission : Obligations.PortsNeedPermission := by
  intro s t hs h hr
  have hi : Invariant s.nextEvent.2 := nextEvent_invariant ((inv_iff s).1 hs)
  obtain ⟨hectb, -, -, -, htrace⟩ := nextEvent_frame s
  rw [← hectb, ← htrace]
  unfold step at h
  by_cases he : s.nextEvent.1 = .ectb
  · rw [he] at h
    obtain ⟨u, hu, rfl⟩ := ectbMove_next h
    refine ⟨fun hne => ?_, fun hg => hi.ectbStep_granted (t := u) hg hu⟩
    rcases ectbStep_trace hu with hsame | ⟨x, hf, -, -⟩
    · exact absurd hsame hne
    · exact hi.granted_of_tx hf
  · obtain ⟨hsame, hnone⟩ := moveOf_keeps_ectb h he hr
    exact ⟨fun hne => absurd hnone hne, fun hg => hsame ▸ hg⟩

end Sys2Proof.Machine
end

section
/-! PROOFS. The EC's side of the ports: its command and data bytes at the reference EC (20_memory.md R65), and the answers of
an EC under no law or in a race (R64, R78). -/

namespace Sys2Proof.Machine

/-! ### Draws from the queue of answers -/

section Draws
variable {s : State} (f : Nat → Byte)

theorem drawByte_of_cons {b : Byte} {rest : List Byte} (h : s.env.answers = b :: rest) :
    (s.drawByte f).1 = b ∧ (s.drawByte f).2.env.answers = rest := by
  simp [State.drawByte, h]

theorem drawByte_of_nil (h : s.env.answers = []) :
    (s.drawByte f).1 = f s.env.draws ∧ (s.drawByte f).2.env.answers = [] := by
  simp [State.drawByte, h]

/-- A draw changes nothing but the environment. -/
theorem drawByte_state (s : State) : (s.drawByte f).2 = { s with env := (s.drawByte f).2.env } := by
  ext1 <;> simp

end Draws

/-! ### Command bytes -/

section Command
variable (p : EcPhase) {s : State}

theorem exec_ecReadCmd (s : State) : exec .ecReadCmd s = .next (beginPhase .rdAddr s) := rfl

theorem exec_ecWriteCmd (s : State) : exec .ecWriteCmd s = .next (beginPhase .wrAddr s) := rfl

theorem beginPhase_ref {e : EcRef} (h : s.ec = .ref e) : beginPhase p s = s.setEc (.ref (e.consume p)) := by
  simp [beginPhase, h]

theorem beginPhase_oracle (h : s.ec = .oracle) : beginPhase p s = s := by simp [beginPhase, h]

theorem beginPhase_race {e : EcRef} (h : s.ec = .race e) : beginPhase p s = s := by simp [beginPhase, h]

/-- A command byte that begins a transaction changes no EC register and nothing outside the EC. -/
theorem beginPhase_frame (s : State) :
    (beginPhase p s).ec.memory = s.ec.memory ∧ (beginPhase p s).ectb = s.ectb ∧ (beginPhase p s).caller = s.caller ∧
      (beginPhase p s).env = s.env ∧ (beginPhase p s).params = s.params ∧ (beginPhase p s).trace = s.trace := by
  cases he : s.ec with
  | oracle => simp [beginPhase_oracle p he, he]
  | ref e => simp [beginPhase_ref p he]
  | race e => simp [beginPhase_race p he, he]

end Command

/-- Settles O37: at the reference EC each of the two command bytes is a consumption into its phase. -/
theorem ecCommandBeginsATransaction : Obligations.EcCommandBeginsATransaction := by
  intro s e he
  rw [exec_ecReadCmd, exec_ecWriteCmd, beginPhase_ref _ he, beginPhase_ref _ he]
  exact ⟨rfl, rfl⟩

/-- Settles O42: both command bytes begin a phase, and beginning one keeps the frame at each kind of EC. -/
theorem ecCommandFrame : Obligations.EcCommandFrame := by
  intro i s t hi h
  obtain ⟨p, rfl⟩ : ∃ p, t = beginPhase p s := by
    rcases hi with rfl | rfl <;> cases h
    · exact ⟨.rdAddr, rfl⟩
    · exact ⟨.wrAddr, rfl⟩
  obtain ⟨hregs, hectb, hcaller, henv, hparams, htrace⟩ := beginPhase_frame p s
  refine ⟨fun a => by simp only [State.ecReg, hregs], hectb, hcaller, henv, hparams, htrace, fun he => ?_,
    fun e he => ?_, fun e e' he he' => ?_⟩
  · rw [beginPhase_oracle p he, he]
  · rw [beginPhase_race p he, he]
  · rw [beginPhase_ref p he] at he'
    cases he'
    exact ⟨rfl, rfl, rfl, rfl⟩

/-! ### Data bytes -/

section DataByte
variable {s : State} {e : EcRef}

/-- The EC's step on a data byte takes it in the role its phase gives it. -/
theorem step_ec_dataByte (he : s.ec = .ref e) (hb : e.ibf = true) (hd : e.inIsCmd = false) :
    step (s.scheduled [.ec]) = .next (ecDataByte e s) := by
  simp [moveOf, ecStep, he, hb, hd]

theorem ecDataByte_rdAddr (hp : e.phase = .rdAddr) : ecDataByte e s = ecAnswer e s := by simp [ecDataByte, hp]

theorem ecDataByte_wrAddr (hp : e.phase = .wrAddr) :
    ecDataByte e s = s.setEc (.ref (e.consume (.wrData e.inByte))) := by simp [ecDataByte, hp]

theorem ecDataByte_wrData {a : Byte} (hp : e.phase = .wrData a) :
    ecDataByte e s = s.setEc (.ref (e.store a e.inByte)) := by simp [ecDataByte, hp]

theorem ecAnswer_of_some {v : Byte} (h : e.regs.read e.inByte.toNat = some v) :
    ecAnswer e s = s.setEc (.ref (e.reply v)) := by simp [ecAnswer, h]

theorem ecAnswer_of_none (h : e.regs.read e.inByte.toNat = none) :
    ecAnswer e s = { s with
      ec := .ref (e.reply (s.drawByte Config.freeRegister).1), env := (s.drawByte Config.freeRegister).2.env } := by
  simp only [ecAnswer, h]
  rw [drawByte_state Config.freeRegister s]
  rfl

/-- A stored byte is the only register a value byte changes. -/
theorem store_ecReg_other (he : s.ec = .ref e) {a a' : Byte} (v : Byte) (h : a' ≠ a) :
    (s.setEc (.ref (e.store a v))).ecReg a' = s.ecReg a' := by
  have hn : a'.toNat ≠ a.toNat := fun heq => h (BitVec.eq_of_toNat_eq heq)
  simp [State.ecReg, he, memory_read_write_other _ _ hn]

end DataByte

/-- Settles O38, role by role. -/
theorem ecConsumesDataBytes : Obligations.EcConsumesDataBytes := by
  rintro s e b he hb hd rfl
  rw [step_ec_dataByte he hb hd]
  refine ⟨fun v hp hv => ?_, fun hp hv => ?_, fun hp => ?_, fun a hp => ?_⟩
  · rw [ecDataByte_rdAddr hp, ecAnswer_of_some hv]
    rfl
  · rw [ecDataByte_rdAddr hp, ecAnswer_of_none hv]
    exact ⟨_, _, rfl, drawByte_schedule _ s, drawByte_grants _ s, fun x rest ha => drawByte_of_cons _ ha,
      fun ha => drawByte_of_nil _ ha⟩
  · rw [ecDataByte_wrAddr hp]
    rfl
  · rw [ecDataByte_wrData hp]
    exact ⟨_, rfl, memory_read_write_same _ _ _, fun a' ha => store_ecReg_other he _ ha, rfl, rfl, rfl, rfl, rfl,
      _, rfl, rfl, rfl, rfl, rfl⟩

/-! ### Answers under no law -/

section Answers
variable {s : State} {b : Byte} {rest : List Byte} (he : s.ec = .oracle ∨ ∃ e, s.ec = .race e)
  (ha : s.env.answers = b :: rest)
include he ha

theorem readStatus_of_answer : (readStatus s).1 = b ∧ (readStatus s).2.env.answers = rest := by
  have hd : readStatus s = drawStatus s := by rcases he with he | ⟨e, he⟩ <;> simp [readStatus, he]
  rw [hd]
  exact drawByte_of_cons Config.freeStatus ha

theorem readData_of_answer : (readData s).1 = b ∧ (readData s).2.env.answers = rest := by
  have hd : readData s = drawData s := by rcases he with he | ⟨e, he⟩ <;> simp [readData, he]
  rw [hd]
  exact drawByte_of_cons Config.freeData ha

end Answers

/-- Settles O39: both reads of such an EC are draws, and a draw takes the queue's first byte. -/
theorem anyByteMayBeRead : Obligations.AnyByteMayBeRead := by
  intro i s b rest hi he hf ha
  obtain ⟨hstatus, hsrest⟩ := readStatus_of_answer he ha
  obtain ⟨hdata, hdrest⟩ := readData_of_answer he ha
  refine ⟨fun hs => ⟨_, exec_poll hi hf hs, ?_⟩, fun hs hk hg => ?_⟩
  · simp [pollStep, hstatus, hsrest]
  · rw [exec_act hi hf hs]
    exact ⟨fun h0 => ⟨_, actStep_rd_three_zero hk hg h0, by simp [hdata, hdrest]⟩,
      fun h1 => ⟨_, actStep_rd_three_one hk hg h1, by simp [hdata, hdrest]⟩⟩

end Sys2Proof.Machine
end

section
/-! PROOFS. Foreign traffic: the extent of the lock, what a foreign access does, and when a race begins and ends (20_memory.md
R78, 60_exceptions.md R240). -/

namespace Sys2Proof.Machine

/-! ### The lock -/

section Lock
variable (c : Ectb)

/-- A transaction is under way from after its first POLL on (R240). -/
theorem txOpen_iff : c.txOpen = true ↔ c.fsm = .tx ∧ (c.txStage ≠ .one ∨ c.txSub = .act ∨ 0 < c.polls) := by
  have hsub : c.txSub ≠ .poll ↔ c.txSub = .act := by cases c.txSub <;> simp
  simp only [Ectb.txOpen, Bool.and_eq_true, Bool.not_eq_true', Bool.and_eq_false_iff, beq_iff_eq, beq_eq_false_iff_ne,
    ne_eq, Nat.pos_iff_ne_zero, ← hsub, or_assoc]

theorem lockHeld_perRequest_iff :
    c.lockHeld .perRequest = true ↔ c.txOpen = true ∨ ((c.fsm = .seq ∨ c.fsm = .tx) ∧ 0 < c.k) := by
  simp [Ectb.lockHeld]

/-- With either lock, it is held while a transaction is under way. -/
theorem lockHeld_of_txOpen {g : Guard} (hg : g ≠ .absent) (h : c.txOpen = true) : c.lockHeld g = true := by
  cases g with
  | absent => exact absurd rfl hg
  | perTransaction => exact h
  | perRequest => exact (lockHeld_perRequest_iff c).2 (.inl h)

end Lock

/-! ### A foreign access -/

section Draws
variable {s : State}

theorem drawRace_of_cons {q : RaceResult} {rest : List RaceResult} (h : s.env.races = q :: rest) :
    s.drawRace.1 = q ∧ s.drawRace.2.env.races = rest := by
  simp [State.drawRace, h]

theorem drawRace_of_nil (h : s.env.races = []) :
    s.drawRace.1 = Config.freeRace s.env.draws ∧ s.drawRace.2.env.races = [] := by
  simp [State.drawRace, h]

/-- Drawing what a race leaves changes nothing but the environment. -/
theorem drawRace_state (s : State) : s.drawRace.2 = { s with env := s.drawRace.2.env } := by
  ext1 <;> simp

theorem beginRace_eq (e : EcRef) (s : State) :
    beginRace e s = { s with ec := .race (e.after s.drawRace.1), env := s.drawRace.2.env } := by
  rw [beginRace, drawRace_state s]
  rfl

end Draws

section Access
variable {s : State} {honours : Bool}

theorem step_foreign (honours : Bool) (x : ForeignAccess) (s : State) :
    step (s.scheduled [.foreign honours x]) = .next (foreignStep honours x s) := rfl

/-- A foreign access the lock keeps out (R240). -/
theorem foreignStep_of_locked (x : ForeignAccess) (h : s.ectb.lockHeld s.params.guard = true) :
    foreignStep true x s = s := by
  simp [foreignStep, h]

theorem foreignStep_oracle (honours : Bool) (x : ForeignAccess) (h : s.ec = .oracle) : foreignStep honours x s = s := by
  simp [foreignStep, h]

/-- A foreign access that is not kept out begins a race within a transaction, and is a host's access outside one (R78). -/
theorem foreignStep_ref (x : ForeignAccess) (hl : honours = false ∨ s.ectb.lockHeld s.params.guard = false) {e : EcRef}
    (he : s.ec = .ref e) :
    foreignStep honours x s = if s.ectb.txOpen then beginRace e s else s.setEc (.ref (e.foreign x)) := by
  have hfree : (honours && s.ectb.lockHeld s.params.guard) = false := by rcases hl with h | h <;> simp [h]
  simp [foreignStep, hfree, he]

end Access

/-- The last write a race makes to a register is what it leaves there (R78). -/
theorem after_read_of_last_write {r : RaceResult} {a v : Byte} {ws vs : List (Byte × Byte)} (e : EcRef)
    (hr : r.writes = ws ++ (a, v) :: vs) (hl : ∀ w, (a, w) ∉ vs) : (e.after r).regs.read a.toNat = some v := by
  rw [after_regs, hr, memory_writeAll_append, memory_writeAll_cons, memory_read_writeAll_other _ _ _ hl,
    memory_read_write_same]

/-! ### How long a race lasts -/

section Race
variable {ev : Event} {s t : State} {e : EcRef}

/-- A race goes on through every move until its transaction is over, and is over then. -/
theorem moveOf_race (he : s.ec = .race e) (ho : s.ectb.txOpen = true) (h : moveOf ev s = .next t) :
    t.ec = if t.ectb.txOpen then .race e else .ref e := by
  have stays (hectb : t.ectb = s.ectb) (hec : t.ec = s.ec) : t.ec = if t.ectb.txOpen then .race e else .ref e := by
    rw [hectb, if_pos ho, hec, he]
  cases ev with
  | ectb =>
    obtain ⟨u, hu, rfl⟩ := ectbMove_next h
    rw [recordFinish_ec, recordFinish_ectb]
    rcases ectbStep_ec hu with ⟨hf, -⟩ | ⟨-, hu, hec⟩ | ⟨-, hu, hec⟩
    · exact absurd (txOpen_fsm ho) hf
    · rw [if_pos hu]
      rcases hec with hec | ⟨v, isCmd, hec⟩ <;> simp [hec, he]
    · rw [hu]
      rcases hec with hec | ⟨v, hec⟩ | hec <;> simp [hec, he, readData_ec]
  | ec =>
    rcases ecStep_cases h with rfl | ⟨e', he', -⟩
    · exact stays rfl rfl
    · rw [he] at he'
      cases he'
  | ecChange a v =>
    cases h
    have hsame : ecChange a v s = s := by simp [ecChange, he]
    rw [hsame] at stays ⊢
    exact stays rfl rfl
  | foreign honours x =>
    cases h
    have hsame : foreignStep honours x s = s := by simp [foreignStep, he]
    rw [hsame] at stays ⊢
    exact stays rfl rfl
  | caller => cases h; exact stays rfl rfl
  | request q => cases h; exact stays rfl rfl
  | reset =>
    cases h
    rw [ectbReset_ec, he]
    rfl

/-- Every foreign master's move among these is kept out of transactions: it honours a lock, and there is one (R240). -/
def ForeignKeptOut (g : Guard) (es : List Event) : Prop :=
  ∀ honours x, Event.foreign honours x ∈ es → honours = true ∧ g ≠ .absent

theorem foreignKeptOut_of_premise {g : Guard} {es : List Event}
    (h : NoForeignTraffic es ∨ (ForeignMastersHonour es ∧ g ≠ .absent)) : ForeignKeptOut g es := by
  intro honours x hx
  rcases h with hno | ⟨hall, hg⟩
  · exact absurd hx (hno honours x)
  · cases honours with
    | false => exact absurd hx (hall x)
    | true => exact ⟨rfl, hg⟩

/-- No move begins a race but a foreign access that no lock keeps out. -/
theorem moveOf_inRace {es : List Event} (h : moveOf ev s = .next t) (hk : ForeignKeptOut s.params.guard (ev :: es))
    (hs : s.ec.inRace = false) : t.ec.inRace = false := by
  rw [← Bool.not_eq_true] at hs ⊢
  intro ht
  cases ev with
  | ectb =>
    obtain ⟨u, hu, rfl⟩ := ectbMove_next h
    exact hs (ectbStep_race hu ht).1
  | ec => exact hs (ecStep_inRace h ht)
  | ecChange a v =>
    cases h
    exact hs (ecChange_inRace a v s ▸ ht)
  | foreign honours x =>
    cases h
    obtain ⟨rfl, hg⟩ := hk honours x (by simp)
    have ho : s.ectb.txOpen = true := (foreignStep_inRace ht).resolve_left hs
    rw [foreignStep_of_locked x (lockHeld_of_txOpen _ hg ho)] at ht
    exact hs ht
  | caller => cases h; exact hs ht
  | request q => cases h; exact hs ht
  | reset =>
    cases h
    simp at ht

/-- A run of moves kept out of transactions sees no race. -/
theorem run_inRace {m : Nat} {es rest : List Event} (hk : ForeignKeptOut s.params.guard es)
    (hsched : s.env.schedule = es ++ rest) (hm : m ≤ es.length) (hs : s.ec.inRace = false) (h : run m s = .next t) :
    t.ec.inRace = false := by
  induction m generalizing s es with
  | zero => cases h; exact hs
  | succ m ih =>
    cases es with
    | nil => simp at hm
    | cons ev es =>
      rw [List.cons_append] at hsched
      simp only [run, step_of_schedule hsched] at h
      cases hu : moveOf ev { s with env := { s.env with schedule := es ++ rest } } with
      | next u =>
        rw [hu] at h
        have hparams : u.params = s.params := (moveOf_params hu :)
        have hk' : ForeignKeptOut u.params.guard es := fun honours x hx =>
          hparams ▸ hk honours x (List.mem_cons_of_mem _ hx)
        exact ih hk' (moveOf_schedule hu) (Nat.le_of_succ_le_succ hm) (moveOf_inRace hu hk hs) h
      | fault r => rw [hu] at h; cases h
      | refused r => rw [hu] at h; cases h

end Race

/-- Settles O40: the lock's extent, a foreign access's effect, what a race leaves, how long it lasts, and when none begins. -/
theorem foreignAccessIsLockedOutOrARace : Obligations.ForeignAccessIsLockedOutOrARace := by
  refine ⟨fun c => ⟨txOpen_iff c, rfl, rfl, lockHeld_perRequest_iff c⟩, fun s x honours => ⟨fun hl => ?_, fun he => ?_,
    fun hl e he => ⟨fun ho => ?_, fun ho => ?_⟩⟩, fun r e => ?_, fun s t e he ho h => ?_, fun s t es m hs hes hm h => ?_⟩
  · rw [step_foreign, foreignStep_of_locked x hl]
  · rw [step_foreign, foreignStep_oracle honours x he]
  · rw [step_foreign, foreignStep_ref x hl he, if_pos ho, beginRace_eq]
    exact ⟨_, _, rfl, drawRace_schedule s, drawRace_answers s, drawRace_grants s, fun q rest hr => drawRace_of_cons hr,
      fun hr => drawRace_of_nil hr⟩
  · have host (y : ForeignAccess) : step (s.scheduled [.foreign honours y]) = .next (s.setEc (.ref (e.foreign y))) := by
      rw [step_foreign, foreignStep_ref y hl he, ho]
      rfl
    refine ⟨fun v => host _, fun c => host _, host _, ?_⟩
    rw [host]
    exact congrArg _ (State.ext rfl he.symm rfl rfl rfl rfl)
  · exact ⟨rfl, rfl, rfl, rfl, rfl, rfl, fun a hn => memory_read_writeAll_other _ _ a hn,
      fun a v ws vs hr hl => after_read_of_last_write e hr hl⟩
  · obtain ⟨hectb, hec, -⟩ := nextEvent_frame s
    exact moveOf_race (hec.trans he) (hectb ▸ ho) h
  · exact run_inRace (s := s.scheduled es) (foreignKeptOut_of_premise hes) rfl hm hs h

end Sys2Proof.Machine
end

section
/-! PROOFS. The fields of the word that spells each request, and from them the round trip of the encoder and the decoder, both
ways (30_encoding.md R91, R95 to R101, R108). -/

namespace Sys2Proof

/-! ### The fields of a word that decodes -/

/-- The fields that spell an instruction, beside zero reserved bits: its row's opcode, its operands, and zeros where its row asks
for them (R96 to R98). A command byte has no request word. -/
def Req.Spells (q : ReqWord) : Instr → Prop
  | .rdreg addr => Req.op q = opRdreg ∧ Req.addr q = addr ∧ Req.data q = 0
  | .wrreg addr value => Req.op q = opWrreg ∧ Req.addr q = addr ∧ Req.data q = value
  | .getb fidx => Req.op q = opGetb ∧ Req.fidx q = fidx ∧ Req.opnd q = 0
  | .geti fidx => Req.op q = opGeti ∧ Req.fidx q = fidx ∧ Req.opnd q = 0
  | .setb fidx value => Req.op q = opSetb ∧ Req.fidx q = fidx ∧ Req.opnd q = boolOperand value
  | .togl fidx => Req.op q = opTogl ∧ Req.fidx q = fidx ∧ Req.opnd q = 0
  | .setl fidx n => Req.op q = opSetl ∧ Req.fidx q = fidx ∧ Req.opnd q = n
  | .ecReadCmd => False
  | .ecWriteCmd => False

/-- A word that decodes has zero reserved bits and the fields of its instruction: one case per answer of the decoder. -/
theorem spells_of_decodeRequest {q : ReqWord} {i : Instr} (h : decodeRequest q = .ok i) :
    Req.rsv q = 0 ∧ Req.Spells q i := by
  revert h
  fun_cases decodeRequest q
  all_goals intro h; cases h
  case case3 => exact ⟨not_not.1 ‹_›, ‹_›, rfl, not_not.1 ‹_›⟩
  case case4 => exact ⟨not_not.1 ‹_›, ‹_›, rfl, rfl⟩
  case case6 => exact ⟨not_not.1 ‹_›, ‹_›, rfl, not_not.1 ‹_›⟩
  case case8 => exact ⟨not_not.1 ‹_›, ‹_›, rfl, not_not.1 ‹_›⟩
  case case10 => exact ⟨not_not.1 ‹_›, ‹_›, rfl, (boolOperand_of_high (not_not.1 ‹_›)).symm⟩
  case case12 => exact ⟨not_not.1 ‹_›, ‹_›, rfl, not_not.1 ‹_›⟩
  case case13 => exact ⟨not_not.1 ‹_›, ‹_›, rfl, rfl⟩

/-- A word with zero reserved bits and the fields of an instruction decodes to it. -/
theorem decodeRequest_of_spells {q : ReqWord} {i : Instr} (hr : Req.rsv q = 0) (h : Req.Spells q i) :
    decodeRequest q = .ok i := by
  have opcodes : opRdreg = 1 ∧ opWrreg = 2 ∧ opGetb = 3 ∧ opGeti = 4 ∧ opSetb = 5 ∧ opTogl = 6 ∧ opSetl = 7 := by decide
  cases i with
  | ecReadCmd => exact h.elim
  | ecWriteCmd => exact h.elim
  | _ => obtain ⟨ho, rfl, hd⟩ := h; simp [decodeRequest, hr, ho, hd, opcodes]

/-! ### The round trip -/

/-- Settles O1: a request's word has the fields that spell it, and the two command bytes differ. -/
theorem decodeOfEncodeIsTheInstruction : Obligations.DecodeOfEncodeIsTheInstruction := by
  intro i
  cases i with
  | rdreg | wrreg => exact decodeRequest_of_spells (rsv_formatT _ _ _) (by simp [Req.Spells])
  | getb | geti | setb | togl | setl => exact decodeRequest_of_spells (rsv_formatF _ _ _) (by simp [Req.Spells])
  | ecReadCmd | ecWriteCmd => rfl

/-- A word with zero reserved bits and the fields of an instruction is the instruction's word. -/
theorem encode_of_spells {q : ReqWord} {i : Instr} (hr : Req.rsv q = 0) (h : Req.Spells q i) : encode i = .request q := by
  cases i with
  | rdreg | wrreg =>
    obtain ⟨ho, rfl, hd⟩ := h
    exact congrArg Wire.request (by rw [← ho, ← hd, formatT_of_fields hr])
  | getb | geti | setb | togl | setl =>
    obtain ⟨ho, rfl, hd⟩ := h
    exact congrArg Wire.request (by rw [← ho, ← hd, formatF_of_fields hr])
  | ecReadCmd | ecWriteCmd => exact h.elim

/-- Settles O2: a request word is the one of its fields, and each command byte is the one of its instruction. -/
theorem encodeOfDecodeIsTheWord : Obligations.EncodeOfDecodeIsTheWord := by
  intro w i h
  cases w with
  | request q =>
    obtain ⟨hr, hs⟩ := spells_of_decodeRequest h
    exact encode_of_spells hr hs
  | command c =>
    obtain ⟨rfl, rfl⟩ | ⟨rfl, rfl⟩ := Machine.decodeCommand_cases h
    · rfl
    · rfl

/-- Settles O3: each word is decoded. -/
theorem wordsOfTheSpecDecode : Obligations.WordsOfTheSpecDecode :=
  ⟨rfl, rfl, rfl, rfl, rfl, rfl, rfl, rfl, rfl, rfl, rfl, rfl⟩

end Sys2Proof
end

section
/-! PROOFS. The opcode map: a word spells a request exactly when it matches the request's row under the row's mask (30_encoding.md
R98). -/

namespace Sys2Proof

/-- A field that a mask selects whole is the match's field. -/
theorem field_of_match {q mask value : ReqWord} (h : q &&& mask = value) {start len : Nat}
    (hm : mask.extractLsb' start len = BitVec.allOnes len) : q.extractLsb' start len = value.extractLsb' start len := by
  rw [← h, BitVec.extractLsb'_and, hm, BitVec.and_allOnes]

/-- A word that decodes matches the row of its instruction. -/
theorem match_of_decode {q : ReqWord} {i : Instr} {r : OpcodeRow} (h : decode (.request q) = .ok i)
    (hr : opcodeRow i = some r) : q &&& r.mask = r.value := by
  have law : Laws.OpcodeMap.Statement i := by
    cases i with
    | rdreg addr => exact Laws.OpcodeMap.rdreg addr
    | wrreg addr value => exact Laws.OpcodeMap.wrreg addr value
    | getb fidx => exact Laws.OpcodeMap.getb fidx
    | geti fidx => exact Laws.OpcodeMap.geti fidx
    | setb fidx value => exact Laws.OpcodeMap.setb fidx value
    | togl fidx => exact Laws.OpcodeMap.togl fidx
    | setl fidx n => exact Laws.OpcodeMap.setl fidx n
    | ecReadCmd => exact Laws.OpcodeMap.ecReadCmd
    | ecWriteCmd => exact Laws.OpcodeMap.ecWriteCmd
  rw [Laws.OpcodeMap.Statement, encodeOfDecodeIsTheWord _ _ h] at law
  obtain ⟨r', hr', hs⟩ := law
  cases hr.symm.trans hr'
  exact beq_iff_eq.1 hs

/-- Settles O4: a word that decodes matches its row, and the fields of a row's mask are the ones that spell its instruction. -/
theorem wordSpellsInstructionByMatchAndMask : Obligations.WordSpellsInstructionByMatchAndMask := by
  intro q
  refine ⟨⟨fun ⟨_, h⟩ => match_of_decode h rfl, fun h => ⟨Req.addr q, ?_⟩⟩,
    ⟨fun ⟨_, _, h⟩ => match_of_decode h rfl, fun h => ⟨Req.addr q, Req.data q, ?_⟩⟩,
    ⟨fun ⟨_, h⟩ => match_of_decode h rfl, fun h => ⟨Req.fidx q, ?_⟩⟩,
    ⟨fun ⟨_, h⟩ => match_of_decode h rfl, fun h => ⟨Req.fidx q, ?_⟩⟩,
    ⟨fun ⟨_, _, h⟩ => match_of_decode h rfl, fun h => ⟨Req.fidx q, (Req.opnd q).getLsbD 0, ?_⟩⟩,
    ⟨fun ⟨_, h⟩ => match_of_decode h rfl, fun h => ⟨Req.fidx q, ?_⟩⟩,
    ⟨fun ⟨_, _, h⟩ => match_of_decode h rfl, fun h => ⟨Req.fidx q, Req.opnd q, ?_⟩⟩⟩
  all_goals refine decodeRequest_of_spells (field_of_match h rfl) ⟨field_of_match h rfl, rfl, ?_⟩
  · exact field_of_match h rfl
  · rfl
  · exact field_of_match h rfl
  · exact field_of_match h rfl
  · have high : (Req.opnd q).extractLsb' 1 15 = q.extractLsb' 1 15 := BitVec.extractLsb'_extractLsb'_of_le (by decide)
    exact (boolOperand_of_high (high.trans (field_of_match h rfl))).symm
  · exact field_of_match h rfl
  · rfl

end Sys2Proof
end

section
/-! PROOFS. Request words as numbers: what the number of a word that decodes can be, and so what follows a word that spells no
request (30_encoding.md R95 to R100). -/

namespace Sys2Proof

/-! ### The fields as numbers -/

section Fields
variable (q : ReqWord)

theorem op_toNat : (Req.op q).toNat = q.toNat / 2 ^ 28 := by
  rw [Req.op, BitVec.extractLsb'_toNat, Nat.shiftRight_eq_div_pow]
  have := q.isLt
  omega

theorem rsv_toNat : (Req.rsv q).toNat = q.toNat / 2 ^ 24 % 16 := by
  rw [Req.rsv, BitVec.extractLsb'_toNat, Nat.shiftRight_eq_div_pow]

theorem data_toNat : (Req.data q).toNat = q.toNat % 256 := by
  rw [Req.data, BitVec.extractLsb'_toNat, Nat.shiftRight_zero]

theorem opnd_toNat : (Req.opnd q).toNat = q.toNat % 65536 := by
  rw [Req.opnd, BitVec.extractLsb'_toNat, Nat.shiftRight_zero]

end Fields

/-- SETB's operand is 0 or 1. -/
theorem boolOperand_toNat_lt (v : Bool) : (boolOperand v).toNat < 2 := by cases v <;> decide

/-- The number of a word that decodes: its opcode is one of the seven, and its must-be-zero bits are zero (R98). -/
theorem number_of_decode {q : ReqWord} {i : Instr} (h : decode (.request q) = .ok i) :
    (1 ≤ q.toNat / 2 ^ 28 ∧ q.toNat / 2 ^ 28 ≤ 7) ∧ q.toNat / 2 ^ 24 % 16 = 0 ∧
      (q.toNat / 2 ^ 28 = 1 → q.toNat % 256 = 0) ∧
      (q.toNat / 2 ^ 28 = 3 ∨ q.toNat / 2 ^ 28 = 4 ∨ q.toNat / 2 ^ 28 = 6 → q.toNat % 65536 = 0) ∧
      (q.toNat / 2 ^ 28 = 5 → q.toNat % 65536 / 2 = 0) := by
  obtain ⟨hr, hs⟩ := spells_of_decodeRequest h
  rw [← op_toNat, ← rsv_toNat, ← data_toNat, ← opnd_toNat, hr]
  cases i with
  | ecReadCmd | ecWriteCmd => exact hs.elim
  | setb fidx value =>
    obtain ⟨ho, -, hd⟩ := hs
    have := boolOperand_toNat_lt value
    simp [ho, hd, opSetb]
    omega
  | _ =>
    obtain ⟨ho, -, hd⟩ := hs
    simp [ho, hd, opRdreg, opWrreg, opGetb, opGeti, opTogl, opSetl]

/-- Settles O5: no such number is one of a word that decodes, so ACCEPT ends the request with INVALID_REQUEST. -/
theorem illegalWordEndsAtOnce : Obligations.IllegalWordEndsAtOnce := by
  rintro s q hf hv rfl illegal
  have undecodable : ∃ e, decode (.request s.caller.reqWord) = .error e := by
    cases h : decode (.request s.caller.reqWord) with
    | error e => exact ⟨e, rfl⟩
    | ok i =>
      have := number_of_decode h
      omega
  obtain ⟨e, he⟩ := undecodable
  have opcode : Req.op s.caller.reqWord = BitVec.ofNat 4 (s.caller.reqWord.toNat / 2 ^ 28) := by
    rw [← op_toNat, BitVec.ofNat_toNat, BitVec.setWidth_eq]
  refine ⟨⟨e, he⟩, _, Machine.ectbMove_of_step (Machine.ectbStep_of_decodeError hf hv he), ⟨rfl, rfl, rfl, rfl⟩, ?_⟩
  rw [← opcode]
  rfl

end Sys2Proof
end

section
/-! PROOFS. The assembler: each line's words as numbers, and what they decode to (30_encoding.md R95 to R98, R109, R110). -/

namespace Sys2Proof.Machine

/-! ### The words' numbers -/

/-- The number of a format T word (R96). -/
theorem formatT_toNat (op : BitVec 4) (addr : Half) (data : Byte) :
    (Req.formatT op addr data).toNat = op.toNat * 2 ^ 28 + addr.toNat * 2 ^ 8 + data.toNat := by
  have h : (Req.formatT op addr data).toNat = ((op.toNat <<< 4 ||| 0) <<< 16 ||| addr.toNat) <<< 8 ||| data.toNat := by
    simp only [Req.formatT, BitVec.toNat_append]
    rfl
  rw [h, shiftLeft_or_low data.isLt, shiftLeft_or_low addr.isLt, shiftLeft_or_low (by norm_num)]
  omega

/-- The number of a format F word (R97). -/
theorem formatF_toNat (op : BitVec 4) (fidx : Byte) (opnd : Half) :
    (Req.formatF op fidx opnd).toNat = op.toNat * 2 ^ 28 + fidx.toNat * 2 ^ 16 + opnd.toNat := by
  have h : (Req.formatF op fidx opnd).toNat = ((op.toNat <<< 4 ||| 0) <<< 8 ||| fidx.toNat) <<< 16 ||| opnd.toNat := by
    simp only [Req.formatF, BitVec.toNat_append]
    rfl
  rw [h, shiftLeft_or_low opnd.isLt, shiftLeft_or_low fidx.isLt, shiftLeft_or_low (by norm_num)]
  omega

/-! ### The words of a line -/

/-- The word of a request, given as a number. -/
theorem encode_eq_ofNat {i : Instr} {q : ReqWord} {n : Nat} (hi : encode i = .request q) (hn : q.toNat = n) :
    encode i = .request (BitVec.ofNat 32 n) := by
  rw [hi, ← hn, BitVec.ofNat_toNat, BitVec.setWidth_eq]

/-- A line of one request is that request's word, unless a number of it is too large. -/
theorem assemble_of_request {a : Asm} {i : Instr} {ok : Bool} {q : ReqWord} (ha : asmInstrs a = [i]) (hok : a.wf = ok)
    (hi : ok = true → encode i = .request q) : assemble a = if ok then some [q] else none := by
  cases ok with
  | false => simp [assemble, hok]
  | true => simp [assemble, hok, ha, requestWords, hi rfl]

/-- The words of a list of requests, where each word is known. -/
theorem requestWords_map {ns : List Nat} {f : Nat → Instr} {w : Nat → ReqWord}
    (h : ∀ n ∈ ns, encode (f n) = .request (w n)) : requestWords (ns.map f) = ns.map w := by
  induction ns with
  | nil => rfl
  | cons n ns ih =>
    have tail := ih fun m hm => h m (List.mem_cons_of_mem _ hm)
    simpa [requestWords, h n List.mem_cons_self] using tail

/-- The words of a list of requests decode to the list. -/
theorem decode_requestWords {is : List Instr} (h : ∀ i ∈ is, isRequest i = true) :
    (requestWords is).map (fun q => decode (.request q)) = is.map Except.ok := by
  induction is with
  | nil => rfl
  | cons i is ih =>
    have tail := ih fun j hj => h j (List.mem_cons_of_mem _ hj)
    cases hq : encode i with
    | request q =>
      have hd : decode (.request q) = .ok i := hq ▸ decodeOfEncodeIsTheInstruction i
      simpa [requestWords, hq, hd] using tail
    | command c =>
      have := h i List.mem_cons_self
      cases i <;> simp_all [encode, isRequest]

/-- A line stands for requests only. -/
theorem asmInstrs_isRequest {a : Asm} {i : Instr} (h : i ∈ asmInstrs a) : isRequest i = true := by
  cases a with
  | dump =>
    obtain ⟨n, -, rfl⟩ := List.mem_map.1 h
    rfl
  | _ => cases List.mem_singleton.1 h; rfl

/-- The number a `<field>` stands for, whether or not it fits an index: a name's is its index in R170. -/
def fieldNumber : FieldRef → Nat
  | .name f => (fieldIndex f).toNat
  | .index n => n

/-- A `<field>` is well-formed when its number is an index. -/
theorem fieldRef_wf (f : FieldRef) : f.wf = decide (fieldNumber f < 256) := by
  cases f with
  | name g => exact (decide_eq_true (fieldIndex g).isLt).symm
  | index n => rfl

theorem fieldRefIndex_toNat {f : FieldRef} (h : fieldNumber f < 256) : (fieldRefIndex f).toNat = fieldNumber f := by
  cases f with
  | name g => rfl
  | index n => exact Nat.mod_eq_of_lt h

/-- A line of one field request, with its word as a number. -/
theorem assemble_of_fieldRequest {a : Asm} {i : Instr} {f : FieldRef} {op : BitVec 4} {opnd : Half} {n : Nat}
    (ha : asmInstrs a = [i]) (hi : encode i = .request (Req.formatF op (fieldRefIndex f) opnd)) (hok : a.wf = f.wf)
    (hn : op.toNat * 2 ^ 28 + fieldNumber f * 2 ^ 16 + opnd.toNat = n) :
    assemble a = if decide (fieldNumber f < 256) then some [BitVec.ofNat 32 n] else none :=
  assemble_of_request ha (hok.trans (fieldRef_wf f)) fun h => encode_eq_ofNat hi <| by
    rw [formatF_toNat, fieldRefIndex_toNat (of_decide_eq_true h), hn]

/-- The word of a read, as a number. -/
theorem encode_rdreg_number {n : Nat} (h : n < 65536) :
    encode (.rdreg (BitVec.ofNat 16 n)) = .request (BitVec.ofNat 32 (0x10000000 + n * 2 ^ 8)) := by
  refine encode_eq_ofNat rfl ?_
  rw [formatT_toNat, BitVec.toNat_ofNat, Nat.mod_eq_of_lt h]
  simp [opRdreg]

/-- Settles O6: each line is one request with its word as a number, `dump` is a list of them, and words of requests decode to
them. -/
theorem assemblerEncodesEveryLine : Obligations.AssemblerEncodesEveryLine := by
  unfold Obligations.AssemblerEncodesEveryLine
  intro number word
  have hnumber : number = fieldNumber := by
    funext f
    cases f with
    | name g => cases g <;> rfl
    | index n => rfl
  rw [hnumber]
  refine ⟨fun n => ?rdreg, fun n v => ?wrreg, fun f => ?getb, fun f => ?geti, fun f v => ?setb, fun f => ?togl,
    fun f n => ?setl, fun f => ?on, fun f => ?off, ?dump, fun a ws h => ?decode⟩
  case rdreg => exact assemble_of_request rfl rfl fun h => encode_rdreg_number (of_decide_eq_true h)
  case wrreg =>
    refine assemble_of_request rfl rfl fun h => encode_eq_ofNat rfl ?_
    obtain ⟨hn, hv⟩ := (Bool.and_eq_true _ _).mp h
    rw [formatT_toNat, BitVec.toNat_ofNat, Nat.mod_eq_of_lt (of_decide_eq_true hn), BitVec.toNat_ofNat,
      Nat.mod_eq_of_lt (of_decide_eq_true hv)]
    simp [opWrreg]
  case getb => exact assemble_of_fieldRequest rfl rfl rfl (by simp [opGetb])
  case geti => exact assemble_of_fieldRequest rfl rfl rfl (by simp [opGeti])
  case setb => exact assemble_of_fieldRequest rfl rfl rfl (by cases v <;> simp [opSetb, boolOperand])
  case togl => exact assemble_of_fieldRequest rfl rfl rfl (by simp [opTogl])
  case setl =>
    refine assemble_of_request rfl (congrArg (· && _) (fieldRef_wf f)) fun h => encode_eq_ofNat rfl ?_
    obtain ⟨hf, hn⟩ := (Bool.and_eq_true _ _).mp h
    rw [formatF_toNat, fieldRefIndex_toNat (of_decide_eq_true hf), BitVec.toNat_ofNat,
      Nat.mod_eq_of_lt (of_decide_eq_true hn)]
    simp [opSetl]
  case on => exact assemble_of_fieldRequest rfl rfl rfl (by simp [opSetb, boolOperand]; omega)
  case off => exact assemble_of_fieldRequest rfl rfl rfl (by simp [opSetb, boolOperand])
  case dump =>
    refine congrArg some (requestWords_map fun n hn => encode_rdreg_number ?_)
    have := List.mem_range.1 hn
    omega
  case decode =>
    unfold assemble at h
    split at h
    · cases h
      exact decode_requestWords fun i hi => asmInstrs_isRequest hi
    · cases h

end Sys2Proof.Machine
end

section
/-! PROOFS. The well-formedness of a descriptor from its number (30_encoding.md R104 to R106). -/

namespace Sys2Proof.Machine

/-- The kind a descriptor has, by the number of its `KIND` (R104). -/
theorem kind_cases {d : Descriptor} {n : Nat} (h : d.toNat / 2 ^ 60 = n) :
    (8 ≤ n ∧ Desc.kind d = .reserved) ∨ (n = 0 ∧ Desc.kind d = .none) ∨ (n = 1 ∧ Desc.kind d = .bool) ∨
      (n = 2 ∧ Desc.kind d = .enum) ∨ (n = 3 ∧ Desc.kind d = .u8) ∨ (n = 4 ∧ Desc.kind d = .u16le) ∨
      (n = 5 ∧ Desc.kind d = .scaled) ∨ (n = 6 ∧ Desc.kind d = .level) ∨ (n = 7 ∧ Desc.kind d = .maskedGt) := by
  rw [← kindBits_toNat] at h
  unfold Desc.kind
  split <;> simp_all
  omega

/-- Well-formedness with the reserved bits and the polarity as numbers, and the kind's row of R106 aside. -/
theorem wf_iff (d : Descriptor) :
    Desc.wf d = true ↔ d.toNat / 2 ^ 56 % 8 = 0 ∧ d.toNat % 256 = 0 ∧
      (d.toNat / 2 ^ 59 % 2 = 1 → Desc.kind d = .bool) ∧ Desc.kindWf d = true := by
  simp only [Desc.wf, Bool.and_eq_true, Bool.or_eq_true, Bool.not_eq_true', beq_iff_eq, BitVec.toNat_eq, rsv0_toNat,
    rsv1_toNat, inv_eq, decide_eq_false_iff_not, and_assoc, imp_iff_not_or]
  rfl

/-- Settles O35: kind by kind, the row's conditions are conditions on the fields' numbers. -/
theorem descriptorWellFormedness : Obligations.DescriptorWellFormedness := by
  intro d kind inv addr addrHi mask param scale
  have haddr : (Desc.addr d).toNat = addr := addr_toNat d
  have haddrHi : (Desc.addrHi d).toNat = addrHi := addrHi_toNat d
  have hmask : (Desc.mask d).toNat = mask := mask_toNat d
  have hparam : (Desc.param d).toNat = param := param_toNat d
  have hscale : (Desc.scale d).toNat = scale := scale_toNat d
  have hkind := kind_cases (rfl : _ = kind)
  rw [wf_iff]
  refine and_congr Iff.rfl (and_congr Iff.rfl ?_)
  change (inv = 1 → _) ∧ _ ↔ _
  clear_value kind inv addr addrHi mask param scale
  rcases hkind with ⟨hn, hk⟩ | ⟨rfl, hk⟩ | ⟨rfl, hk⟩ | ⟨rfl, hk⟩ | ⟨rfl, hk⟩ | ⟨rfl, hk⟩ | ⟨rfl, hk⟩ | ⟨rfl, hk⟩ | ⟨rfl, hk⟩
  · have hnone : ∀ n < 8, kind ≠ n := by omega
    simp [Desc.kindWf, hk, hnone]
  all_goals
    simp [Desc.kindWf, hk, popcount_eq_one, BitVec.toNat_eq, haddr, haddrHi, hmask, hparam, hscale, and_assoc,
      Nat.one_le_iff_ne_zero]

end Sys2Proof.Machine
end

section
/-! PROOFS. Which instruction a move runs: ECTB's by the presented word or the latches, the EC's by its input buffer
(40_transport.md R130, R131), and how many port accesses a step makes. -/

namespace Sys2Proof.Machine

/-- The request ECTB's next move runs: the presented word's when it is idle, within a request the one its latches hold. -/
def State.runs (i : Instr) (s : State) : Prop :=
  (s.ectb.fsm = .idle ∧ s.caller.reqValid = true ∧ decode (.request s.caller.reqWord) = .ok i) ∨
    ((s.ectb.fsm = .acq ∨ s.ectb.fsm = .seq ∨ s.ectb.fsm = .tx) ∧ s.ectb.current = some i)

section Runs
variable {i : Instr} {s t : State}

theorem runs_of_current (hb : s.ectb.busy = true) (hc : s.ectb.current = some i) : s.runs i :=
  .inr ⟨(busy_iff _).1 hb, hc⟩

theorem ectbStep_of_runs (h : s.runs i) : ectbStep s = exec i s := by
  rcases h with ⟨hf, hv, hd⟩ | ⟨hf, hc⟩
  · rw [ectbStep_of_decode hf hv hd, exec_idle (decodeRequest_isRequest hd) hf]
  · exact ectbStep_of_current ((busy_iff _).2 hf) hc

/-- A move that runs a request ends it exactly when ECTB is no longer within one. -/
theorem finishes_of_runs (h : s.runs i) (t : State) : s.finishes t = !t.ectb.busy := by
  have hstart : (s.ectb.busy || (s.ectb.fsm == .idle && s.caller.reqValid)) = true := by
    rcases h with ⟨hf, hv, -⟩ | ⟨hf, -⟩
    · simp [hf, hv]
    · simp [(busy_iff _).2 hf]
  rw [State.finishes, hstart, Bool.and_true]

/-- The record of an error is the one thing a move adds when it ends a request with one (R233). -/
theorem recordFinish_of_error (hf : s.finishes t = true) (he : t.ectb.rspErr ≠ 0) :
    s.recordFinish t = { t with caller := { t.caller with erred := true } } := by
  have hrec : (s.finishes t && t.ectb.rspErr != 0) = true := by rw [hf, bne_iff_ne.2 he, Bool.and_self]
  rw [State.recordFinish, hrec, Bool.or_true]

/-- ECTB's move is the instruction's step where it ends no request, or ends it without an error. -/
theorem moveOf_ectb_of_runs (h : s.runs i) (ht : exec i s = .next t) (hn : t.ectb.busy = true ∨ t.ectb.rspErr = 0) :
    moveOf .ectb s = .next t := by
  rw [ectbMove_of_step ((ectbStep_of_runs h).trans ht), recordFinish_of_no_error]
  intro hf
  rw [finishes_of_runs h, Bool.not_eq_true'] at hf
  exact hn.resolve_left (by simp [hf])

/-- The EC's move runs the command byte in its input buffer (R65, R91). -/
theorem ecStep_of_command {e : EcRef} (he : s.ec = .ref e) (hb : e.ibf = true) (hc : e.inIsCmd = true)
    (hd : decode (.command e.inByte) = .ok i) : ecStep s = exec i s := by
  simp [ecStep, he, hb, hc, hd]

end Runs

/-- Settles O7: the move is the instruction's step, around which the caller records an error of a request that ends. -/
theorem stepRunsTheDecodedInstruction : Obligations.StepRunsTheDecodedInstruction := by
  refine ⟨fun s i (h : s.runs i) => ⟨fun t ht => ⟨fun hend => ?_, fun hend => ?_⟩, fun hn => ?_⟩,
    fun s e i he hb hc hd => ecStep_of_command he hb hc hd⟩
  · obtain ⟨hf, he⟩ := hend
    rw [step_scheduled_cons, scheduled_nil, ectbMove_of_step ((ectbStep_of_runs h).trans ht), recordFinish_of_error _ he]
    simp [finishes_of_runs h, (not_busy_iff _).2 hf]
  · refine moveOf_ectb_of_runs h ht ?_
    cases hb : t.ectb.busy with
    | true => exact .inl rfl
    | false => exact .inr (by_contra fun he => hend ⟨(not_busy_iff _).1 hb, he⟩)
  · rw [step_scheduled_cons, scheduled_nil, moveOf, ectbMove, ectbStep_of_runs h]
    cases he : exec i s with
    | next t => exact absurd he (hn t)
    | fault r => rfl
    | refused r => rfl

/-- Settles O10: ECTB's step adds at most one access, in `TX`; a reset starts the trace anew; no other agent's move touches it. -/
theorem atMostOnePortAccessPerStep : Obligations.AtMostOnePortAccessPerStep := by
  intro s t h
  obtain ⟨hectb, -, -, -, htrace⟩ := nextEvent_frame s
  rw [← htrace, ← hectb]
  unfold step at h
  by_cases he : s.nextEvent.1 = .ectb
  · rw [he] at h
    obtain ⟨u, hu, rfl⟩ := ectbMove_next h
    rcases ectbStep_trace hu with hsame | ⟨x, hf, -, hx⟩
    · exact .inl hsame
    · exact .inr (.inl ⟨x, hx, he, hf⟩)
  · by_cases hr : s.nextEvent.1 = .reset
    · rw [hr] at h
      cases h
      exact .inr (.inr ⟨hr, rfl⟩)
    · exact .inl (moveOf_keeps_ectb h he hr).2

end Sys2Proof.Machine
end

section
/-! PROOFS. ACCEPT of a request that passes its checks, and the SEQ step (40_transport.md R130, R135, R142 to R145). -/

namespace Sys2Proof.Machine

section Accept
variable {i : Instr} {s : State}

theorem beginRequest_eq (c : Ectb) :
    c.beginRequest = { c with k := 0, fsm := if c.acqState = .none then .acq else .seq } := by
  unfold Ectb.beginRequest
  cases c.acqState <;> rfl

/-- ACCEPT of a request that passes its checks fills its latches and goes on, to `ACQ` or with permission to `SEQ` (R130). -/
theorem exec_accepts (hi : isRequest i = true) (hf : s.ectb.fsm = .idle) (he : acceptError s.params i = none) :
    exec i s = .next { s with
      caller := { s.caller with reqValid := false }
      ectb := { s.ectb.latched s.params i with
        k := 0, fsm := if s.ectb.acqState = .none then .acq else .seq } } := by
  rw [exec_idle hi hf, acceptOf_eq hi, he]
  simp only [State.onEctb, conclude_none, beginRequest_eq, latched_acqState]
  rfl

theorem transportError_of_lt {addr : Half} (h : addr.toNat < 256) : transportError addr = none := by
  simp [transportError, addrInRange, Config.numRegs, h]

theorem fieldError_of_wf {op : BitVec 4} {d : Descriptor} (hw : Desc.wf d = true) (hk : kindOk op (Desc.kind d) = true) :
    fieldError op d = none := by
  simp [fieldError, hw, hk]

end Accept

/-- Settles O11: an address below 256 passes the range check. -/
theorem transportRequestInRangeIsAccepted : Obligations.TransportRequestInRangeIsAccepted := by
  intro s addr value hf ha
  exact ⟨exec_accepts rfl hf (transportError_of_lt ha), exec_accepts rfl hf (transportError_of_lt ha)⟩

/-- Settles O13: a well-formed descriptor of an admitted kind passes both checks. -/
theorem fieldRequestIsAccepted : Obligations.FieldRequestIsAccepted := by
  rintro s fidx v n d hf rfl hw accepted
  have passes {op : BitVec 4} {k : Kind} (hk : Desc.kind (regmap s.params fidx) = k) (hop : kindOk op k = true) :
      fieldError op (regmap s.params fidx) = none := fieldError_of_wf hw (hk ▸ hop)
  refine ⟨fun hk => ⟨exec_accepts rfl hf (passes hk rfl), exec_accepts rfl hf (passes hk rfl),
    exec_accepts rfl hf (passes hk rfl)⟩, fun hk => ?_, fun hk => exec_accepts rfl hf (passes hk rfl)⟩
  have hop : ∀ k ∈ [Kind.enum, .u8, .u16le, .scaled, .level, .maskedGt], kindOk opGeti k = true := by decide
  exact exec_accepts rfl hf (passes rfl (hop _ hk))

section Sequence
variable {i : Instr} {s : State} {p : Plan}

/-- Only a request has a list and a result. -/
theorem isRequest_of_plan {c : Ectb} (hp : planOf i c = some p) : isRequest i = true := by
  cases i with
  | ecReadCmd => cases hp
  | ecWriteCmd => cases hp
  | _ => rfl

/-- The SEQ step starts the list's entry `k` (R142). -/
theorem exec_seq_start (hf : s.ectb.fsm = .seq) (hp : planOf i s.ectb = some p) {t : Transaction}
    (ht : p.txs[s.ectb.k]? = some t) : exec i s = .next (s.onEctb (Ectb.start t)) := by
  rw [exec_seq (isRequest_of_plan hp) hf hp]
  simp only [State.onEctb, Ectb.sequence, ht]

/-- The SEQ step finishes once the list is done (R145). -/
theorem exec_seq_finish (hf : s.ectb.fsm = .seq) (hp : planOf i s.ectb = some p) (hk : p.txs.length ≤ s.ectb.k) :
    exec i s = .next (s.onEctb (Ectb.finishOk p.value p.scale)) := by
  rw [exec_seq (isRequest_of_plan hp) hf hp]
  simp only [State.onEctb, Ectb.sequence, List.getElem?_eq_none hk]

end Sequence

/-- Settles O22: the list has an entry `k`, a read or a write, or it is done. -/
theorem sequencerStartsOrFinishes : Obligations.SequencerStartsOrFinishes := by
  intro i s p hf hp
  exact ⟨fun a ht => exec_seq_start hf hp ht, fun a v ht => exec_seq_start hf hp ht, exec_seq_finish hf hp⟩

theorem txAddr_eq_setWidth (c : Ectb) : c.txAddr = c.raddrL.setWidth 8 := by
  ext j hj
  simp [Ectb.txAddr]

/-- Settles O23: both lists have one entry. -/
theorem transportRequestsListAndResult : Obligations.TransportRequestsListAndResult := by
  intro s addr value hf
  refine ⟨fun hk => ⟨?_, ?_⟩, fun hk => ⟨exec_seq_finish (i := .rdreg addr) hf rfl hk,
    exec_seq_finish (i := .wrreg addr value) hf rfl hk⟩⟩
  · rw [← txAddr_eq_setWidth]
    exact exec_seq_start hf rfl (by rw [hk]; rfl)
  · rw [← txAddr_eq_setWidth]
    exact exec_seq_start hf rfl (by rw [hk]; rfl)

end Sys2Proof.Machine
end

section
/-! PROOFS. The busy-wait, poll by poll, and the access each stage makes (40_transport.md R132 to R134, R137 to R139). -/

namespace Sys2Proof.Machine

/-! ### One poll -/

/-- What a wait waits for, by the bit of the status byte (R93, R132). -/
theorem waitHolds_iff (k : TxKind) (g : TxStage) (st : Byte) :
    waitHolds k g st = true ↔ if k = .rd ∧ g = .three then st.getLsbD 0 = true else st.getLsbD 1 = false := by
  cases k <;> cases g <;> simp [waitHolds, obf, ibf, Config.obfBit, Config.ibfBit]

/-- The reference EC's status byte as a number (R65). -/
theorem status_toNat (e : EcRef) : e.status.toNat = (if e.ibf then 2 else 0) + (if e.obf then 1 else 0) := by
  unfold EcRef.status
  cases e.ibf <;> cases e.obf <;> rfl

theorem pollLimitReached_of_le {l : PollLimit} {n polls : Nat} (hl : l = .finite n) (h : n ≤ polls) :
    pollLimitReached l polls = true := by
  simp [hl, pollLimitReached, h]

/-- With no limit, or one not yet reached, a wait goes on (R133). -/
theorem pollLimitReached_of_room {l : PollLimit} {polls : Nat} (h : l = .inf ∨ ∃ n, l = .finite n ∧ polls < n) :
    pollLimitReached l polls = false := by
  rcases h with rfl | ⟨n, rfl, hn⟩
  · rfl
  · simpa [pollLimitReached] using hn

section Poll
variable {s : State}

@[simp] theorem pollStep_caller (s : State) : (pollStep s).caller = s.caller := by simp [pollStep]
@[simp] theorem pollStep_params (s : State) : (pollStep s).params = s.params := by simp [pollStep]
@[simp] theorem pollStep_env (s : State) : (pollStep s).env = (readStatus s).2.env := by simp [pollStep]
@[simp] theorem pollStep_trace (s : State) : (pollStep s).trace = .readStatus (readStatus s).1 :: s.trace := by
  simp [pollStep]
theorem pollStep_ectb (s : State) : (pollStep s).ectb = s.ectb.polled s.params.pollLimit (readStatus s).1 := by
  simp [pollStep]

/-- A poll changes nothing of the EC unless it ends the transaction. -/
theorem pollStep_ec (s : State) : (pollStep s).ec = if (pollStep s).ectb.txOpen then s.ec else s.ec.endRace := by
  rw [pollStep_ectb, pollStep, settleRace_ec]
  simp

/-- A satisfied poll: the access is next (R133). -/
theorem pollStep_satisfied (hf : s.ectb.fsm = .tx)
    (hw : waitHolds s.ectb.txKind s.ectb.txStage (readStatus s).1 = true) :
    (pollStep s).ectb = { s.ectb with polls := s.ectb.polls + 1, txSub := .act } ∧ (pollStep s).ec = s.ec := by
  have hectb : (pollStep s).ectb = { s.ectb with polls := s.ectb.polls + 1, txSub := .act } := by
    simp [pollStep_ectb, Ectb.polled, hw]
  have hopen : (pollStep s).ectb.txOpen = true := by
    rw [hectb]
    exact (txOpen_iff _).2 ⟨hf, .inr (.inl rfl)⟩
  exact ⟨hectb, by rw [pollStep_ec, if_pos hopen]⟩

/-- The unsatisfied poll that reaches the limit: the request ends with PROTOCOL_STALL (R133, R224). -/
theorem pollStep_stalled (hw : waitHolds s.ectb.txKind s.ectb.txStage (readStatus s).1 = false)
    (hl : pollLimitReached s.params.pollLimit (s.ectb.polls + 1) = true) :
    (pollStep s).ectb = Ectb.finishError .protocolStall { s.ectb with polls := s.ectb.polls + 1 } ∧
      (pollStep s).ec = s.ec.endRace := by
  have hectb : (pollStep s).ectb = Ectb.finishError .protocolStall { s.ectb with polls := s.ectb.polls + 1 } := by
    simp [pollStep_ectb, Ectb.polled, hw, hl]
  refine ⟨hectb, ?_⟩
  rw [pollStep_ec, hectb]
  rfl

/-- An unsatisfied poll below the limit: the wait goes on (R133). -/
theorem pollStep_unsatisfied (hf : s.ectb.fsm = .tx)
    (hw : waitHolds s.ectb.txKind s.ectb.txStage (readStatus s).1 = false)
    (hl : pollLimitReached s.params.pollLimit (s.ectb.polls + 1) = false) :
    (pollStep s).ectb = { s.ectb with polls := s.ectb.polls + 1 } ∧ (pollStep s).ec = s.ec := by
  have hectb : (pollStep s).ectb = { s.ectb with polls := s.ectb.polls + 1 } := by
    simp [pollStep_ectb, Ectb.polled, hw, hl]
  have hopen : (pollStep s).ectb.txOpen = true := by
    rw [hectb]
    exact (txOpen_iff _).2 ⟨hf, .inr (.inr (Nat.succ_pos _))⟩
  exact ⟨hectb, by rw [pollStep_ec, if_pos hopen]⟩

end Poll

/-- Settles O19: the three ends of a poll. -/
theorem pollReadsTheStatusOnce : Obligations.PollReadsTheStatusOnce := by
  intro i s hi hf hs st holds
  have hholds : holds ↔ waitHolds s.ectb.txKind s.ectb.txStage st = true := (waitHolds_iff _ _ _).symm
  rw [hholds, Bool.not_eq_true]
  refine ⟨pollStep s, exec_poll hi hf hs, pollStep_trace s, pollStep_caller s, by simp, fun e he => ?_,
    fun hw => pollStep_satisfied hf hw, fun n hw hl hn => pollStep_stalled hw (pollLimitReached_of_le hl hn),
    fun hw hl => pollStep_unsatisfied hf hw (pollLimitReached_of_room hl)⟩
  have hst : st = e.status := congrArg Prod.fst (readStatus_ref s he)
  rw [hst, status_toNat]

/-! ### The accesses -/

/-- The EC after a read's last access: the reference EC has given its output byte, and a race is over (R66, R78). -/
theorem readData_endRace_ec (s : State) :
    (∀ e, s.ec = .race e → (readData s).2.ec.endRace = .ref e) ∧
    ∀ e, s.ec = .ref e → (readData s).1 = e.odata ∧ (readData s).2.ec.endRace = .ref { e with obf := false } ∧
      (readData s).2.env = s.env := by
  refine ⟨fun e he => ?_, fun e he => ?_⟩
  · rw [readData_ec, he]
    rfl
  · rw [readData_ref s he]
    exact ⟨rfl, rfl, rfl⟩

/-- Settles O20: the read rows of the handshake table. -/
theorem readStageAccesses : Obligations.ReadStageAccesses := by
  intro i s hi hf hs hk
  rw [exec_act hi hf hs]
  obtain ⟨hrace, href⟩ := readData_endRace_ec s
  refine ⟨fun hg => actStep_rd_one hk hg, fun hg => actStep_two hg,
    fun hg h0 => ⟨_, actStep_rd_three_zero hk hg h0, ?_⟩, fun hg h1 => ⟨_, actStep_rd_three_one hk hg h1, ?_⟩⟩
  · refine ⟨by simp, by simp [Ectb.endTx, h0], hrace, fun e he => ?_⟩
    obtain ⟨hbyte, hec, henv⟩ := href e he
    exact ⟨hbyte, hec, by simp, henv⟩
  · refine ⟨by simp, by simp [Ectb.endTx, h1], hrace, fun e he => ?_⟩
    obtain ⟨hbyte, hec, henv⟩ := href e he
    exact ⟨hbyte, hec, by simp, henv⟩

/-- Settles O21: the write rows of the handshake table. -/
theorem writeStageAccesses : Obligations.WriteStageAccesses := by
  intro i s hi hf hs hk
  rw [exec_act hi hf hs]
  exact ⟨fun hg => actStep_wr_one hk hg, fun hg => actStep_two hg, fun hg => actStep_wr_three hk hg⟩

end Sys2Proof.Machine
end

section
/-! PROOFS. A wait that is not satisfied, poll after poll, and its end at the first satisfied one (40_transport.md R133, R146). -/

namespace Sys2Proof.Machine

/-! ### Runs, move by move -/

section Run
variable {m : Nat} {s t : State}

/-- A run goes on from where a shorter one ended. -/
theorem run_add (h : run m s = .next t) (n : Nat) : run (m + n) s = run n t := by
  induction m generalizing s with
  | zero => cases h; rw [Nat.zero_add]
  | succ m ih =>
    rw [Nat.succ_add]
    simp only [run] at h ⊢
    cases hs : step s with
    | next u => rw [hs] at h; exact ih h
    | fault r => rw [hs] at h; cases h
    | refused r => rw [hs] at h; cases h

/-- A run whose first move is scheduled. -/
theorem run_succ_of_move {e : Event} {es : List Event} (n : Nat) (h : moveOf e (s.scheduled es) = .next t) :
    run (n + 1) (s.scheduled (e :: es)) = run n t := by
  simp only [run, step_scheduled_cons, h]

end Run

/-- ECTB within a request has latches that passed ACCEPT's checks, and an unfinished list. -/
theorem inRequest_of_busy {c : Ectb} (h : c.inv = true) (hb : c.busy = true) : c.inRequest = true := by
  rcases (busy_iff c).1 hb with hf | hf | hf
  · exact ((inv_acq_iff hf).1 h).1
  · exact ((inv_seq_iff hf).1 h).1
  · exact ((inv_tx_iff hf).1 h).1

/-- Within a request the latches hold one that has a list and a result. -/
theorem current_of_busy {c : Ectb} (h : c.inv = true) (hb : c.busy = true) :
    ∃ i p, c.current = some i ∧ planOf i c = some p :=
  plan_of_accepted (inRequest_iff.1 (inRequest_of_busy h hb)).1

theorem busy_of_tx {c : Ectb} (h : c.fsm = .tx) : c.busy = true := (busy_iff c).2 (.inr (.inr h))

section Wait
variable {i : Instr} {s : State}

/-- The state with another schedule. -/
def State.withSchedule (es : List Event) (s : State) : State := { s with env := { s.env with schedule := es } }

/-- ECTB's move in a wait is a poll, where the poll does not end the request. -/
theorem moveOf_poll (hc : s.ectb.current = some i) (hf : s.ectb.fsm = .tx) (hs : s.ectb.txSub = .poll)
    (ht : (pollStep s).ectb.fsm = .tx) : moveOf .ectb s = .next (pollStep s) :=
  moveOf_ectb_of_runs (runs_of_current (busy_of_tx hf) hc) (exec_poll (current_isRequest hc) hf hs) (.inl (busy_of_tx ht))

/-- The step of a wait whose next scheduled move is ECTB's. -/
theorem step_poll {es : List Event} (hc : s.ectb.current = some i) (hf : s.ectb.fsm = .tx) (hs : s.ectb.txSub = .poll)
    (hsched : s.env.schedule = .ectb :: es) (ht : (pollStep (s.withSchedule es)).ectb.fsm = .tx) :
    step s = .next (pollStep (s.withSchedule es)) := by
  rw [step_of_schedule hsched]
  exact moveOf_poll (s := s.withSchedule es) hc hf hs ht

/-- The next status reads return these bytes: the reference EC's status while nothing moves it, or the queue's first bytes,
with `rest` after them. -/
def State.statusReads (bs rest : List Byte) (s : State) : Prop :=
  (∃ e, s.ec = .ref e ∧ ∀ b ∈ bs, b = e.status) ∨ (s.ec = .oracle ∧ s.env.answers = bs ++ rest)

theorem readStatus_of_statusReads {b : Byte} {bs rest : List Byte} (h : s.statusReads (b :: bs) rest) :
    (readStatus s).1 = b ∧ ∀ t : State, t.ec = s.ec → t.env = (readStatus s).2.env → t.statusReads bs rest := by
  rcases h with ⟨e, he, hb⟩ | ⟨he, ha⟩
  · obtain ⟨rfl, hbs⟩ := List.forall_mem_cons.1 hb
    exact ⟨congrArg Prod.fst (readStatus_ref s he), fun t hec _ => .inl ⟨e, hec.trans he, hbs⟩⟩
  · obtain ⟨hread, hrest⟩ := readStatus_of_answer (.inl he) ha
    exact ⟨hread, fun t hec henv => .inr ⟨hec.trans he, henv ▸ hrest⟩⟩

theorem statusReads_oracle {bs rest : List Byte} (he : s.ec = .oracle) :
    s.statusReads bs rest ↔ s.env.answers = bs ++ rest := by
  simp [State.statusReads, he]

/-- A wait goes through any number of unsatisfied polls, each one more status read, while the limit has room for them. -/
theorem run_unsatisfied {bs rest : List Byte} {es : List Event} (hc : s.ectb.current = some i) (hf : s.ectb.fsm = .tx)
    (hs : s.ectb.txSub = .poll) (hw : ∀ b ∈ bs, waitHolds s.ectb.txKind s.ectb.txStage b = false)
    (hl : s.params.pollLimit = .inf ∨ ∃ n, s.params.pollLimit = .finite n ∧ s.ectb.polls + bs.length < n)
    (hr : s.statusReads bs rest) (hsched : s.env.schedule = List.replicate bs.length .ectb ++ es) :
    ∃ t, run bs.length s = .next t ∧ t.ectb = { s.ectb with polls := s.ectb.polls + bs.length } ∧ t.ec = s.ec ∧
      t.params = s.params ∧ t.env.schedule = es ∧ t.trace = (bs.map .readStatus).reverse ++ s.trace ∧
      t.statusReads [] rest := by
  induction bs generalizing s with
  | nil => exact ⟨s, rfl, rfl, rfl, rfl, hsched, rfl, hr⟩
  | cons b bs ih =>
    let u : State := s.withSchedule (List.replicate bs.length .ectb ++ es)
    obtain ⟨hwb, hwbs⟩ := List.forall_mem_cons.1 hw
    obtain ⟨hb, hnext⟩ := readStatus_of_statusReads (s := u) hr
    have hroom : pollLimitReached u.params.pollLimit (u.ectb.polls + 1) = false := by
      refine pollLimitReached_of_room (hl.imp_right fun ⟨n, hn, hlt⟩ => ⟨n, hn, ?_⟩)
      simp only [List.length_cons] at hlt
      change s.ectb.polls + 1 < n
      omega
    obtain ⟨hectb, hec⟩ := pollStep_unsatisfied (s := u) hf (hb ▸ hwb) hroom
    have hstep : step s = .next (pollStep u) := step_poll hc hf hs hsched (by rw [hectb]; exact hf)
    obtain ⟨t, hrun, htectb, htec, htparams, htsched, httrace, htr⟩ := ih (s := pollStep u)
      (by rw [hectb]; exact hc) (by rw [hectb]; exact hf) (by rw [hectb]; exact hs) (by rw [hectb]; exact hwbs)
      (by
        rw [hectb, pollStep_params]
        refine hl.imp_right fun ⟨n, hn, hlt⟩ => ⟨n, hn, ?_⟩
        simp only [List.length_cons] at hlt
        change s.ectb.polls + 1 + bs.length < n
        omega)
      (hnext _ hec (pollStep_env u)) (by simp [u, State.withSchedule])
    refine ⟨t, ?_, ?_, htec.trans hec, by simpa [u, State.withSchedule] using htparams, htsched, ?_, htr⟩
    · simpa only [List.length_cons, run, hstep] using hrun
    · rw [htectb, hectb]
      simp [u, State.withSchedule, Nat.add_assoc, Nat.add_comm 1]
    · rw [httrace, pollStep_trace, hb]
      simp [u, State.withSchedule]

end Wait

/-- Settles O59: the unsatisfied polls, then the satisfied one. -/
theorem waitEndsAtTheFirstSatisfiedPoll : Obligations.WaitEndsAtTheFirstSatisfiedPoll := by
  intro s bad good rest hinv he hf hs ha hbad hgood hl
  obtain ⟨i, -, hc, -⟩ := current_of_busy ((inv_iff s).1 hinv).control (busy_of_tx hf)
  obtain ⟨t, hrun, hectb, hec, -, hsched, -, hr⟩ :=
    run_unsatisfied (s := s.scheduled (List.replicate (bad.length + 1) .ectb)) (rest := good :: rest)
      (es := .ectb :: s.env.schedule) hc hf hs hbad hl (.inr ⟨he, ha⟩) (by simp [State.scheduled, List.replicate_succ'])
  let u : State := t.withSchedule s.env.schedule
  have hu : u.ectb = { s.ectb with polls := s.ectb.polls + bad.length } := hectb
  obtain ⟨hread, hrest⟩ := readStatus_of_answer (s := u) (.inl (hec.trans he)) ((statusReads_oracle (hec.trans he)).1 hr)
  obtain ⟨hpoll, -⟩ := pollStep_satisfied (s := u) (by rw [hu]; exact hf) (by rw [hread, hu]; exact hgood)
  have hstep : step t = .next (pollStep u) :=
    step_poll (i := i) (by rw [hectb]; exact hc) (by rw [hectb]; exact hf) (by rw [hectb]; exact hs) hsched
      (by rw [hpoll, hu]; exact hf)
  refine ⟨pollStep u, ?_, by rw [hpoll, hu], by rw [pollStep_env, hrest]⟩
  rw [run_add hrun]
  simp only [run, hstep]

end Sys2Proof.Machine
end

section
/-! PROOFS. Every request in progress finishes if each wait does, since each of ECTB's other moves brings it nearer its end
(70_reset_and_hazards.md R271); and the wait that does not end (40_transport.md R146). -/

namespace Sys2Proof.Machine

/-! ### No move stops the machine -/

/-- In the invariant a data read has its byte latch (R137). -/
theorem read_index_lt {c : Ectb} (h : c.inv = true) (hf : c.fsm = .tx) (hk : c.txKind = .rd) : c.k < 2 := by
  obtain ⟨-, -, hin⟩ := (inv_tx_iff hf).1 h
  obtain ⟨t, ht, hholds⟩ := inTransaction_iff.1 hin
  cases t with
  | rd a => exact txs_read_lt ht
  | wr a v => simp [Ectb.holds, hk] at hholds

/-- ECTB's step answers a next state from every state whose registers fit their control state. -/
theorem ectbStep_next {s : State} (h : s.ectb.inv = true) : ∃ t, ectbStep s = .next t := by
  have request (hf : s.ectb.fsm = .acq ∨ s.ectb.fsm = .seq ∨ s.ectb.fsm = .tx) :
      ∃ i p, isRequest i = true ∧ planOf i s.ectb = some p ∧ ectbStep s = exec i s := by
    have hb := (busy_iff _).2 hf
    obtain ⟨i, p, hc, hp⟩ := current_of_busy h hb
    exact ⟨i, p, current_isRequest hc, hp, ectbStep_of_current hb hc⟩
  cases hf : s.ectb.fsm with
  | idle =>
    cases hv : s.caller.reqValid with
    | false => exact ⟨s, by simp [ectbStep, hf, fetchRequest, hv]⟩
    | true =>
      cases hd : decode (.request s.caller.reqWord) with
      | ok i => exact ⟨_, ectbStep_of_decode hf hv hd⟩
      | error e => exact ⟨_, ectbStep_of_decodeError hf hv hd⟩
  | acq =>
    obtain ⟨i, p, hi, -, he⟩ := request (.inl hf)
    exact ⟨_, he.trans (exec_acq hi hf)⟩
  | seq =>
    obtain ⟨i, p, hi, hp, he⟩ := request (.inr (.inl hf))
    exact ⟨_, he.trans (exec_seq hi hf hp)⟩
  | tx =>
    obtain ⟨i, p, hi, -, he⟩ := request (.inr (.inr hf))
    cases hs : s.ectb.txSub with
    | poll => exact ⟨_, he.trans (exec_poll hi hf hs)⟩
    | act =>
      obtain ⟨t, ht⟩ := actStep_next (read_index_lt h hf)
      exact ⟨t, (he.trans (exec_act hi hf hs)).trans ht⟩
  | failed => exact ⟨s, by simp [ectbStep, hf]⟩

/-- In the invariant every agent's move answers a next state. -/
theorem moveOf_next {s : State} (h : Invariant s) (e : Event) : ∃ t, moveOf e s = .next t := by
  cases e with
  | ectb =>
    obtain ⟨t, ht⟩ := ectbStep_next h.control
    exact ⟨_, ectbMove_of_step ht⟩
  | ec => exact ecStep_next s
  | ecChange a v => exact ⟨_, rfl⟩
  | foreign honours x => exact ⟨_, rfl⟩
  | caller => exact ⟨_, rfl⟩
  | request q => exact ⟨_, rfl⟩
  | reset => exact ⟨_, rfl⟩

/-! ### How far a request is from its end -/

/-- The request in progress has finished: with its result, or with an error (R145, R228). -/
def Ectb.finished (c : Ectb) : Prop := c.rspDone = true ∧ (c.fsm = .idle ∨ c.fsm = .failed)

/-- Moves left in a transaction's handshake if each of its waits is satisfied at once. -/
def handshakeLeft : TxStage → TxSub → Nat
  | .one, .poll => 6
  | .one, .act => 5
  | .two, .poll => 4
  | .two, .act => 3
  | .three, .poll => 2
  | .three, .act => 1

/-- A bound on the moves ECTB makes before the SEQ step that finishes the request in progress, if each wait is satisfied at
once: the SEQ step and the handshake of every transaction to come, and what is left of the one under way. -/
def Ectb.movesLeft (c : Ectb) : Nat :=
  match c.fsm with
  | .idle => 0
  | .acq => 7 * c.txs.length + 1
  | .seq => 7 * (c.txs.length - c.k)
  | .tx => 7 * (c.txs.length - (c.k + 1)) + handshakeLeft c.txStage c.txSub
  | .failed => 0

section MovesLeft
variable {c : Ectb}

theorem movesLeft_acq (hf : c.fsm = .acq) : c.movesLeft = 7 * c.txs.length + 1 := by simp [Ectb.movesLeft, hf]
theorem movesLeft_seq (hf : c.fsm = .seq) : c.movesLeft = 7 * (c.txs.length - c.k) := by simp [Ectb.movesLeft, hf]
theorem movesLeft_tx (hf : c.fsm = .tx) :
    c.movesLeft = 7 * (c.txs.length - (c.k + 1)) + handshakeLeft c.txStage c.txSub := by simp [Ectb.movesLeft, hf]

/-- The polls a wait has made do not count. -/
theorem movesLeft_polls (c : Ectb) (n : Nat) : ({ c with polls := n } : Ectb).movesLeft = c.movesLeft := rfl

theorem finishError_finished (e : ErrorKind) (c : Ectb) : (c.finishError e).finished := by
  cases e <;> exact ⟨rfl, by simp⟩

/-- A move of ECTB brings a request nearer its end: it finishes it, or leaves it with fewer moves to make. -/
def Ectb.advances (c d : Ectb) : Prop := d.finished ∨ (d.busy = true ∧ d.movesLeft < c.movesLeft)

theorem acquire_advances (hf : c.fsm = .acq) (g : Bool) : c.advances (c.acquire g) := by
  cases g with
  | false => exact .inl (finishError_finished .permissionDenied c)
  | true =>
    refine .inr ⟨rfl, ?_⟩
    rw [movesLeft_acq hf, movesLeft_seq rfl]
    exact Nat.lt_succ_of_le (Nat.mul_le_mul_left 7 (Nat.sub_le _ _))

theorem sequence_advances (hf : c.fsm = .seq) {p : Plan} (hp : c.plan = some p) : c.advances (c.sequence p) := by
  have htxs : c.txs = p.txs := by simp [Ectb.txs, hp]
  cases ht : p.txs[c.k]? with
  | none =>
    simp only [Ectb.sequence, ht]
    exact .inl ⟨rfl, .inl rfl⟩
  | some t =>
    have hk : c.k < c.txs.length := htxs ▸ (List.getElem?_eq_some_iff.1 ht).1
    have hleft : (c.start t).movesLeft = 7 * (c.txs.length - (c.k + 1)) + 6 := by cases t <;> rfl
    simp only [Ectb.sequence, ht]
    refine .inr ⟨by cases t <;> rfl, ?_⟩
    rw [movesLeft_seq hf, hleft]
    omega

/-- A move within a transaction that brings its handshake on. -/
theorem handshake_advances (hf : c.fsm = .tx) (g : TxStage) (u : TxSub) (n : Nat)
    (h : handshakeLeft g u < handshakeLeft c.txStage c.txSub) :
    c.advances { c with txStage := g, txSub := u, polls := n } := by
  refine .inr ⟨busy_of_tx hf, ?_⟩
  rw [movesLeft_tx hf, movesLeft_tx (c := { c with txStage := g, txSub := u, polls := n }) hf]
  exact Nat.add_lt_add_left h _

/-- The access that ends the transaction. -/
theorem endTx_advances (hf : c.fsm = .tx) (b0 b1 : Byte) :
    c.advances ({ c with byte0 := b0, byte1 := b1 } : Ectb).endTx := by
  refine .inr ⟨rfl, ?_⟩
  have hlen : ({ c with byte0 := b0, byte1 := b1 } : Ectb).endTx.txs.length = c.txs.length :=
    txs_length_congr rfl rfl rfl rfl rfl rfl
  have hpos : 0 < handshakeLeft c.txStage c.txSub := by cases c.txStage <;> cases c.txSub <;> decide
  rw [movesLeft_tx hf, movesLeft_seq rfl, hlen]
  exact Nat.lt_add_of_pos_right hpos

end MovesLeft

section Progress
variable {s t : State}

theorem actStep_advances (hf : s.ectb.fsm = .tx) (hs : s.ectb.txSub = .act) (ha : actStep s = .next t) :
    s.ectb.advances t.ectb := by
  rcases actStep_cases ha with ⟨-, hg, rfl⟩ | ⟨-, hg, rfl⟩ | ⟨hg, rfl⟩ | ⟨-, -, -, rfl⟩ | ⟨-, -, -, rfl⟩ | ⟨-, -, rfl⟩
  · exact handshake_advances hf .two .poll 0 (by rw [hg, hs]; decide)
  · exact handshake_advances hf .two .poll 0 (by rw [hg, hs]; decide)
  · exact handshake_advances hf .three .poll 0 (by rw [hg, hs]; decide)
  · simpa using endTx_advances hf (readData s).1 s.ectb.byte1
  · simpa using endTx_advances hf s.ectb.byte0 (readData s).1
  · exact endTx_advances hf s.ectb.byte0 s.ectb.byte1

/-- ECTB's step within a request advances it, unless it is a poll that leaves a wait going on. -/
theorem ectbStep_advances (hb : s.ectb.busy = true) (h : ectbStep s = .next t) :
    s.ectb.advances t.ectb ∨
      (s.ectb.waiting ∧ waitHolds s.ectb.txKind s.ectb.txStage (readStatus s).1 = false ∧
        t.ectb = { s.ectb with polls := s.ectb.polls + 1 }) := by
  rcases ectbStep_cases h with ⟨hf, -⟩ | ⟨hf, -⟩ | ⟨i, hf, -⟩ | ⟨i, hf, -, rfl⟩ | ⟨i, p, hf, hc, hp, rfl⟩ |
    ⟨i, hf, hs, -, rfl⟩ | ⟨i, hf, hs, -, ha⟩ | ⟨hf, -⟩
  · simp [Ectb.busy, hf] at hb
  · simp [Ectb.busy, hf] at hb
  · simp [Ectb.busy, hf] at hb
  · exact .inl (by simpa [acqStep] using acquire_advances hf s.drawGrant.1)
  · exact .inl (sequence_advances hf (by simp [Ectb.plan, hc, hp]))
  · rw [pollStep_ectb]
    rcases polled_cases s.params.pollLimit (readStatus s).1 s.ectb with ⟨-, hp⟩ | ⟨-, -, hp⟩ | ⟨hw, -, hp⟩ <;> rw [hp]
    · refine .inl (handshake_advances hf s.ectb.txStage .act _ ?_)
      rw [hs]
      cases s.ectb.txStage <;> decide
    · exact .inl (.inl (finishError_finished .protocolStall _))
    · exact .inr ⟨⟨hf, hs⟩, hw, rfl⟩
  · exact .inl (actStep_advances hf hs ha)
  · simp [Ectb.busy, hf] at hb

/-- Any agent's move but a reset advances the request in progress or leaves it where it is, but for the polls of its wait; and
ECTB's own move leaves it there only where its wait is not satisfied. -/
theorem moveOf_advances {e : Event} (hb : s.ectb.busy = true) (he : e ≠ .reset) (h : moveOf e s = .next t) :
    s.ectb.advances t.ectb ∨
      ((∃ n, t.ectb = { s.ectb with polls := n }) ∧
        (e = .ectb → s.ectb.waiting ∧ waitHolds s.ectb.txKind s.ectb.txStage (readStatus s).1 = false)) := by
  by_cases hm : e = .ectb
  · subst hm
    obtain ⟨u, hu, rfl⟩ := ectbMove_next h
    rcases ectbStep_advances hb hu with ha | ⟨hwait, hw, hectb⟩
    · exact .inl ha
    · exact .inr ⟨⟨_, hectb⟩, fun _ => ⟨hwait, hw⟩⟩
  · obtain ⟨hectb, -⟩ := moveOf_keeps_ectb h hm he
    exact .inr ⟨⟨s.ectb.polls, hectb⟩, fun h => absurd h hm⟩

end Progress

/-! ### Liveness -/

section Liveness
variable {ev : Nat → Event} {s : State}

/-- A run of moves from the invariant meets no fault and keeps it. -/
theorem runMoves_next (h : Invariant s) (ev : Nat → Event) (n : Nat) : ∃ t, runMoves ev n s = .next t ∧ Invariant t := by
  induction n with
  | zero => exact ⟨s, rfl, h⟩
  | succ n ih =>
    obtain ⟨t, ht, hi⟩ := ih
    obtain ⟨u, hu⟩ := moveOf_next hi (ev n)
    exact ⟨u, by simp only [runMoves, ht, hu], moveOf_invariant hi hu⟩

/-- Under `ECResponds`, fairness and no reset, a request in progress finishes (R271): otherwise take a state of the run with
fewest moves left; from there on the request stays where it is, but ECTB's next move, or in a wait its next satisfied
poll, takes it on. -/
theorem request_finishes (h : Invariant s) (hb : s.ectb.busy = true) (hreset : ∀ n, ev n ≠ .reset) (hfair : EctbFair ev)
    (hresp : ECResponds ev s) : ∃ n t, runMoves ev n s = .next t ∧ t.ectb.finished := by
  by_contra hnever
  choose f hrun hinv using runMoves_next h ev
  have hnot (n : Nat) : ¬ (f n).ectb.finished := fun hfin => hnever ⟨n, f n, hrun n, hfin⟩
  have hmove (n : Nat) : moveOf (ev n) (f n) = .next (f (n + 1)) := by
    have := hrun (n + 1)
    simpa only [runMoves, hrun n] using this
  have hbusy (n : Nat) : (f n).ectb.busy = true := by
    induction n with
    | zero => cases (hrun 0).symm.trans rfl; exact hb
    | succ n ih =>
      rcases moveOf_advances ih (hreset n) (hmove n) with hadv | ⟨⟨k, hk⟩, -⟩
      · exact (hadv.resolve_left (hnot _)).1
      · rw [hk]
        exact ih
  obtain ⟨n, hmin⟩ : ∃ n, ∀ m, (f n).ectb.movesLeft ≤ (f m).ectb.movesLeft :=
    ⟨Function.argmin fun n => (f n).ectb.movesLeft, fun m => Function.argmin_le (fun n => (f n).ectb.movesLeft) m⟩
  have hnoAdvance {m : Nat} (hm : ∃ k, (f m).ectb = { (f n).ectb with polls := k }) :
      ¬ (f m).ectb.advances (f (m + 1)).ectb := by
    obtain ⟨k, hk⟩ := hm
    rintro (hfin | ⟨-, hlt⟩)
    · exact hnot _ hfin
    · rw [hk, movesLeft_polls] at hlt
      exact Nat.not_le.2 hlt (hmin (m + 1))
  have hstay {m : Nat} (hm : n ≤ m) : ∃ k, (f m).ectb = { (f n).ectb with polls := k } := by
    induction m, hm using Nat.le_induction with
    | base => exact ⟨_, rfl⟩
    | succ m hm ih =>
      obtain ⟨⟨k', hk'⟩, -⟩ := (moveOf_advances (hbusy m) (hreset m) (hmove m)).resolve_left (hnoAdvance ih)
      obtain ⟨k, hk⟩ := ih
      exact ⟨k', by rw [hk', hk]⟩
  have hturn : ∃ m, n ≤ m ∧ ev m = .ectb ∧ ((f m).ectb.waiting →
      waitHolds (f m).ectb.txKind (f m).ectb.txStage (readStatus (f m)).1 = true) := by
    by_cases hw : (f n).ectb.waiting
    · obtain ⟨m, u, hm, hu, hem, -, hsat⟩ := hresp n (f n) (hrun n) hw
      cases (hrun m).symm.trans hu
      exact ⟨m, hm, hem, fun _ => hsat⟩
    · obtain ⟨m, hm, hem⟩ := hfair n
      obtain ⟨k, hk⟩ := hstay hm
      exact ⟨m, hm, hem, fun hwait => absurd (by rw [hk] at hwait; exact hwait) hw⟩
  obtain ⟨m, hm, hem, hsat⟩ := hturn
  obtain ⟨-, hpoll⟩ := (moveOf_advances (hbusy m) (hreset m) (hmove m)).resolve_left (hnoAdvance (hstay hm))
  obtain ⟨hwait, hunsat⟩ := hpoll hem
  rw [hsat hwait] at hunsat
  cases hunsat

end Liveness

/-- Settles O58: with no limit a silent EC's status never satisfies the wait; where every wait is satisfied in the end, the
request in progress finishes. -/
theorem noLimitMayHangForEver : Obligations.NoLimitMayHangForEver := by
  refine ⟨fun s ev hinv hf hreset hfair hresp => ?_, fun s e m hinv hl he hf hs hw => ?_⟩
  · exact request_finishes ((inv_iff s).1 hinv) ((busy_iff _).2 hf) hreset hfair hresp
  · have hcontrol := ((inv_iff s).1 hinv).control
    obtain ⟨i, -, hc, -⟩ := current_of_busy hcontrol (busy_of_tx hf)
    obtain ⟨-, hdone, -⟩ := inRequest_iff.1 (inRequest_of_busy hcontrol (busy_of_tx hf))
    have hbytes : ∀ b ∈ List.replicate m e.status, b = e.status := fun b hb => List.eq_of_mem_replicate hb
    obtain ⟨t, hrun, hectb, hec, -, -, htrace, -⟩ :=
      run_unsatisfied (s := s.scheduled (List.replicate m .ectb)) (bs := List.replicate m e.status) (rest := [])
        (es := s.env.schedule) hc hf hs (fun b hb => (hbytes b hb).symm ▸ hw) (.inl hl) (.inl ⟨e, he, hbytes⟩)
        (by simp [State.scheduled])
    rw [List.length_replicate] at hrun hectb
    exact ⟨t, hrun, hectb, by rw [hectb]; exact hdone, hec, by rw [htrace, List.map_replicate, List.reverse_replicate]; rfl⟩

end Sys2Proof.Machine
end

section
/-! PROOFS. A read transaction and a whole RDREG at the reference EC, every wait satisfied at once and the EC's step taken after
each write (40_transport.md R136, R143; schedule `EAGER` of 95_test_vectors.md). -/

namespace Sys2Proof.Machine

/-! ### The moves of a transaction at the reference EC -/

/-- The machine after a satisfied poll of the reference EC. -/
def State.afterPoll (e : EcRef) (s : State) : State :=
  { s with
    ectb := { s.ectb with polls := s.ectb.polls + 1, txSub := .act }, trace := .readStatus e.status :: s.trace }

/-- ECTB with the byte of a data read latched: `BYTE0` for index 0, `BYTE1` for the next (R137). -/
def Ectb.latchByte (b : Byte) (c : Ectb) : Ectb := if c.k = 0 then { c with byte0 := b } else { c with byte1 := b }

section Moves
variable {i : Instr} {s : State} {e : EcRef} {es : List Event}

theorem pollStep_ref (hf : s.ectb.fsm = .tx) (he : s.ec = .ref e)
    (hw : waitHolds s.ectb.txKind s.ectb.txStage e.status = true) : pollStep s = s.afterPoll e := by
  have hread := readStatus_ref s he
  obtain ⟨hectb, hec⟩ := pollStep_satisfied hf (by rw [hread]; exact hw)
  exact State.ext hectb hec (pollStep_caller s) (by rw [pollStep_env, hread]; rfl) (pollStep_params s)
    (by rw [pollStep_trace, hread]; rfl)

/-- A wait satisfied at once, then the access it guards. -/
theorem run_poll_act {t : State} (n : Nat) (hc : s.ectb.current = some i) (hf : s.ectb.fsm = .tx)
    (hs : s.ectb.txSub = .poll) (he : s.ec = .ref e) (hw : waitHolds s.ectb.txKind s.ectb.txStage e.status = true)
    (ha : actStep ((s.afterPoll e).scheduled es) = .next t) (hb : t.ectb.busy = true) :
    run (n + 2) (s.scheduled (.ectb :: .ectb :: es)) = run n t := by
  have hpoll : pollStep (s.scheduled (.ectb :: es)) = (s.afterPoll e).scheduled (.ectb :: es) :=
    pollStep_ref (s := s.scheduled (.ectb :: es)) hf he hw
  have hfirst : moveOf .ectb (s.scheduled (.ectb :: es)) = .next ((s.afterPoll e).scheduled (.ectb :: es)) := by
    rw [← hpoll]
    exact moveOf_poll (s := s.scheduled (.ectb :: es)) hc hf hs (by rw [hpoll]; exact hf)
  have hruns : ((s.afterPoll e).scheduled es).runs i := runs_of_current (busy_of_tx hf) hc
  have hsecond : moveOf .ectb ((s.afterPoll e).scheduled es) = .next t :=
    moveOf_ectb_of_runs hruns
      ((exec_act (s := (s.afterPoll e).scheduled es) (current_isRequest hc) hf rfl).trans ha) (.inl hb)
  rw [run_succ_of_move (n + 1) hfirst, run_succ_of_move n hsecond]

/-- The SEQ step that starts a transaction. -/
theorem run_start {p : Plan} {t : Transaction} (n : Nat) (hc : s.ectb.current = some i) (hf : s.ectb.fsm = .seq)
    (hp : planOf i s.ectb = some p) (ht : p.txs[s.ectb.k]? = some t) :
    run (n + 1) (s.scheduled (.ectb :: es)) = run n ((s.onEctb (Ectb.start t)).scheduled es) := by
  have hb : s.ectb.busy = true := (busy_iff _).2 (.inr (.inl hf))
  exact run_succ_of_move n (moveOf_ectb_of_runs (runs_of_current (s := s.scheduled es) hb hc)
    (exec_seq_start (s := s.scheduled es) hf hp ht) (.inl (by cases t <;> rfl)))

/-- The SEQ step that finishes the request. -/
theorem run_finish {p : Plan} (n : Nat) (hc : s.ectb.current = some i) (hf : s.ectb.fsm = .seq)
    (hp : planOf i s.ectb = some p) (hk : p.txs.length ≤ s.ectb.k) :
    run (n + 1) (s.scheduled (.ectb :: es)) = run n ((s.onEctb (Ectb.finishOk p.value p.scale)).scheduled es) := by
  have hb : s.ectb.busy = true := (busy_iff _).2 (.inr (.inl hf))
  exact run_succ_of_move n (moveOf_ectb_of_runs (runs_of_current (s := s.scheduled es) hb hc)
    (exec_seq_finish (s := s.scheduled es) hf hp hk) (.inr rfl))

/-- The EC takes the command byte of a read (R91). -/
theorem moveOf_ec_readCommand (he : s.ec = .ref e) (hb : e.ibf = true) (hc : e.inIsCmd = true)
    (hd : e.inByte = Config.cmdRead) : moveOf .ec s = .next (s.setEc (.ref (e.consume .rdAddr))) := by
  have hdec : decode (.command e.inByte) = .ok .ecReadCmd := by rw [hd]; rfl
  rw [moveOf, ecStep_of_command he hb hc hdec, exec_ecReadCmd, beginPhase_ref _ he]

/-- The EC takes the address byte of a read and answers it (R65). -/
theorem moveOf_ec_readAddress {b : Byte} (he : s.ec = .ref e) (hb : e.ibf = true) (hd : e.inIsCmd = false)
    (hp : e.phase = .rdAddr) (hv : e.regs.read e.inByte.toNat = some b) :
    moveOf .ec s = .next (s.setEc (.ref (e.reply b))) := by
  rw [← ecAnswer_of_some hv, ← ecDataByte_rdAddr hp]
  exact step_ec_dataByte he hb hd

/-- The last access of a read at the reference EC. -/
theorem actStep_read_ref (hk : s.ectb.txKind = .rd) (hg : s.ectb.txStage = .three) (h2 : s.ectb.k < 2)
    (he : s.ec = .ref e) :
    actStep s = .next { s with
      ectb := (s.ectb.latchByte e.odata).endTx, ec := .ref e.takeOutput, trace := .readData e.odata :: s.trace } := by
  obtain h0 | h1 : s.ectb.k = 0 ∨ s.ectb.k = 1 := by omega
  · rw [actStep_rd_three_zero hk hg h0, readData_ref s he, Ectb.latchByte, if_pos h0]
    rfl
  · rw [actStep_rd_three_one hk hg h1, readData_ref s he, Ectb.latchByte, if_neg (by omega)]
    rfl

end Moves

/-! ### A read transaction under `EAGER` -/

/-- ECTB after a read of register `a` that answered `b`. -/
def Ectb.afterRead (a b : Byte) (c : Ectb) : Ectb :=
  Ectb.endTx (Ectb.latchByte b { c.start (.rd a) with txStage := .three, txSub := .act, polls := 1 })

/-- The reference EC after it answered a read of register `a` with `b`. -/
def EcRef.afterRead (a b : Byte) (e : EcRef) : EcRef :=
  { e with ibf := false, obf := false, odata := b, inByte := a, inIsCmd := false, phase := .idle }

/-- The machine after a read of register `a` that answered `b`, with its accesses in the trace (R136). -/
def State.afterRead (a b : Byte) (e : EcRef) (s : State) : State :=
  { s with ectb := s.ectb.afterRead a b, ec := .ref (e.afterRead a b), trace := readTrace a b ++ s.trace }

section EagerRead
variable {i : Instr} {s : State} {e : EcRef} {a b : Byte} {es : List Event}

theorem status_of_flags {input output : Bool} (hi : e.ibf = input) (ho : e.obf = output) :
    e.status = statusByte input output := by
  rw [EcRef.status, hi, ho]

theorem atRest_iff (e : EcRef) : e.atRest = true ↔ e.ibf = false ∧ e.obf = false ∧ e.phase = .idle := by
  simp [EcRef.atRest, and_assoc]

/-- A status that satisfies every wait but a read's last: `IBF` is clear (R132). -/
theorem waitHolds_of_ibf {k : TxKind} {g : TxStage} (hg : g ≠ .three ∨ k = .wr) (hi : e.ibf = false) :
    waitHolds k g e.status = true := by
  have hst : ibf e.status = false := by rw [EcRef.status, ibf_statusByte, hi]
  cases k <;> cases g <;> simp [waitHolds, hst] at hg ⊢

/-- The machine after a read's first stage and the EC's step on its command byte. -/
def State.afterReadCommand (e : EcRef) (s : State) : State :=
  { s with
    ectb := s.ectb.nextStage .two, ec := .ref ((e.deliver Config.cmdRead true).consume .rdAddr),
    trace := .writeCommand Config.cmdRead :: .readStatus e.status :: s.trace }

/-- The machine after a read's second stage and the EC's answer. -/
def State.afterReadAddress (b : Byte) (e : EcRef) (s : State) : State :=
  { s with
    ectb := s.ectb.nextStage .three, ec := .ref ((e.deliver s.ectb.addrL false).reply b),
    trace := .writeData s.ectb.addrL :: .readStatus e.status :: s.trace }

/-- A read's first stage: the wait, the command byte, and the EC's step on it. -/
theorem run_readCommand (n : Nat) (hc : s.ectb.current = some i) (hf : s.ectb.fsm = .tx) (hs : s.ectb.txSub = .poll)
    (hk : s.ectb.txKind = .rd) (hg : s.ectb.txStage = .one) (he : s.ec = .ref e) (hi : e.ibf = false) :
    run (n + 3) (s.scheduled (.ectb :: .ectb :: .ec :: es)) = run n ((s.afterReadCommand e).scheduled es) := by
  let t : State := (writeCommand Config.cmdRead (s.afterPoll e)).onEctb (Ectb.nextStage .two)
  have ht : t.ec = .ref (e.deliver Config.cmdRead true) := by simp [t, State.afterPoll, he]
  have hact : actStep ((s.afterPoll e).scheduled (.ec :: es)) = .next (t.scheduled (.ec :: es)) :=
    actStep_rd_one (s := (s.afterPoll e).scheduled (.ec :: es)) hk hg
  rw [run_poll_act (n + 1) hc hf hs he (waitHolds_of_ibf (.inl (by simp [hg])) hi) hact (busy_of_tx hf),
    run_succ_of_move n (moveOf_ec_readCommand (s := t.scheduled es) ht rfl rfl rfl)]
  rfl

/-- A read's second stage: the wait, the address, and the EC's step that answers it. -/
theorem run_readAddress (n : Nat) (hc : s.ectb.current = some i) (hf : s.ectb.fsm = .tx) (hs : s.ectb.txSub = .poll)
    (hg : s.ectb.txStage = .two) (he : s.ec = .ref e) (hi : e.ibf = false) (hp : e.phase = .rdAddr)
    (hb : e.regs.read s.ectb.addrL.toNat = some b) :
    run (n + 3) (s.scheduled (.ectb :: .ectb :: .ec :: es)) = run n ((s.afterReadAddress b e).scheduled es) := by
  let t : State := (writeData s.ectb.addrL (s.afterPoll e)).onEctb (Ectb.nextStage .three)
  have ht : t.ec = .ref (e.deliver s.ectb.addrL false) := by simp [t, State.afterPoll, he]
  have hact : actStep ((s.afterPoll e).scheduled (.ec :: es)) = .next (t.scheduled (.ec :: es)) :=
    actStep_two (s := (s.afterPoll e).scheduled (.ec :: es)) hg
  rw [run_poll_act (n + 1) hc hf hs he (waitHolds_of_ibf (.inl (by simp [hg])) hi) hact (busy_of_tx hf),
    run_succ_of_move n (moveOf_ec_readAddress (s := t.scheduled es) ht rfl rfl hp hb)]
  rfl

/-- A read's third stage: the wait, and the data byte. -/
theorem run_readByte (n : Nat) (hc : s.ectb.current = some i) (hf : s.ectb.fsm = .tx) (hs : s.ectb.txSub = .poll)
    (hk : s.ectb.txKind = .rd) (hg : s.ectb.txStage = .three) (h2 : s.ectb.k < 2) (he : s.ec = .ref e)
    (ho : e.obf = true) :
    run (n + 2) (s.scheduled (.ectb :: .ectb :: es)) =
      run n (State.scheduled es { s with
        ectb := ((s.afterPoll e).ectb.latchByte e.odata).endTx, ec := .ref e.takeOutput,
        trace := .readData e.odata :: .readStatus e.status :: s.trace }) := by
  have hw : waitHolds s.ectb.txKind s.ectb.txStage e.status = true := by
    rw [hk, hg]
    exact (obf_statusByte _ _).trans ho
  rw [run_poll_act n hc hf hs he hw (actStep_read_ref (s := (s.afterPoll e).scheduled es) hk hg h2 he) rfl]
  rfl

/-- A read transaction under `EAGER`: the SEQ step, and the three stages. -/
theorem run_eagerRead {p : Plan} (n : Nat) (hc : s.ectb.current = some i) (hf : s.ectb.fsm = .seq)
    (hp : planOf i s.ectb = some p) (ht : p.txs[s.ectb.k]? = some (.rd a)) (hk : s.ectb.k < 2) (he : s.ec = .ref e)
    (hr : e.atRest = true) (hb : e.regs.read a.toNat = some b) :
    run (n + 9) (s.scheduled (eagerRead ++ es)) = run n ((s.afterRead a b e).scheduled es) := by
  obtain ⟨hibf, hobf, -⟩ := (atRest_iff e).1 hr
  let e₁ : EcRef := (e.deliver Config.cmdRead true).consume .rdAddr
  let s₁ : State := s.onEctb (Ectb.start (.rd a))
  let s₂ : State := s₁.afterReadCommand e
  let s₃ : State := s₂.afterReadAddress b e₁
  let e₂ : EcRef := (e₁.deliver a false).reply b
  have hst : e.status = 0 := status_of_flags hibf hobf
  have hst₁ : e₁.status = 0 := status_of_flags (e := e₁) (input := false) rfl hobf
  have hst₂ : e₂.status = 1 := status_of_flags (e := e₂) (input := false) (output := true) rfl rfl
  have htrace : .readData b :: .readStatus e₂.status :: s₃.trace = readTrace a b ++ s.trace := by
    change PortAccess.readData b :: .readStatus e₂.status :: .writeData a :: .readStatus e₁.status ::
      .writeCommand Config.cmdRead :: .readStatus e.status :: s.trace = _
    rw [hst₂, hst₁, hst]
    rfl
  calc run (n + 9) (s.scheduled (eagerRead ++ es))
    _ = run (n + 8) (s₁.scheduled (eagerRead.drop 1 ++ es)) := run_start (n + 8) hc hf hp ht
    _ = run (n + 5) (s₂.scheduled (eagerRead.drop 4 ++ es)) :=
      run_readCommand (s := s₁) (n + 5) hc rfl rfl rfl rfl he hibf
    _ = run (n + 2) (s₃.scheduled (eagerRead.drop 7 ++ es)) :=
      run_readAddress (s := s₂) (n + 2) hc rfl rfl rfl rfl rfl rfl hb
    _ = run n _ := run_readByte (s := s₃) n hc rfl rfl rfl rfl hk rfl rfl
    _ = run n ((s.afterRead a b e).scheduled es) := by
      rw [State.afterRead, ← htrace]
      rfl

end EagerRead

/-! ### A whole request -/

/-- The machine after the ACCEPT of request `i` and its word `q`, with permission granted. -/
def State.acceptedWord (i : Instr) (q : ReqWord) (s : State) : State :=
  { s with
    caller := { s.caller with reqValid := false, reqWord := q },
    ectb := { s.ectb.latched s.params i with k := 0, fsm := .seq } }

theorem ready_iff (c : Ectb) : c.ready = true ↔ c.fsm = .idle ∧ c.acqState = .granted := by simp [Ectb.ready]

/-- The ACCEPT of a request presented to a ready ECTB. -/
theorem run_accept {i : Instr} {q : ReqWord} {s : State} {es : List Event} (n : Nat) (hq : encode i = .request q)
    (hr : s.ectb.ready = true) (he : acceptError s.params i = none) :
    run (n + 1) (s.requested i (.ectb :: es)) = run n ((s.acceptedWord i q).scheduled es) := by
  obtain ⟨hf, hg⟩ := (ready_iff _).1 hr
  have hd : decode (.request q) = .ok i := hq ▸ decodeOfEncodeIsTheInstruction i
  let u : State := { s with caller := { s.caller with reqValid := true, reqWord := q } }
  have hu : s.requested i (.ectb :: es) = u.scheduled (.ectb :: es) := by
    rw [State.requested, hq]
    rfl
  have hperm : ¬ (u.scheduled es).ectb.acqState = .none := fun h => nomatch hg.symm.trans h
  have haccept : exec i (u.scheduled es) = .next ((s.acceptedWord i q).scheduled es) := by
    rw [exec_accepts (s := u.scheduled es) (decodeRequest_isRequest hd) hf he, if_neg hperm]
    rfl
  have hruns : (u.scheduled es).runs i := .inl ⟨hf, rfl, hd⟩
  rw [hu, run_succ_of_move n (moveOf_ectb_of_runs hruns haccept (.inl rfl))]

/-- Settles O50: ACCEPT, one read transaction under `EAGER`, and the finish with the byte read. -/
theorem rdregWholeRequest : Obligations.RdregWholeRequest := by
  intro s e addr b hready he hrest haddr hb
  have ha : (addr.setWidth 8).toNat = addr.toNat := by
    rw [BitVec.toNat_setWidth, Nat.mod_eq_of_lt haddr]
  let s₁ : State := s.acceptedWord (.rdreg addr) (Req.formatT opRdreg addr 0)
  let s₂ : State := s₁.afterRead (addr.setWidth 8) b e
  have htx : [Transaction.rd s₁.ectb.txAddr][s₁.ectb.k]? = some (.rd (addr.setWidth 8)) := by
    rw [txAddr_eq_setWidth]
    rfl
  have hrun : run eagerOneRead.length (s.requested (.rdreg addr) eagerOneRead) =
      .next (s₂.onEctb (Ectb.finishOk (b.setWidth 16) 1)) := calc
    _ = run 10 (s₁.scheduled (eagerRead ++ [.ectb])) := run_accept 10 rfl hready (transportError_of_lt haddr)
    _ = run 1 (s₂.scheduled [.ectb]) := run_eagerRead (s := s₁) 1 rfl rfl rfl htx Nat.two_pos he hrest (ha.symm ▸ hb)
    _ = _ := run_finish (s := s₂) 0 rfl rfl rfl (Nat.le_refl 1)
  exact ⟨_, hrun, by simp [Ectb.responded], rfl, fun a => by rw [State.ecReg, State.ecReg, he]; rfl, rfl⟩

end Sys2Proof.Machine
end

section
/-! PROOFS. The pure field functions: boolean decode and encode, enumerated decode, the composite, the masked threshold and the
level (41_bitfield.md R173 to R179). -/

namespace Sys2Proof.Machine

/-! ### Boolean fields -/

/-- A bit of a byte encoded: within the mask the value under the polarity, elsewhere the byte's own bit (R174). -/
theorem getLsbD_boolEncode (b : Byte) (d : Descriptor) (v : Bool) (j : Nat) :
    (boolEncode b d v).getLsbD j = if (Desc.mask d).getLsbD j then v ^^ Desc.inv d else b.getLsbD j := by
  have hpattern : (if v ^^ Desc.inv d then Desc.mask d else 0).getLsbD j =
      ((Desc.mask d).getLsbD j && (v ^^ Desc.inv d)) := by
    split <;> simp [*]
  rw [boolEncode, BitVec.getLsbD_or, hpattern, BitVec.getLsbD_and, BitVec.getLsbD_not]
  cases hm : (Desc.mask d).getLsbD j
  · simpa using fun hb => BitVec.lt_of_getLsbD hb
  · simp

section Boolean
variable (b : Byte) {d : Descriptor} (v : Bool)

/-- Outside the mask a byte encoded is the byte it was (R174). -/
theorem boolEncode_and_not_mask : boolEncode b d v &&& ~~~ Desc.mask d = b &&& ~~~ Desc.mask d := by
  apply BitVec.eq_of_getLsbD_eq
  intro j hj
  cases hm : (Desc.mask d).getLsbD j <;> simp [getLsbD_boolEncode, hm]

/-- Encoding looks only at the bits outside the mask, which a first one keeps. -/
theorem boolEncode_boolEncode : boolEncode (boolEncode b d v) d v = boolEncode b d v := by
  apply BitVec.eq_of_getLsbD_eq
  intro j hj
  cases hm : (Desc.mask d).getLsbD j <;> simp [getLsbD_boolEncode, hm]

/-- A boolean field's mask is one bit (R106). -/
theorem mask_of_wf_bool (hw : Desc.wf d = true) (hk : Desc.kind d = .bool) : ∃ i < 8, Desc.mask d = BitVec.twoPow 8 i := by
  obtain ⟨-, -, -, hrow⟩ := (wf_iff d).1 hw
  simp only [Desc.kindWf, hk, Bool.and_eq_true, beq_iff_eq] at hrow
  obtain ⟨⟨⟨hone, -⟩, -⟩, -⟩ := hrow
  obtain ⟨i, hi, hm⟩ := (popcount_eq_one _).1 hone
  exact ⟨i, hi, BitVec.eq_of_toNat_eq (by rw [hm, BitVec.toNat_twoPow_of_lt hi])⟩

section OneBit
variable {i : Nat} (hi : i < 8) (hm : Desc.mask d = BitVec.twoPow 8 i)
include hi hm

/-- A field of one bit decodes to that bit under the polarity (R173). -/
theorem boolDecode_of_bit : boolDecode b d = (b.getLsbD i ^^ Desc.inv d) := by
  have hbit : (b &&& Desc.mask d != 0) = b.getLsbD i := by
    have hne : BitVec.twoPow 8 i ≠ 0 := fun h => by
      simpa [hi] using congrArg (fun x => x.getLsbD i) h
    rw [hm, BitVec.and_twoPow]
    cases b.getLsbD i
    · rfl
    · exact bne_iff_ne.2 hne
  rw [boolDecode, hbit]

theorem getLsbD_mask_of_bit : (Desc.mask d).getLsbD i = true := by
  simp [hm, hi]

/-- What is encoded is what is decoded. -/
theorem boolDecode_boolEncode : boolDecode (boolEncode b d v) d = v := by
  simp [boolDecode_of_bit _ hi hm, getLsbD_boolEncode, getLsbD_mask_of_bit hi hm]

/-- Encoding the complement of what a byte decodes to flips the field's one bit (R190). -/
theorem boolEncode_not_boolDecode : boolEncode b d (!boolDecode b d) = b ^^^ Desc.mask d := by
  apply BitVec.eq_of_getLsbD_eq
  intro j hj
  rw [getLsbD_boolEncode, boolDecode_of_bit b hi hm, BitVec.getLsbD_xor]
  by_cases hij : i = j
  · subst hij
    simp [getLsbD_mask_of_bit hi hm]
  · simp [hm, hij]

end OneBit

end Boolean

/-- Settles O30: a boolean field's mask is one bit. -/
theorem booleanEncodeSetsOnlyTheField : Obligations.BooleanEncodeSetsOnlyTheField := by
  intro b d v hw hk
  obtain ⟨i, hi, hm⟩ := mask_of_wf_bool hw hk
  exact ⟨boolDecode_boolEncode b v hi hm, boolEncode_and_not_mask b v, boolEncode_boolEncode b v,
    boolEncode_not_boolDecode b hi hm⟩

/-! ### Integer fields -/

/-- A bit of an enumerated field is the bit of the byte that many places above the mask's lowest, where the mask has it (R175). -/
theorem getLsbD_enumDecode (b : Byte) (d : Descriptor) (j : Nat) :
    (enumDecode b d).getLsbD j =
      (b.getLsbD (ctz (Desc.mask d) + j) && (Desc.mask d).getLsbD (ctz (Desc.mask d) + j)) := by
  simp [enumDecode]

/-- An enumerated field is at most its mask shifted down (R184). -/
theorem enumDecode_le (b : Byte) (d : Descriptor) : (enumDecode b d).toNat ≤ (enumDecode 0xFF d).toNat := by
  have hmask : (0xFF : Byte) &&& Desc.mask d = Desc.mask d := BitVec.allOnes_and
  simp only [enumDecode, hmask, BitVec.toNat_ushiftRight, Nat.shiftRight_eq_div_pow]
  refine Nat.div_le_div_right ?_
  rw [BitVec.toNat_and]
  exact Nat.and_le_right

/-- Settles O31: the lowest bit of the mask is at `ctz`. -/
theorem enumeratedDecodeReadsTheMaskedBits : Obligations.EnumeratedDecodeReadsTheMaskedBits := by
  intro b d hm
  obtain ⟨hlt, hset, hbelow⟩ := ctz_spec _ hm
  exact ⟨⟨ctz (Desc.mask d), hlt, hset, fun j hj => hbelow ⟨j, by omega⟩ hj, getLsbD_enumDecode b d⟩, enumDecode_le b d⟩

/-- The composite's number: two bytes never overflow 16 bits (R177). -/
theorem compose16_toNat (lo hi : Byte) : (compose16 lo hi).toNat = hi.toNat * 256 + lo.toNat := by
  have := lo.isLt
  have := hi.isLt
  rw [compose16, BitVec.toNat_ofNat, Nat.mod_eq_of_lt (by omega)]

/-- The composite is the two bytes side by side (R68, R177). -/
theorem compose16_eq_append (lo hi : Byte) : compose16 lo hi = hi ++ lo := by
  apply BitVec.eq_of_toNat_eq
  rw [compose16_toNat, BitVec.toNat_append, shiftLeft_or_low lo.isLt]
  rfl

/-- Settles O32: two bytes fit 16 bits. -/
theorem compositeIsLittleEndian : Obligations.CompositeIsLittleEndian :=
  fun lo hi => ⟨compose16_toNat lo hi, compose16_eq_append lo hi⟩

/-- A byte's high nibble exceeds 4, and so is not 0, exactly when the byte is at least 16. -/
theorem high_nibble_gt : ∀ b : Byte, 4 < (b &&& 0xF0).toNat ↔ 16 ≤ b.toNat := by decide

/-- The fields of `FANS`'s descriptor: its register, the high nibble for a mask, and a threshold of 4 (R170). -/
theorem fansEntry_fields (a : Byte) :
    Desc.kind (fansEntry (some a)) = .maskedGt ∧ Desc.inv (fansEntry (some a)) = false ∧
      Desc.addr (fansEntry (some a)) = a ∧ Desc.addrHi (fansEntry (some a)) = 0 ∧
      Desc.mask (fansEntry (some a)) = 0xF0 ∧ Desc.param (fansEntry (some a)) = 4 ∧
      Desc.scale (fansEntry (some a)) = 0 ∧ Desc.rsv0 (fansEntry (some a)) = 0 ∧
      Desc.rsv1 (fansEntry (some a)) = 0 := by
  have := a.isLt
  have hn := fansEntry_toNat a
  have hkind : (fansEntry (some a)).toNat / 2 ^ 60 = 7 := by omega
  refine ⟨by simpa using kind_cases hkind, ?_⟩
  simp only [BitVec.toNat_eq, inv_eq, addr_toNat, addrHi_toNat, mask_toNat, param_toNat, scale_toNat, rsv0_toNat,
    rsv1_toNat, decide_eq_false_iff_not, hn, BitVec.ofNat_eq_ofNat, BitVec.toNat_ofNat]
  omega

/-- The fields of `VOLT`'s descriptor: its two registers, and a scale of 1000 (R170). -/
theorem voltEntry_fields (lo hi : Byte) :
    Desc.kind (voltEntry (some (lo, hi))) = .scaled ∧ Desc.inv (voltEntry (some (lo, hi))) = false ∧
      Desc.addr (voltEntry (some (lo, hi))) = lo ∧ Desc.addrHi (voltEntry (some (lo, hi))) = hi ∧
      Desc.mask (voltEntry (some (lo, hi))) = 0xFF ∧ Desc.param (voltEntry (some (lo, hi))) = 0 ∧
      Desc.scale (voltEntry (some (lo, hi))) = 1000 ∧ Desc.rsv0 (voltEntry (some (lo, hi))) = 0 ∧
      Desc.rsv1 (voltEntry (some (lo, hi))) = 0 := by
  have := lo.isLt
  have := hi.isLt
  have hn := voltEntry_toNat lo hi
  have hkind : (voltEntry (some (lo, hi))).toNat / 2 ^ 60 = 5 := by omega
  refine ⟨by simpa using kind_cases hkind, ?_⟩
  simp only [BitVec.toNat_eq, inv_eq, addr_toNat, addrHi_toNat, mask_toNat, param_toNat, scale_toNat, rsv0_toNat,
    rsv1_toNat, decide_eq_false_iff_not, hn, BitVec.ofNat_eq_ofNat, BitVec.toNat_ofNat]
  omega

/-- Settles O36: five constants, and the two entries built from their registers. -/
theorem fixedRegisterMapEntries : Obligations.FixedRegisterMapEntries := by
  intro p
  have hvolt : regmap p 5 = voltEntry p.voltRegs := rfl
  have hfans : regmap p 6 = fansEntry p.fansAddr := rfl
  rw [hvolt, hfans]
  refine ⟨rfl, rfl, rfl, rfl, rfl, fun h => ?_, fun h => ?_, fun lo hi h => ?_, fun a h => ?_⟩ <;> rw [h]
  · rfl
  · rfl
  · exact voltEntry_fields lo hi
  · exact fansEntry_fields a

/-- Settles O33: the comparison is R178's, and above `FANS`'s threshold of 4 a high nibble is one that is not 0. -/
theorem fansReadsWhetherTheHighNibbleIsSet : Obligations.FansReadsWhetherTheHighNibbleIsSet := by
  refine ⟨fun b d => ?_, fun b a => ?_⟩
  · rcases Nat.lt_or_ge (Desc.param d).toNat (b &&& Desc.mask d).toNat with h | h
    · exact .inl ⟨if_pos h, h⟩
    · exact .inr ⟨if_neg (Nat.not_lt.2 h), h⟩
  · obtain ⟨-, -, -, -, hmask, hparam, -⟩ := fansEntry_fields a
    rw [maskedGtDecode, hmask, hparam]
    exact if_congr (high_nibble_gt b) rfl rfl

/-- The level written is the operand modulo `PARAM`, which a byte holds (R179). -/
theorem levelEncode_toNat (n : Half) {d : Descriptor} (hp : 1 ≤ (Desc.param d).toNat) :
    (levelEncode n d).toNat = n.toNat % (Desc.param d).toNat := by
  have hlt := Nat.mod_lt n.toNat hp
  have := (Desc.param d).isLt
  rw [levelEncode, BitVec.toNat_ofNat, Nat.mod_eq_of_lt (by omega)]

/-- Settles O34: a remainder is below `PARAM`, and `BKLT` has 10 levels. -/
theorem levelWrapsIntoTheRange : Obligations.LevelWrapsIntoTheRange := by
  refine ⟨fun n d hp => ?_, fun n p => ?_⟩
  · have hlt := Nat.mod_lt n.toNat hp
    have := (Desc.param d).isLt
    rw [levelEncode_toNat n hp]
    exact ⟨rfl, hlt, by omega⟩
  · obtain ⟨-, -, -, hbklt, -⟩ := fixedRegisterMapEntries p
    have hlevels : (Desc.param (regmap p 3)).toNat = 10 := by
      rw [hbklt]
      rfl
    rw [levelEncode_toNat n (by omega), hlevels]

end Sys2Proof.Machine
end

section
/-! PROOFS. The field requests: the refusal of a kind at ACCEPT, and the list and result of each request
(41_bitfield.md R172, R181 to R191; 60_exceptions.md R225, R227). -/

namespace Sys2Proof.Machine

/-! ### A refusal at ACCEPT -/

/-- ACCEPT of a request that fails a check fills its latches and ends with the check's error (R227, R228). -/
theorem exec_refuses {i : Instr} {s : State} {err : ErrorKind} (hi : isRequest i = true) (hf : s.ectb.fsm = .idle)
    (he : acceptError s.params i = some err) :
    exec i s = .next (s.takeRequest.onEctb fun c => (c.latched s.params i).finishError err) := by
  rw [exec_idle hi hf, acceptOf_eq hi, he]
  rfl

theorem fieldError_of_kind {op : BitVec 4} {d : Descriptor} (hw : Desc.wf d = true) (hk : kindOk op (Desc.kind d) = false) :
    fieldError op d = some .invalidRequest := by
  simp [fieldError, hw, hk]

/-- Settles O15: the descriptor check passes and the kind check fails. -/
theorem kindMismatchIsRefused : Obligations.KindMismatchIsRefused := by
  rintro s fidx v n d hf rfl hw refused
  have refuses {i : Instr} (hi : isRequest i = true) (he : acceptError s.params i = some .invalidRequest) :
      ∃ t, exec i s = .next t ∧ s.samePorts t ∧
        t.ectb = (s.ectb.latched s.params i).finishError .invalidRequest :=
    ⟨_, exec_refuses hi hf he, ⟨rfl, rfl, rfl, rfl⟩, rfl⟩
  refine ⟨fun hk => ?_, fun hk => ?_, fun hk => ?_⟩
  · have hbool : (Desc.kind (regmap s.params fidx) == .bool) = false := beq_eq_false_iff_ne.2 hk
    exact ⟨refuses (i := .getb fidx) rfl (fieldError_of_kind hw hbool),
      refuses (i := .setb fidx v) rfl (fieldError_of_kind hw hbool),
      refuses (i := .togl fidx) rfl (fieldError_of_kind hw hbool)⟩
  · exact refuses (i := .geti fidx) rfl (fieldError_of_kind hw (by rw [hk]; rfl))
  · exact refuses (i := .setl fidx n) rfl (fieldError_of_kind hw (beq_eq_false_iff_ne.2 hk))

/-! ### Lists and results -/

/-- A GETB's value: 1 exactly when some masked bit is set XOR the field is inverted (R173). -/
theorem boolValue_boolDecode (b : Byte) (d : Descriptor) :
    boolValue (boolDecode b d) = if (b &&& Desc.mask d ≠ 0) ↔ Desc.inv d = false then 1 else 0 := by
  rw [boolValue, boolDecode]
  cases Desc.inv d <;> simp

/-- Settles O24: a list of one entry. -/
theorem getbAnswersTheBit : Obligations.GetbAnswersTheBit := by
  rintro s fidx d hf rfl
  refine ⟨fun hk => exec_seq_start hf rfl (by rw [hk]; rfl), fun hk => ?_⟩
  rw [exec_seq_finish (i := .getb fidx) hf rfl hk, boolValue_boolDecode]
  rfl

/-- GETI's list and result on a kind of two bytes: U16LE without a scale of its own, SCALED with one (R187, R188). -/
theorem planOf_geti_of_twoBytes {c : Ectb} (fidx : Byte) (h : Desc.kind c.descL = .u16le ∨ Desc.kind c.descL = .scaled) :
    planOf (.geti fidx) c = some (wordFieldPlan c (if Desc.kind c.descL = .u16le then 1 else Desc.scale c.descL)) := by
  rcases h with h | h <;> simp [planOf, getiPlan, h]

/-- GETI admits both kinds of two bytes (R172). -/
theorem kindOk_geti_of_twoBytes {k : Kind} (h : k = .u16le ∨ k = .scaled) : kindOk opGeti k = true := by
  rcases h with rfl | rfl <;> rfl

/-- The SEQ steps of a GETI on a kind of one byte (R183 to R186). -/
theorem exec_geti_oneByte {s : State} {value : Byte} (fidx : Byte) (hf : s.ectb.fsm = .seq)
    (hp : planOf (.geti fidx) s.ectb = some (byteFieldPlan s.ectb value)) :
    (s.ectb.k = 0 → exec (.geti fidx) s = .next (s.onEctb (Ectb.start (.rd (Desc.addr s.ectb.descL))))) ∧
    (1 ≤ s.ectb.k → exec (.geti fidx) s = .next (s.onEctb (Ectb.finishOk (byteValue value) 1))) :=
  ⟨fun hk => exec_seq_start hf hp (by rw [hk]; rfl), fun hk => exec_seq_finish (i := .geti fidx) hf hp hk⟩

/-- Settles O25, kind by kind. -/
theorem getiAnswersOneByteKinds : Obligations.GetiAnswersOneByteKinds := by
  rintro s fidx d b hf rfl rfl finished
  have enum (hd : Desc.kind s.ectb.descL = .enum) :=
    exec_geti_oneByte (value := enumDecode s.ectb.byte0 s.ectb.descL) fidx hf (by simp [planOf, getiPlan, hd])
  have u8 (hd : Desc.kind s.ectb.descL = .u8) :=
    exec_geti_oneByte (value := u8Decode s.ectb.byte0 s.ectb.descL) fidx hf (by simp [planOf, getiPlan, hd])
  have level (hd : Desc.kind s.ectb.descL = .level) :=
    exec_geti_oneByte (value := s.ectb.byte0) fidx hf (by simp [planOf, getiPlan, hd])
  have maskedGt (hd : Desc.kind s.ectb.descL = .maskedGt) :=
    exec_geti_oneByte (value := maskedGtDecode s.ectb.byte0 s.ectb.descL) fidx hf (by simp [planOf, getiPlan, hd])
  refine ⟨fun hk hd => ?_, fun hk hd => (u8 hd).2 hk, fun hk hd => (enum hd).2 hk, fun hk hd => (level hd).2 hk,
    fun hk hd => ?_⟩
  · simp only [List.mem_cons, List.not_mem_nil, or_false] at hd
    rcases hd with hd | hd | hd | hd
    · exact (u8 hd).1 hk
    · exact (enum hd).1 hk
    · exact (level hd).1 hk
    · exact (maskedGt hd).1 hk
  · have hvalue : byteValue (maskedGtDecode s.ectb.byte0 s.ectb.descL) =
        if (Desc.param s.ectb.descL).toNat < (s.ectb.byte0 &&& Desc.mask s.ectb.descL).toNat then 1 else 0 := by
      unfold maskedGtDecode
      split <;> rfl
    rw [(maskedGt hd).2 hk, hvalue]
    rfl

/-- Settles O26: a list of two entries, and the composite of both bytes. -/
theorem getiAnswersTwoByteKinds : Obligations.GetiAnswersTwoByteKinds := by
  rintro s fidx d hf rfl hd
  have hp := planOf_geti_of_twoBytes fidx hd
  refine ⟨fun hk => exec_seq_start hf hp (by rw [hk]; rfl), fun hk => exec_seq_start hf hp (by rw [hk]; rfl),
    fun hk => ⟨_, exec_seq_finish (i := .geti fidx) hf hp hk, compose16_toNat _ _, fun h => if_pos h, fun h => ?_,
      rfl, rfl, rfl⟩⟩
  have hscale : (wordFieldPlan s.ectb (if Desc.kind s.ectb.descL = .u16le then 1 else Desc.scale s.ectb.descL)).scale =
      Desc.scale s.ectb.descL := if_neg (by simp [h])
  refine ⟨hscale, ?_⟩
  simp only [Ectb.semanticValue, onEctb_ectb, finishOk_rspValue, finishOk_rspScale, hscale]
  rw [wordFieldPlan, compose16_toNat]

/-- The byte a SETB writes, with the operand against the polarity (R174). -/
theorem boolEncode_eq (b : Byte) (d : Descriptor) (v : Bool) :
    boolEncode b d v = (b &&& ~~~ Desc.mask d) ||| (if v = Desc.inv d then 0 else Desc.mask d) := by
  rw [boolEncode]
  cases v <;> cases Desc.inv d <;> rfl

/-- Settles O27: a list of two entries. -/
theorem setbReadsThenWrites : Obligations.SetbReadsThenWrites := by
  rintro s fidx v d hf rfl
  refine ⟨fun hk => exec_seq_start hf rfl (by rw [hk]; rfl), fun hk => ?_,
    fun hk => exec_seq_finish (i := .setb fidx v) hf rfl hk⟩
  rw [← boolEncode_eq]
  exact exec_seq_start hf rfl (by rw [hk]; rfl)

/-- Settles O28: a list of three entries, the first two alike. -/
theorem toglReadsTwiceThenWrites : Obligations.ToglReadsTwiceThenWrites := by
  rintro s fidx d hf rfl
  refine ⟨fun hk => ?_, fun hk => exec_seq_start hf rfl (by rw [hk]; rfl),
    fun hk => exec_seq_finish (i := .togl fidx) hf rfl hk⟩
  obtain h0 | h1 : s.ectb.k = 0 ∨ s.ectb.k = 1 := by omega
  · exact exec_seq_start hf rfl (by rw [h0]; rfl)
  · exact exec_seq_start hf rfl (by rw [h1]; rfl)

/-- Settles O29: a list of one entry. -/
theorem setlWritesTheWrappedLevel : Obligations.SetlWritesTheWrappedLevel := by
  rintro s fidx n d hf rfl
  exact ⟨fun hk => exec_seq_start hf rfl (by rw [hk]; rfl), fun hk => exec_seq_finish (i := .setl fidx n) hf rfl hk⟩

end Sys2Proof.Machine
end

section
/-! PROOFS. A write transaction and the whole requests WRREG, GETI, SETB, TOGL and SETL at the reference EC, every wait satisfied
at once and the EC's step taken after each write (40_transport.md R140, R144; 41_bitfield.md R187 to R193; schedule `EAGER` of
95_test_vectors.md). -/

namespace Sys2Proof.Machine

/-! ### A write transaction under `EAGER` -/

/-- ECTB after a write of `v` to register `a`. -/
def Ectb.afterWrite (a v : Byte) (c : Ectb) : Ectb :=
  Ectb.endTx { c.start (.wr a v) with txStage := .three, txSub := .act, polls := 1 }

/-- The reference EC after it took a write of `v` to register `a`. -/
def EcRef.afterWrite (a v : Byte) (e : EcRef) : EcRef :=
  { e with regs := e.regs.write a.toNat v, ibf := false, inByte := v, inIsCmd := false, phase := .idle }

/-- The machine after a write of `v` to register `a`, with its accesses in the trace (R140). -/
def State.afterWrite (a v : Byte) (e : EcRef) (s : State) : State :=
  { s with ectb := s.ectb.afterWrite a v, ec := .ref (e.afterWrite a v), trace := writeTrace a v ++ s.trace }

/-- The machine after a write's first stage and the EC's step on its command byte. -/
def State.afterWriteCommand (e : EcRef) (s : State) : State :=
  { s with
    ectb := s.ectb.nextStage .two, ec := .ref ((e.deliver Config.cmdWrite true).consume .wrAddr),
    trace := .writeCommand Config.cmdWrite :: .readStatus e.status :: s.trace }

/-- The machine after a write's second stage and the EC's step on the address. -/
def State.afterWriteAddress (e : EcRef) (s : State) : State :=
  { s with
    ectb := s.ectb.nextStage .three,
    ec := .ref ((e.deliver s.ectb.addrL false).consume (.wrData s.ectb.addrL)),
    trace := .writeData s.ectb.addrL :: .readStatus e.status :: s.trace }

section EagerWrite
variable {i : Instr} {s : State} {e : EcRef} {a v : Byte} {es : List Event}

/-- The EC takes the command byte of a write (R91). -/
theorem moveOf_ec_writeCommand (he : s.ec = .ref e) (hb : e.ibf = true) (hc : e.inIsCmd = true)
    (hd : e.inByte = Config.cmdWrite) : moveOf .ec s = .next (s.setEc (.ref (e.consume .wrAddr))) := by
  have hdec : decode (.command e.inByte) = .ok .ecWriteCmd := by rw [hd]; rfl
  rw [moveOf, ecStep_of_command he hb hc hdec, exec_ecWriteCmd, beginPhase_ref _ he]

/-- The EC takes the address byte of a write (R65). -/
theorem moveOf_ec_writeAddress (he : s.ec = .ref e) (hb : e.ibf = true) (hd : e.inIsCmd = false) (hp : e.phase = .wrAddr) :
    moveOf .ec s = .next (s.setEc (.ref (e.consume (.wrData e.inByte)))) := by
  rw [← ecDataByte_wrAddr hp]
  exact step_ec_dataByte he hb hd

/-- The EC takes the value byte of a write and stores it (R65). -/
theorem moveOf_ec_writeValue (he : s.ec = .ref e) (hb : e.ibf = true) (hd : e.inIsCmd = false) (hp : e.phase = .wrData a) :
    moveOf .ec s = .next (s.setEc (.ref (e.store a e.inByte))) := by
  rw [← ecDataByte_wrData hp]
  exact step_ec_dataByte he hb hd

/-- A stage whose access hands the EC a byte: the wait satisfied at once, the access, and the EC's step on the byte. -/
theorem run_poll_act_ec {t u : State} (n : Nat) (hc : s.ectb.current = some i) (hf : s.ectb.fsm = .tx)
    (hs : s.ectb.txSub = .poll) (he : s.ec = .ref e) (hw : waitHolds s.ectb.txKind s.ectb.txStage e.status = true)
    (ha : actStep ((s.afterPoll e).scheduled (.ec :: es)) = .next (t.scheduled (.ec :: es))) (hb : t.ectb.busy = true)
    (hec : moveOf .ec (t.scheduled es) = .next u) :
    run (n + 3) (s.scheduled (.ectb :: .ectb :: .ec :: es)) = run n u := by
  rw [run_poll_act (n + 1) hc hf hs he hw ha hb, run_succ_of_move n hec]

/-- A write's first stage: the wait, the command byte, and the EC's step on it. -/
theorem run_writeCommand (n : Nat) (hc : s.ectb.current = some i) (hf : s.ectb.fsm = .tx) (hs : s.ectb.txSub = .poll)
    (hk : s.ectb.txKind = .wr) (hg : s.ectb.txStage = .one) (he : s.ec = .ref e) (hi : e.ibf = false) :
    run (n + 3) (s.scheduled (.ectb :: .ectb :: .ec :: es)) = run n ((s.afterWriteCommand e).scheduled es) := by
  let t : State := (writeCommand Config.cmdWrite (s.afterPoll e)).onEctb (Ectb.nextStage .two)
  have ht : t.ec = .ref (e.deliver Config.cmdWrite true) := by simp [t, State.afterPoll, he]
  exact run_poll_act_ec (t := t) n hc hf hs he (waitHolds_of_ibf (.inr hk) hi)
    (actStep_wr_one (s := (s.afterPoll e).scheduled (.ec :: es)) hk hg) (busy_of_tx hf)
    (moveOf_ec_writeCommand (s := t.scheduled es) ht rfl rfl rfl)

/-- A write's second stage: the wait, the address, and the EC's step on it. -/
theorem run_writeAddress (n : Nat) (hc : s.ectb.current = some i) (hf : s.ectb.fsm = .tx) (hs : s.ectb.txSub = .poll)
    (hk : s.ectb.txKind = .wr) (hg : s.ectb.txStage = .two) (he : s.ec = .ref e) (hi : e.ibf = false)
    (hp : e.phase = .wrAddr) :
    run (n + 3) (s.scheduled (.ectb :: .ectb :: .ec :: es)) = run n ((s.afterWriteAddress e).scheduled es) := by
  let t : State := (writeData s.ectb.addrL (s.afterPoll e)).onEctb (Ectb.nextStage .three)
  have ht : t.ec = .ref (e.deliver s.ectb.addrL false) := by simp [t, State.afterPoll, he]
  exact run_poll_act_ec (t := t) n hc hf hs he (waitHolds_of_ibf (.inr hk) hi)
    (actStep_two (s := (s.afterPoll e).scheduled (.ec :: es)) hg) (busy_of_tx hf)
    (moveOf_ec_writeAddress (s := t.scheduled es) ht rfl rfl hp)

/-- A write's third stage: the wait, the value, and the EC's step that stores it. -/
theorem run_writeValue (n : Nat) (hc : s.ectb.current = some i) (hf : s.ectb.fsm = .tx) (hs : s.ectb.txSub = .poll)
    (hk : s.ectb.txKind = .wr) (hg : s.ectb.txStage = .three) (he : s.ec = .ref e) (hi : e.ibf = false)
    (hp : e.phase = .wrData a) :
    run (n + 3) (s.scheduled (.ectb :: .ectb :: .ec :: es)) =
      run n (State.scheduled es { s with
        ectb := (s.afterPoll e).ectb.endTx, ec := .ref ((e.deliver s.ectb.wdataL false).store a s.ectb.wdataL),
        trace := .writeData s.ectb.wdataL :: .readStatus e.status :: s.trace }) := by
  let t : State := ((writeData s.ectb.wdataL (s.afterPoll e)).onEctb Ectb.endTx).endRace
  have ht : t.ec = .ref (e.deliver s.ectb.wdataL false) := by simp [t, State.afterPoll, he]
  exact run_poll_act_ec (t := t) n hc hf hs he (waitHolds_of_ibf (.inr hk) hi)
    (actStep_wr_three (s := (s.afterPoll e).scheduled (.ec :: es)) hk hg) rfl
    (moveOf_ec_writeValue (s := t.scheduled es) ht rfl rfl hp)

/-- A write transaction under `EAGER`: the SEQ step, and the three stages. -/
theorem run_eagerWrite {p : Plan} (n : Nat) (hc : s.ectb.current = some i) (hf : s.ectb.fsm = .seq)
    (hp : planOf i s.ectb = some p) (ht : p.txs[s.ectb.k]? = some (.wr a v)) (he : s.ec = .ref e) (hr : e.atRest = true) :
    run (n + 10) (s.scheduled (eagerWrite ++ es)) = run n ((s.afterWrite a v e).scheduled es) := by
  obtain ⟨hibf, hobf, -⟩ := (atRest_iff e).1 hr
  let e₁ : EcRef := (e.deliver Config.cmdWrite true).consume .wrAddr
  let e₂ : EcRef := (e₁.deliver a false).consume (.wrData a)
  let s₁ : State := s.onEctb (Ectb.start (.wr a v))
  let s₂ : State := s₁.afterWriteCommand e
  let s₃ : State := s₂.afterWriteAddress e₁
  have hst : e.status = 0 := status_of_flags hibf hobf
  have hst₁ : e₁.status = 0 := status_of_flags (e := e₁) (input := false) rfl hobf
  have hst₂ : e₂.status = 0 := status_of_flags (e := e₂) (input := false) rfl hobf
  have htrace : .writeData v :: .readStatus e₂.status :: s₃.trace = writeTrace a v ++ s.trace := by
    change PortAccess.writeData v :: .readStatus e₂.status :: .writeData a :: .readStatus e₁.status ::
      .writeCommand Config.cmdWrite :: .readStatus e.status :: s.trace = _
    rw [hst₂, hst₁, hst]
    rfl
  calc run (n + 10) (s.scheduled (eagerWrite ++ es))
    _ = run (n + 9) (s₁.scheduled (eagerWrite.drop 1 ++ es)) := run_start (n + 9) hc hf hp ht
    _ = run (n + 6) (s₂.scheduled (eagerWrite.drop 4 ++ es)) :=
      run_writeCommand (s := s₁) (n + 6) hc rfl rfl rfl rfl he hibf
    _ = run (n + 3) (s₃.scheduled (eagerWrite.drop 7 ++ es)) :=
      run_writeAddress (s := s₂) (n + 3) hc rfl rfl rfl rfl rfl rfl rfl
    _ = run n _ := run_writeValue (s := s₃) n hc rfl rfl rfl rfl rfl rfl rfl
    _ = run n ((s.afterWrite a v e).scheduled es) := by
      rw [State.afterWrite, ← htrace]
      rfl

theorem afterWrite_atRest (a v : Byte) (hr : e.atRest = true) : (e.afterWrite a v).atRest = true := by
  obtain ⟨-, hobf, -⟩ := (atRest_iff e).1 hr
  exact (atRest_iff _).2 ⟨rfl, hobf, rfl⟩

end EagerWrite

/-! ### Between one request and the next -/

/-- A register after a write: the byte written, or what it held. -/
theorem memory_read_write (m : Memory) (a a' v : Byte) :
    (m.write a.toNat v).read a'.toNat = if a' = a then some v else m.read a'.toNat := by
  split
  · rename_i h
    rw [h, memory_read_write_same]
  · rename_i h
    exact memory_read_write_other m v fun heq => h (BitVec.eq_of_toNat_eq heq)

theorem ecReg_of_ref {s : State} {e : EcRef} (he : s.ec = .ref e) (a : Byte) : s.ecReg a = e.regs.read a.toNat := by
  rw [State.ecReg, he, memory_ref]

/-- ECTB idle again, with the permission a ready one had, is ready. -/
theorem ready_of_idle {c c' : Ectb} (h : c.ready = true) (hf : c'.fsm = .idle) (hp : c'.acqState = c.acqState) :
    c'.ready = true :=
  (ready_iff c').2 ⟨hf, hp.trans ((ready_iff c).1 h).2⟩

/-! ### Requests of one write: WRREG and SETL -/

section OneWrite
variable {i : Instr} {q : ReqWord} {s : State} {e : EcRef}

/-- The machine after a whole request `i` that wrote `v` to register `a`. -/
def State.afterOneWrite (i : Instr) (q : ReqWord) (a v : Byte) (e : EcRef) (s : State) : State :=
  ((s.acceptedWord i q).afterWrite a v e).onEctb (Ectb.finishOk 0 0)

/-- ACCEPT, one write transaction under `EAGER`, and the finish. -/
theorem run_oneWrite {txs txs' : List Transaction} {a v : Byte} (hq : encode i = .request q) (hi : isRequest i = true)
    (hready : s.ectb.ready = true) (he : s.ec = .ref e) (hr : e.atRest = true) (hacc : acceptError s.params i = none)
    (hp : planOf i (s.acceptedWord i q).ectb = some ⟨txs, 0, 0⟩) (ht : txs[0]? = some (.wr a v))
    (hp' : planOf i ((s.acceptedWord i q).afterWrite a v e).ectb = some ⟨txs', 0, 0⟩) (hlen : txs'.length ≤ 1) :
    run eagerOneWrite.length (s.requested i eagerOneWrite) = .next (s.afterOneWrite i q a v e) := by
  let s₁ : State := s.acceptedWord i q
  let s₂ : State := s₁.afterWrite a v e
  have hc : s₁.ectb.current = some i := latched_current hi s.params s.ectb
  calc run eagerOneWrite.length (s.requested i eagerOneWrite)
    _ = run 11 (s₁.scheduled (eagerWrite ++ [Event.ectb])) := run_accept 11 hq hready hacc
    _ = run 1 (s₂.scheduled [Event.ectb]) := run_eagerWrite (s := s₁) 1 hc rfl hp ht he hr
    _ = _ := run_finish (s := s₂) 0 hc rfl hp' hlen

theorem afterOneWrite_ecReg (i : Instr) (q : ReqWord) (a v : Byte) (he : s.ec = .ref e) (a' : Byte) :
    (s.afterOneWrite i q a v e).ecReg a' = if a' = a then some v else s.ecReg a' := by
  rw [ecReg_of_ref he]
  exact memory_read_write e.regs a a' v

end OneWrite

/-- Settles O51: the write, then O50's read of the register it stored. -/
theorem writeThenReadRoundTrip : Obligations.WriteThenReadRoundTrip := by
  intro s e a v hready he hr
  let i : Instr := .wrreg (a.setWidth 16) v
  let t : State := s.afterOneWrite i (Req.formatT opWrreg (a.setWidth 16) v) a v e
  have hlt : (a.setWidth 16).toNat < 256 := by
    have := a.isLt
    rw [BitVec.toNat_setWidth]
    omega
  have haddr : (a.setWidth 16).toNat = a.toNat := BitVec.toNat_setWidth_of_le (by decide)
  have htx : (s.acceptedWord i (Req.formatT opWrreg (a.setWidth 16) v)).ectb.txAddr = a := by
    rw [txAddr_eq_setWidth]
    exact BitVec.setWidth_setWidth_of_le a (by decide) |>.trans (BitVec.setWidth_eq a)
  have hrun : run eagerOneWrite.length (s.requested i eagerOneWrite) = .next t :=
    run_oneWrite rfl rfl hready he hr (transportError_of_lt hlt) rfl (by rw [htx]; rfl) rfl (Nat.le_refl 1)
  have hreg := afterOneWrite_ecReg i (Req.formatT opWrreg (a.setWidth 16) v) a v he
  obtain ⟨u, hrun', hrsp, -⟩ := rdregWholeRequest t (e.afterWrite a v) (a.setWidth 16) v
    (ready_of_idle hready rfl rfl) rfl (afterWrite_atRest a v hr) hlt
    (by rw [haddr]; exact memory_read_write_same _ _ _)
  exact ⟨t, u, hrun, by simp [t, State.afterOneWrite, Ectb.responded], rfl, (hreg a).trans (if_pos rfl),
    fun a' ha => (hreg a').trans (if_neg ha), hrun', hrsp⟩

/-- A level field has at least one level (R106). -/
theorem param_of_wf_level {d : Descriptor} (hw : Desc.wf d = true) (hk : Desc.kind d = .level) :
    1 ≤ (Desc.param d).toNat := by
  obtain ⟨-, -, -, hrow⟩ := (wf_iff d).1 hw
  simp only [Desc.kindWf, hk, Bool.and_eq_true, bne_iff_ne, ne_eq, BitVec.toNat_eq] at hrow
  obtain ⟨⟨-, hparam⟩, -⟩ := hrow
  exact Nat.pos_of_ne_zero hparam

/-- Settles O55: one write, of the wrapped level. -/
theorem setlWholeRequest : Obligations.SetlWholeRequest := by
  rintro s e f n d hready he hr rfl hw hk
  let d : Descriptor := regmap s.params f
  let t : State := s.afterOneWrite (.setl f n) (Req.formatF opSetl f n) (Desc.addr d) (levelEncode n d) e
  have hrun : run eagerOneWrite.length (s.requested (.setl f n) eagerOneWrite) = .next t :=
    run_oneWrite rfl rfl hready he hr (fieldError_of_wf hw (by rw [hk]; rfl)) rfl rfl rfl (Nat.le_refl 1)
  have hreg := afterOneWrite_ecReg (.setl f n) (Req.formatF opSetl f n) (Desc.addr d) (levelEncode n d) he
  exact ⟨t, levelEncode n d, hrun, by simp [t, State.afterOneWrite, Ectb.responded], rfl,
    levelEncode_toNat n (param_of_wf_level hw hk), (hreg _).trans (if_pos rfl), fun a ha => (hreg a).trans (if_neg ha)⟩

/-! ### Requests that read first: GETI, SETB and TOGL -/

/-- Settles O52: the low register's read, the high one's, and the finish with the composite. -/
theorem getiCompositeWholeRequest : Obligations.GetiCompositeWholeRequest := by
  rintro s e f d lo hi hready he hr rfl hw hd hlo hhi
  let d : Descriptor := regmap s.params f
  let s₁ : State := s.acceptedWord (.geti f) (Req.formatF opGeti f 0)
  let s₂ : State := s₁.afterRead (Desc.addr d) lo e
  let s₃ : State := s₂.afterRead (Desc.addrHi d) hi (e.afterRead (Desc.addr d) lo)
  let sc : Half := if Desc.kind d = .u16le then 1 else Desc.scale d
  have hrun : run eagerTwoReads.length (s.requested (.geti f) eagerTwoReads) =
      .next (s₃.onEctb (Ectb.finishOk (compose16 lo hi) sc)) := calc
    _ = run 19 (s₁.scheduled (eagerRead ++ (eagerRead ++ [Event.ectb]))) :=
      run_accept 19 rfl hready (fieldError_of_wf hw (kindOk_geti_of_twoBytes hd))
    _ = run 10 (s₂.scheduled (eagerRead ++ [Event.ectb])) :=
      run_eagerRead (s := s₁) 10 rfl rfl (planOf_geti_of_twoBytes f hd) rfl Nat.two_pos he hr hlo
    _ = run 1 (s₃.scheduled [Event.ectb]) :=
      run_eagerRead (s := s₂) 1 rfl rfl (planOf_geti_of_twoBytes f hd) rfl Nat.one_lt_two rfl rfl hhi
    _ = _ := run_finish (s := s₃) 0 rfl rfl (planOf_geti_of_twoBytes f hd) (Nat.le_refl 2)
  refine ⟨_, hrun, ?_, rfl, fun a => (ecReg_of_ref he a).symm⟩
  simp [Ectb.responded, compose16_eq_append, sc, d]

section Boolean
variable {s : State} {e : EcRef} {f b : Byte} (hready : s.ectb.ready = true) (he : s.ec = .ref e) (hr : e.atRest = true)
  (hw : Desc.wf (regmap s.params f) = true) (hk : Desc.kind (regmap s.params f) = .bool)
  (hb : e.regs.read (Desc.addr (regmap s.params f)).toNat = some b)

/-- The machine after a whole SETB of field `f` to `v`, whose register held `b`. -/
def State.afterSetb (f : Byte) (v : Bool) (b : Byte) (e : EcRef) (s : State) : State :=
  let d : Descriptor := regmap s.params f
  let s₁ : State := s.acceptedWord (.setb f v) (Req.formatF opSetb f (boolOperand v))
  let s₂ : State := s₁.afterRead (Desc.addr d) b e
  (s₂.afterWrite (Desc.addr d) (boolEncode b d v) (e.afterRead (Desc.addr d) b)).onEctb (Ectb.finishOk 0 0)

include hready he hr hw hk hb in
/-- ACCEPT, a read and a write under `EAGER`, and the finish. -/
theorem run_setb (v : Bool) :
    run eagerSet.length (s.requested (.setb f v) eagerSet) = .next (s.afterSetb f v b e) := by
  let d : Descriptor := regmap s.params f
  let s₁ : State := s.acceptedWord (.setb f v) (Req.formatF opSetb f (boolOperand v))
  let s₂ : State := s₁.afterRead (Desc.addr d) b e
  let s₃ : State := s₂.afterWrite (Desc.addr d) (boolEncode b d v) (e.afterRead (Desc.addr d) b)
  have hc : s₁.ectb.current = some (.setb f v) := latched_current (i := .setb f v) rfl s.params s.ectb
  have hv : s₁.ectb.boolOperand = v := boolOperand_bit v
  calc run eagerSet.length (s.requested (.setb f v) eagerSet)
    _ = run 20 (s₁.scheduled (eagerRead ++ (eagerWrite ++ [Event.ectb]))) :=
      run_accept 20 rfl hready (fieldError_of_wf hw (by rw [hk]; rfl))
    _ = run 11 (s₂.scheduled (eagerWrite ++ [Event.ectb])) :=
      run_eagerRead (s := s₁) 11 hc rfl rfl rfl Nat.two_pos he hr hb
    _ = run 1 (s₃.scheduled [Event.ectb]) := run_eagerWrite (s := s₂) 1 hc rfl rfl (by rw [← hv]; rfl) rfl rfl
    _ = _ := run_finish (s := s₃) 0 hc rfl rfl (Nat.le_refl 2)

include he in
/-- A SETB changes its field's register alone. -/
theorem afterSetb_ecReg (v : Bool) (b a : Byte) :
    (s.afterSetb f v b e).ecReg a =
      if a = Desc.addr (regmap s.params f) then some (boolEncode b (regmap s.params f) v) else s.ecReg a := by
  rw [ecReg_of_ref he]
  exact memory_read_write _ _ _ _

/-- The machine after a whole TOGL of field `f`, whose register held `b`. -/
def State.afterTogl (f b : Byte) (e : EcRef) (s : State) : State :=
  let d : Descriptor := regmap s.params f
  let s₁ : State := s.acceptedWord (.togl f) (Req.formatF opTogl f 0)
  let s₂ : State := s₁.afterRead (Desc.addr d) b e
  let s₃ : State := s₂.afterRead (Desc.addr d) b (e.afterRead (Desc.addr d) b)
  (s₃.afterWrite (Desc.addr d) (boolEncode b d (!boolDecode b d)) (e.afterRead (Desc.addr d) b)).onEctb
    (Ectb.finishOk 0 0)

include hready he hr hw hk hb in
/-- ACCEPT, two reads and a write under `EAGER`, and the finish. -/
theorem run_togl : run eagerToggle.length (s.requested (.togl f) eagerToggle) = .next (s.afterTogl f b e) := by
  let d : Descriptor := regmap s.params f
  let e₁ : EcRef := e.afterRead (Desc.addr d) b
  let s₁ : State := s.acceptedWord (.togl f) (Req.formatF opTogl f 0)
  let s₂ : State := s₁.afterRead (Desc.addr d) b e
  let s₃ : State := s₂.afterRead (Desc.addr d) b e₁
  let s₄ : State := s₃.afterWrite (Desc.addr d) (boolEncode b d (!boolDecode b d)) e₁
  calc run eagerToggle.length (s.requested (.togl f) eagerToggle)
    _ = run 29 (s₁.scheduled (eagerRead ++ (eagerRead ++ (eagerWrite ++ [Event.ectb])))) :=
      run_accept 29 rfl hready (fieldError_of_wf hw (by rw [hk]; rfl))
    _ = run 20 (s₂.scheduled (eagerRead ++ (eagerWrite ++ [Event.ectb]))) :=
      run_eagerRead (s := s₁) 20 rfl rfl rfl rfl Nat.two_pos he hr hb
    _ = run 11 (s₃.scheduled (eagerWrite ++ [Event.ectb])) :=
      run_eagerRead (s := s₂) 11 rfl rfl rfl rfl Nat.one_lt_two rfl rfl hb
    _ = run 1 (s₄.scheduled [Event.ectb]) := run_eagerWrite (s := s₃) 1 rfl rfl rfl rfl rfl rfl
    _ = _ := run_finish (s := s₄) 0 rfl rfl rfl (Nat.le_refl 3)

include he hw hk in
/-- A TOGL flips the bit of its field's register, and changes no other register. -/
theorem afterTogl_ecReg (b a : Byte) :
    (s.afterTogl f b e).ecReg a =
      if a = Desc.addr (regmap s.params f) then some (b ^^^ Desc.mask (regmap s.params f)) else s.ecReg a := by
  obtain ⟨-, -, -, hflip⟩ := booleanEncodeSetsOnlyTheField b _ true hw hk
  rw [ecReg_of_ref he, ← hflip]
  exact memory_read_write _ _ _ _

end Boolean

/-- Settles O53: the first SETB stores the encoded byte, and the second encodes it again. -/
theorem setbWholeRequest : Obligations.SetbWholeRequest := by
  rintro s e f v d b hready he hr rfl hw hk hb
  let d : Descriptor := regmap s.params f
  let new : Byte := boolEncode b d v
  let t : State := s.afterSetb f v b e
  let e' : EcRef := (e.afterRead (Desc.addr d) b).afterWrite (Desc.addr d) new
  obtain ⟨hdecode, hkeep, (htwice : boolEncode new d v = new), -⟩ :=
    booleanEncodeSetsOnlyTheField b d v hw hk
  have hreg (a : Byte) : t.ecReg a = if a = Desc.addr d then some new else s.ecReg a := afterSetb_ecReg he v b a
  have hnew : t.ecReg (Desc.addr d) = some new := (hreg _).trans (if_pos rfl)
  have hready' : t.ectb.ready = true := ready_of_idle hready rfl rfl
  have hreg' (a : Byte) :
      (t.afterSetb f v new e').ecReg a = if a = Desc.addr d then some (boolEncode new d v) else t.ecReg a :=
    afterSetb_ecReg (s := t) rfl v new a
  refine ⟨t, t.afterSetb f v new e', new, run_setb hready he hr hw hk hb v,
    by simp [t, State.afterSetb, Ectb.responded], rfl, hnew, hdecode, hkeep, fun a ha => (hreg a).trans (if_neg ha),
    run_setb (s := t) hready' rfl rfl hw hk hnew v, fun a => ?_⟩
  rw [hreg', hreg, htwice]
  split <;> rfl

/-- Settles O54: the first TOGL flips the field's bit, and the second flips it back. -/
theorem toggleTwiceRestores : Obligations.ToggleTwiceRestores := by
  rintro s e f d b hready he hr rfl hw hk hb
  let d : Descriptor := regmap s.params f
  let new : Byte := b ^^^ Desc.mask d
  let t : State := s.afterTogl f b e
  let e' : EcRef := (e.afterRead (Desc.addr d) b).afterWrite (Desc.addr d) (boolEncode b d (!boolDecode b d))
  have hreg (a : Byte) : t.ecReg a = if a = Desc.addr d then some new else s.ecReg a := afterTogl_ecReg he hw hk b a
  have hnew : t.ecReg (Desc.addr d) = some new := (hreg _).trans (if_pos rfl)
  have hready' : t.ectb.ready = true := ready_of_idle hready rfl rfl
  have hreg' (a : Byte) :
      (t.afterTogl f new e').ecReg a = if a = Desc.addr d then some (new ^^^ Desc.mask d) else t.ecReg a :=
    afterTogl_ecReg (s := t) rfl hw hk new a
  have hback : new ^^^ Desc.mask d = b := by rw [BitVec.xor_assoc, BitVec.xor_self, BitVec.xor_zero]
  refine ⟨t, t.afterTogl f new e', run_togl hready he hr hw hk hb, by simp [t, State.afterTogl, Ectb.responded], hnew,
    run_togl (s := t) hready' rfl rfl hw hk hnew, fun a => ?_⟩
  rw [hreg', hreg, hback]
  split
  · rename_i ha
    rw [ha, ecReg_of_ref he, hb]
  · rfl

end Sys2Proof.Machine
end

section
/-! PROOFS. A read transaction and a whole two-byte GETI with the EC under no law: the bytes are the queue of answers' (20_memory.md
R64, 41_bitfield.md R187, R188, 70_reset_and_hazards.md R267). -/

namespace Sys2Proof.Machine

/-- The machine after an EC under no law answered an access, with `rest` left of the queue. -/
def State.afterAnswer (x : PortAccess) (rest : List Byte) (s : State) : State :=
  { s with env := { s.env with answers := rest, draws := s.env.draws + 1 }, trace := x :: s.trace }

/-- The machine after a poll that an EC under no law satisfied. -/
def State.afterAnsweredPoll (st : Byte) (rest : List Byte) (s : State) : State :=
  (s.afterAnswer (.readStatus st) rest).onEctb fun c => { c with polls := c.polls + 1, txSub := .act }

/-- The machine after a read of register `a` that an EC under no law answered with `b`, and its waits with `st₁`, `st₂`, `st₃`. -/
def State.afterAnsweredRead (a st₁ st₂ st₃ b : Byte) (rest : List Byte) (s : State) : State :=
  { s with
    ectb := s.ectb.afterRead a b, env := { s.env with answers := rest, draws := s.env.draws + 4 },
    trace := [.readData b, .readStatus st₃, .writeData a, .readStatus st₂, .writeCommand Config.cmdRead, .readStatus st₁] ++
      s.trace }

section Answered
variable {i : Instr} {s : State} {a b st st₁ st₂ st₃ : Byte} {rest : List Byte} {es : List Event}

theorem readStatus_oracle (he : s.ec = .oracle) (ha : s.env.answers = b :: rest) :
    readStatus s = (b, s.afterAnswer (.readStatus b) rest) := by
  have hdraw : readStatus s = drawStatus s := by simp [readStatus, he]
  rw [hdraw, drawStatus, State.drawByte, ha]
  rfl

theorem readData_oracle (he : s.ec = .oracle) (ha : s.env.answers = b :: rest) :
    readData s = (b, s.afterAnswer (.readData b) rest) := by
  have hdraw : readData s = drawData s := by simp [readData, he]
  rw [hdraw, drawData, State.drawByte, ha]
  rfl

theorem pollStep_oracle (hf : s.ectb.fsm = .tx) (he : s.ec = .oracle) (ha : s.env.answers = st :: rest)
    (hw : waitHolds s.ectb.txKind s.ectb.txStage st = true) : pollStep s = s.afterAnsweredPoll st rest := by
  have hread := readStatus_oracle he ha
  obtain ⟨hectb, hec⟩ := pollStep_satisfied hf (by rw [hread]; exact hw)
  exact State.ext hectb hec (pollStep_caller s) (by rw [pollStep_env, hread]; rfl) (pollStep_params s)
    (by rw [pollStep_trace, hread]; rfl)

/-- A wait the first answer satisfies, then the access it guards. -/
theorem run_answered_act {t : State} (n : Nat) (hc : s.ectb.current = some i) (hf : s.ectb.fsm = .tx)
    (hs : s.ectb.txSub = .poll) (he : s.ec = .oracle) (ha : s.env.answers = st :: rest)
    (hw : waitHolds s.ectb.txKind s.ectb.txStage st = true)
    (hact : actStep ((s.afterAnsweredPoll st rest).scheduled es) = .next t) (hb : t.ectb.busy = true) :
    run (n + 2) (s.scheduled (.ectb :: .ectb :: es)) = run n t := by
  let u : State := (s.afterAnsweredPoll st rest).scheduled es
  have hpoll : pollStep (s.scheduled (.ectb :: es)) = (s.afterAnsweredPoll st rest).scheduled (.ectb :: es) :=
    pollStep_oracle (s := s.scheduled (.ectb :: es)) hf he ha hw
  have hfirst : moveOf .ectb (s.scheduled (.ectb :: es)) = .next ((s.afterAnsweredPoll st rest).scheduled (.ectb :: es)) := by
    rw [← hpoll]
    exact moveOf_poll (s := s.scheduled (.ectb :: es)) hc hf hs (by rw [hpoll]; exact hf)
  have hsecond : moveOf .ectb u = .next t :=
    moveOf_ectb_of_runs (runs_of_current (s := u) (busy_of_tx hf) hc)
      ((exec_act (s := u) (current_isRequest hc) hf rfl).trans hact) (.inl hb)
  rw [run_succ_of_move (n + 1) hfirst, run_succ_of_move n hsecond]

/-- The last access of a read with the EC under no law. -/
theorem actStep_read_oracle (hk : s.ectb.txKind = .rd) (hg : s.ectb.txStage = .three) (h2 : s.ectb.k < 2)
    (he : s.ec = .oracle) (ha : s.env.answers = b :: rest) :
    actStep s = .next { s.afterAnswer (.readData b) rest with ectb := (s.ectb.latchByte b).endTx } := by
  have hend (f : Ectb → Ectb) : ((s.afterAnswer (.readData b) rest).onEctb f).endRace =
      (s.afterAnswer (.readData b) rest).onEctb f :=
    State.ext rfl ((congrArg Ec.endRace he).trans he.symm) rfl rfl rfl rfl
  obtain h0 | h1 : s.ectb.k = 0 ∨ s.ectb.k = 1 := by omega
  · rw [actStep_rd_three_zero hk hg h0, readData_oracle he ha, hend, Ectb.latchByte, if_pos h0]
    rfl
  · rw [actStep_rd_three_one hk hg h1, readData_oracle he ha, hend, Ectb.latchByte, if_neg (by omega)]
    rfl

/-- A read transaction whose answers satisfy each wait: any byte may be read (R64). -/
theorem run_answeredRead {p : Plan} (n : Nat) (hc : s.ectb.current = some i) (hf : s.ectb.fsm = .seq)
    (hp : planOf i s.ectb = some p) (ht : p.txs[s.ectb.k]? = some (.rd a)) (hk : s.ectb.k < 2) (he : s.ec = .oracle)
    (ha : s.env.answers = st₁ :: st₂ :: st₃ :: b :: rest) (h₁ : st₁.getLsbD 1 = false) (h₂ : st₂.getLsbD 1 = false)
    (h₃ : st₃.getLsbD 0 = true) :
    run (n + 7) (s.scheduled (List.replicate 7 Event.ectb ++ es)) =
      run n ((s.afterAnsweredRead a st₁ st₂ st₃ b rest).scheduled es) := by
  let s₁ : State := s.onEctb (Ectb.start (.rd a))
  let s₂ : State :=
    (writeCommand Config.cmdRead (s₁.afterAnsweredPoll st₁ (st₂ :: st₃ :: b :: rest))).onEctb (Ectb.nextStage .two)
  let s₃ : State := (writeData a (s₂.afterAnsweredPoll st₂ (st₃ :: b :: rest))).onEctb (Ectb.nextStage .three)
  let s₄ : State := s₃.afterAnsweredPoll st₃ (b :: rest)
  let t : State := { s₄.afterAnswer (.readData b) rest with ectb := (s₄.ectb.latchByte b).endTx }
  have he₂ : s₂.ec = .oracle := congrArg (Ec.deliver · Config.cmdRead true) he
  have he₃ : s₃.ec = .oracle := congrArg (Ec.deliver · a false) he₂
  have ht' : t = s.afterAnsweredRead a st₁ st₂ st₃ b rest := State.ext rfl (he₃.trans he.symm) rfl rfl rfl rfl
  calc run (n + 7) (s.scheduled (List.replicate 7 Event.ectb ++ es))
    _ = run (n + 6) (s₁.scheduled (List.replicate 6 Event.ectb ++ es)) := run_start (n + 6) hc hf hp ht
    _ = run (n + 4) (s₂.scheduled (List.replicate 4 Event.ectb ++ es)) :=
      run_answered_act (s := s₁) (n + 4) hc rfl rfl he ha ((waitHolds_iff _ _ _).2 h₁)
        (actStep_rd_one (s := (s₁.afterAnsweredPoll st₁ _).scheduled (List.replicate 4 Event.ectb ++ es)) rfl rfl) rfl
    _ = run (n + 2) (s₃.scheduled (List.replicate 2 Event.ectb ++ es)) :=
      run_answered_act (s := s₂) (n + 2) hc rfl rfl he₂ rfl ((waitHolds_iff _ _ _).2 h₂)
        (actStep_two (s := (s₂.afterAnsweredPoll st₂ _).scheduled (List.replicate 2 Event.ectb ++ es)) rfl) rfl
    _ = run n (t.scheduled es) :=
      run_answered_act (s := s₃) n hc rfl rfl he₃ rfl ((waitHolds_iff _ _ _).2 h₃)
        (actStep_read_oracle (s := s₄.scheduled es) rfl rfl hk he₃ rfl) rfl
    _ = _ := by rw [ht']

end Answered

/-- Settles O56: two read transactions with the EC under no law, and the finish with the composite of the bytes they read. -/
theorem compositeMayCombineAnyTwoReadings : Obligations.CompositeMayCombineAnyTwoReadings := by
  rintro s f d lo hi st₁ st₂ st₃ st₄ st₅ st₆ rest hready he rfl hw hd h₁ h₂ h₃ h₄ h₅ h₆ ha
  let d : Descriptor := regmap s.params f
  let sc : Half := if Desc.kind d = .u16le then 1 else Desc.scale d
  let s₁ : State := s.acceptedWord (.geti f) (Req.formatF opGeti f 0)
  let s₂ : State := s₁.afterAnsweredRead (Desc.addr d) st₁ st₂ st₃ lo (st₄ :: st₅ :: st₆ :: hi :: rest)
  let s₃ : State := s₂.afterAnsweredRead (Desc.addrHi d) st₄ st₅ st₆ hi rest
  have hrun : run 16 (s.requested (.geti f) (List.replicate 16 Event.ectb)) =
      .next (s₃.onEctb (Ectb.finishOk (compose16 lo hi) sc)) := calc
    _ = run 15 (s₁.scheduled (List.replicate 7 Event.ectb ++ List.replicate 8 Event.ectb)) :=
      run_accept 15 rfl hready (fieldError_of_wf hw (kindOk_geti_of_twoBytes hd))
    _ = run 8 (s₂.scheduled (List.replicate 7 Event.ectb ++ [Event.ectb])) :=
      run_answeredRead (s := s₁) 8 rfl rfl (planOf_geti_of_twoBytes f hd) rfl Nat.two_pos he ha h₁ h₂ h₃
    _ = run 1 (s₃.scheduled [Event.ectb]) :=
      run_answeredRead (s := s₂) 1 rfl rfl (planOf_geti_of_twoBytes f hd) rfl Nat.one_lt_two he rfl h₄ h₅ h₆
    _ = _ := run_finish (s := s₃) 0 rfl rfl (planOf_geti_of_twoBytes f hd) (Nat.le_refl 2)
  refine ⟨_, hrun, ?_, rfl⟩
  simp [Ectb.responded, compose16_eq_append, sc, d]

end Sys2Proof.Machine
end

section
/-! PROOFS. The exceptions: how an error ends a request, the refusals at ACCEPT, PortAccess's answer, what `FAILED` leaves
possible, and that nothing stops the machine (60_exceptions.md R221 to R223, R226 to R228, R232, R236). -/

namespace Sys2Proof.Machine

/-- Settles O48: taking the next move keeps the invariant, and in it every agent's move answers. -/
theorem nothingStopsTheMachine : Obligations.NothingStopsTheMachine := by
  intro s hs
  have hi : Invariant s.nextEvent.2 := nextEvent_invariant ((inv_iff s).1 hs)
  exact moveOf_next hi s.nextEvent.1

/-- Settles O16, error by error. -/
theorem errorEndsTheRequest : Obligations.ErrorEndsTheRequest := fun _ => ⟨rfl, rfl, rfl, rfl, rfl⟩

/-! ### Refusals at ACCEPT -/

/-- A request that fails a check ends at its ACCEPT with that error, its latches filled, the ports untouched (R130, R227). -/
theorem exec_refuses_samePorts {i : Instr} {s : State} {err : ErrorKind} (hi : isRequest i = true)
    (hf : s.ectb.fsm = .idle) (he : acceptError s.params i = some err) :
    ∃ t, exec i s = .next t ∧ s.samePorts t ∧ t.ectb = (s.ectb.latched s.params i).finishError err :=
  ⟨_, exec_refuses hi hf he, ⟨rfl, rfl, rfl, rfl⟩, rfl⟩

theorem transportError_of_le {addr : Half} (h : 256 ≤ addr.toNat) : transportError addr = some .invalidRegister := by
  have hout : ¬ addr.toNat < 256 := by omega
  simp [transportError, addrInRange, Config.numRegs, hout]

theorem fieldError_of_not_wf {d : Descriptor} (op : BitVec 4) (hw : Desc.wf d = false) :
    fieldError op d = some .invalidField := by
  simp [fieldError, hw]

/-- Settles O12: an address of 256 or more fails the range check. -/
theorem addressOutOfRangeIsRefused : Obligations.AddressOutOfRangeIsRefused := by
  intro s addr value hf ha
  have herr : transportError addr = some .invalidRegister := transportError_of_le ha
  exact ⟨exec_refuses_samePorts (i := .rdreg addr) rfl hf herr,
    exec_refuses_samePorts (i := .wrreg addr value) rfl hf herr⟩

/-- Settles O14: an absent or malformed entry fails the descriptor check, which comes before the kind check of any operation. -/
theorem absentFieldIsRefused : Obligations.AbsentFieldIsRefused := by
  intro s fidx v n hf hw refused
  have herr (op : BitVec 4) : fieldError op (regmap s.params fidx) = some .invalidField := fieldError_of_not_wf op hw
  exact ⟨exec_refuses_samePorts (i := .getb fidx) rfl hf (herr opGetb),
    exec_refuses_samePorts (i := .geti fidx) rfl hf (herr opGeti),
    exec_refuses_samePorts (i := .setb fidx v) rfl hf (herr opSetb),
    exec_refuses_samePorts (i := .togl fidx) rfl hf (herr opTogl),
    exec_refuses_samePorts (i := .setl fidx n) rfl hf (herr opSetl)⟩

/-! ### PortAccess's answer -/

/-- A queued answer is the one PortAccess gives, and the queue moves on (R236). -/
theorem drawGrant_of_queue {s : State} {g : Bool} {rest : List Bool} (h : s.env.grants = g :: rest) :
    s.drawGrant.1 = g ∧ s.drawGrant.2.env.grants = rest := by
  simp [State.drawGrant, h]

theorem acquire_eq (g : Bool) (c : Ectb) :
    c.acquire g =
      if g then { c with acqState := .granted, fsm := .seq }
      else { c with rspErr := 2, rspValue := 0, rspScale := 0, rspDone := true, fsm := .failed } := rfl

/-- Settles O17: the ACQ step is a draw, of which ECTB sees the answer and every other agent nothing. -/
theorem acquisitionGrantsOrFails : Obligations.AcquisitionGrantsOrFails := by
  intro i s hi hf
  refine ⟨⟨acqStep s, exec_acq hi hf, ?_, rfl, ?_, ?_, ?_, ?_⟩, fun g rest hq => drawGrant_of_queue hq⟩
  · simp only [acqStep, onEctb_ectb, drawGrant_ectb, acquire_eq]
  all_goals simp [acqStep]

/-! ### `FAILED` -/

section Failed
variable {s t : State}

/-- In `FAILED` ECTB has no step enabled, and no request finishes (R232). -/
theorem moveOf_ectb_failed (hf : s.ectb.fsm = .failed) : moveOf .ectb s = .next s := by
  have hstep : ectbStep s = .next s := by simp [ectbStep, hf]
  have hfin : s.finishes s = false := by simp [State.finishes, Ectb.busy, hf]
  rw [ectbMove_of_step hstep, recordFinish_of_no_error (by simp [hfin])]

/-- A move of any agent but ECTB answers from every state. -/
theorem moveOf_next_of_ne_ectb (s : State) {e : Event} (he : e ≠ .ectb) : ∃ t, moveOf e s = .next t := by
  cases e with
  | ectb => exact absurd rfl he
  | ec => exact ecStep_next s
  | _ => exact ⟨_, rfl⟩

/-- Only ECTB takes a presented request: the caller waits for it, and no other agent touches the interface (R94). -/
theorem moveOf_keeps_presented {e : Event} (he : e ≠ .ectb) (hv : s.caller.reqValid = true) (h : moveOf e s = .next t) :
    t.caller.reqValid = true := by
  cases e with
  | ectb => exact absurd rfl he
  | ec =>
    obtain ⟨-, hc, -⟩ := ecStep_frame h
    rwa [hc]
  | ecChange a v =>
    cases h
    obtain ⟨-, hc, -⟩ := ecChange_frame a v s
    rwa [hc]
  | foreign honours x =>
    cases h
    obtain ⟨-, hc, -⟩ := foreignStep_frame honours x s
    rwa [hc]
  | caller =>
    cases h
    rwa [callerStep_caller, move_of_stopped_or_presented s.ectb (.inr hv)]
  | request q =>
    cases h
    rwa [submitStep_caller, submit_of_presented q hv]
  | reset => cases h; exact hv

/-- In `FAILED` every move but a reset answers, with ECTB, its trace and a presented request as they were. -/
theorem moveOf_failed (hf : s.ectb.fsm = .failed) {e : Event} (hr : e ≠ .reset) :
    ∃ t, moveOf e s = .next t ∧ t.ectb = s.ectb ∧ t.trace = s.trace ∧
      (s.caller.reqValid = true → t.caller.reqValid = true) := by
  by_cases he : e = .ectb
  · subst he
    exact ⟨s, moveOf_ectb_failed hf, rfl, rfl, id⟩
  · obtain ⟨t, ht⟩ := moveOf_next_of_ne_ectb s he
    obtain ⟨hectb, htrace⟩ := moveOf_keeps_ectb ht he hr
    exact ⟨t, ht, hectb, htrace, fun hv => moveOf_keeps_presented he hv ht⟩

end Failed

/-- Settles O18: ECTB has no step in `FAILED`, and the other agents' moves reach ECTB only by a reset. -/
theorem failedIsTerminalUntilReset : Obligations.FailedIsTerminalUntilReset := by
  intro s hf
  exact ⟨by simp [Ectb.reqReady, hf], fun e hr => moveOf_failed hf hr, ectbReset s, rfl, rfl, rfl⟩

end Sys2Proof.Machine
end

section
/-! PROOFS. With a finite limit each wait makes at most that many polls, so every request in progress finishes within a bound
on ECTB's moves, whatever the other agents do between them (70_reset_and_hazards.md R271; 40_transport.md R147). -/

namespace Sys2Proof.Machine

/-! ### A bound on ECTB's moves -/

/-- The waits among the last `m` moves of a request whose waits are all satisfied at once: three in a transaction's seven moves,
and within its handshake every other move. -/
def waitsAmong (m : Nat) : Nat := 3 * (m / 7) + m % 7 / 2

/-- The polls already made in the wait under way; none outside a wait. -/
def Ectb.pollsSpent (c : Ectb) : Nat := if c.fsm = .tx ∧ c.txSub = .poll then c.polls else 0

/-- A bound, under a limit of `n`, on the moves ECTB makes before the one that finishes the request in progress: one for each move
left if no wait is unsatisfied, and `n - 1` unsatisfied polls for each wait left, but those already made. -/
def Ectb.movesBound (n : Nat) (c : Ectb) : Nat := c.movesLeft + (n - 1) * waitsAmong c.movesLeft - c.pollsSpent

theorem waitsAmong_mono {m m' : Nat} (h : m ≤ m') : waitsAmong m ≤ waitsAmong m' := by
  unfold waitsAmong
  omega

section MovesBound
variable {c d : Ectb} {n : Nat}

theorem pollsSpent_of_waiting (hw : c.waiting) : c.pollsSpent = c.polls := if_pos hw

theorem pollsSpent_of_not_waiting (hw : ¬ c.waiting) : c.pollsSpent = 0 := if_neg hw

/-- A poll is the first of an even number of moves of its handshake. -/
theorem movesLeft_waiting (hw : c.waiting) : ∃ w < 3, c.movesLeft = 7 * (c.txs.length - (c.k + 1)) + 2 * (w + 1) := by
  obtain ⟨hf, hs⟩ := hw
  rw [movesLeft_tx hf, hs]
  cases c.txStage with
  | one => exact ⟨2, by decide, rfl⟩
  | two => exact ⟨1, by decide, rfl⟩
  | three => exact ⟨0, by decide, rfl⟩

/-- A wait is over once its satisfied poll is made. -/
theorem waitsAmong_lt_of_waiting {m : Nat} (hw : c.waiting) (h : m < c.movesLeft) :
    waitsAmong m < waitsAmong c.movesLeft := by
  obtain ⟨w, hw3, heq⟩ := movesLeft_waiting hw
  generalize c.txs.length - (c.k + 1) = q at heq
  rw [heq] at h ⊢
  have hdiv : m / 7 < q ∨ (m / 7 = q ∧ m % 7 / 2 ≤ w) := by omega
  unfold waitsAmong
  omega

theorem polls_lt_of_waiting (hp : pollsInBound (.finite n) c = true) (hw : c.waiting) : c.polls < n :=
  ((pollsInBound_iff _ _).1 hp n rfl).2 hw.1 hw.2

/-- A move that brings the request nearer its end lowers the bound: out of a wait, the wait's unsatisfied polls, made or not,
no longer count. -/
theorem movesBound_lt_of_movesLeft_lt (hp : pollsInBound (.finite n) c = true) (h : d.movesLeft < c.movesLeft) :
    d.movesBound n < c.movesBound n := by
  unfold Ectb.movesBound
  by_cases hw : c.waiting
  · have hpolls := polls_lt_of_waiting hp hw
    have hwaits : (n - 1) * (waitsAmong d.movesLeft + 1) ≤ (n - 1) * waitsAmong c.movesLeft :=
      Nat.mul_le_mul_left _ (waitsAmong_lt_of_waiting hw h)
    rw [Nat.mul_succ] at hwaits
    rw [pollsSpent_of_waiting hw]
    omega
  · have hwaits : (n - 1) * waitsAmong d.movesLeft ≤ (n - 1) * waitsAmong c.movesLeft :=
      Nat.mul_le_mul_left _ (waitsAmong_mono h.le)
    rw [pollsSpent_of_not_waiting hw]
    omega

/-- An unsatisfied poll lowers the bound by itself. -/
theorem movesBound_lt_of_poll (hp : pollsInBound (.finite n) c = true) (hw : c.waiting) :
    ({ c with polls := c.polls + 1 } : Ectb).movesBound n < c.movesBound n := by
  have hpolls := polls_lt_of_waiting hp hw
  obtain ⟨w, -, heq⟩ := movesLeft_waiting hw
  have hwaits : (n - 1) * (0 + 1) ≤ (n - 1) * waitsAmong c.movesLeft :=
    Nat.mul_le_mul_left _ (Nat.zero_lt_of_lt (waitsAmong_lt_of_waiting (m := 0) hw (by omega)))
  unfold Ectb.movesBound
  rw [movesLeft_polls, pollsSpent_of_waiting hw, pollsSpent_of_waiting (c := { c with polls := c.polls + 1 }) hw]
  simp only
  omega

/-- A request has at most permission to ask for and three transactions to make. -/
theorem movesLeft_le (c : Ectb) : c.movesLeft ≤ 22 := by
  have hlen := txs_length_le c
  have hleft : handshakeLeft c.txStage c.txSub ≤ 6 := by cases c.txStage <;> cases c.txSub <;> decide
  unfold Ectb.movesLeft
  split <;> omega

/-- A limit is at least 1, and nine waits are the most a request has. -/
theorem movesBound_le (hn : 0 < n) (c : Ectb) : c.movesBound n ≤ 9 * n + 13 := by
  have hwaits : (n - 1) * waitsAmong c.movesLeft ≤ (n - 1) * waitsAmong 22 :=
    Nat.mul_le_mul_left _ (waitsAmong_mono (movesLeft_le c))
  have hmax : waitsAmong 22 = 9 := rfl
  have hleft := movesLeft_le c
  rw [hmax] at hwaits
  unfold Ectb.movesBound
  omega

end MovesBound

/-! ### Bounded liveness -/

section BoundedLiveness
variable {n : Nat} {s t : State}

/-- Within a request ECTB's move finishes it or lowers the bound. -/
theorem ectbStep_movesBound (hp : pollsInBound (.finite n) s.ectb = true) (hb : s.ectb.busy = true)
    (h : ectbStep s = .next t) :
    t.ectb.finished ∨ (t.ectb.busy = true ∧ t.ectb.movesBound n < s.ectb.movesBound n) := by
  rcases ectbStep_advances hb h with (hfin | ⟨hbusy, hlt⟩) | ⟨hw, -, hectb⟩
  · exact .inl hfin
  · exact .inr ⟨hbusy, movesBound_lt_of_movesLeft_lt hp hlt⟩
  · rw [hectb]
    exact .inr ⟨hb, movesBound_lt_of_poll hp hw⟩

/-- Within a request any move but a reset finishes it, or leaves it in progress with the bound lowered for each move ECTB made. -/
theorem moveOf_movesBound {e : Event} (hp : pollsInBound (.finite n) s.ectb = true) (hb : s.ectb.busy = true)
    (he : e ≠ .reset) (h : moveOf e s = .next t) :
    t.ectb.finished ∨ (t.ectb.busy = true ∧ t.ectb.movesBound n + [e].count .ectb ≤ s.ectb.movesBound n) := by
  by_cases hm : e = .ectb
  · subst hm
    obtain ⟨u, hu, rfl⟩ := ectbMove_next h
    exact ectbStep_movesBound (t := u) hp hb hu
  · obtain ⟨hectb, -⟩ := moveOf_keeps_ectb h hm he
    rw [hectb, List.count_singleton, if_neg (by simpa using hm)]
    exact .inr ⟨hb, le_rfl⟩

/-- A request in progress finishes in a run of scheduled moves with no reset that gives ECTB more moves than the bound. -/
theorem run_finishes {es rest : List Event} (hi : Invariant s) (hl : s.params.pollLimit = .finite n)
    (hb : s.ectb.busy = true) (hsched : s.env.schedule = es ++ rest) (hreset : Event.reset ∉ es)
    (hcount : s.ectb.movesBound n < es.count .ectb) :
    ∃ m ≤ es.length, ∃ t, run m s = .next t ∧ t.ectb.finished := by
  induction es generalizing s with
  | nil => exact absurd hcount (Nat.not_lt_zero _)
  | cons e es ih =>
    obtain ⟨hne, hrest⟩ := not_or.1 (mt List.mem_cons.2 hreset)
    let u : State := s.withSchedule (es ++ rest)
    have hu : Invariant u := hi.of_ec rfl rfl rfl hi.registers hi.race
    obtain ⟨t, ht⟩ := moveOf_next hu e
    have hstep : step s = .next t := (step_of_schedule hsched).trans ht
    have hp : pollsInBound (.finite n) u.ectb = true := hl ▸ hi.polls
    rcases moveOf_movesBound hp hb (Ne.symm hne) ht with hfin | ⟨hbusy, hlt⟩
    · exact ⟨1, Nat.succ_pos _, t, by simp only [run, hstep], hfin⟩
    · have hcount' : t.ectb.movesBound n < es.count .ectb := by
        rw [← List.singleton_append, List.count_append] at hcount
        have hlower : t.ectb.movesBound n + [e].count .ectb ≤ s.ectb.movesBound n := hlt
        omega
      obtain ⟨m, hm, v, hrun, hfin⟩ :=
        ih (moveOf_invariant hu ht) ((congrArg Params.pollLimit (moveOf_params ht)).trans hl) hbusy (moveOf_schedule ht) hrest
          hcount'
      exact ⟨m + 1, Nat.succ_le_succ hm, v, by simpa only [run, hstep] using hrun, hfin⟩

end BoundedLiveness

/-- Settles O57: each of ECTB's moves lowers a bound of at most 9n + 13 on the moves before the one that finishes the request, and
no other agent's move raises it. -/
theorem finiteLimitFinishesEveryRequest : Obligations.FiniteLimitFinishesEveryRequest := by
  intro s n es hinv hl hf hreset hcount
  have hi : Invariant s := (inv_iff s).1 hinv
  obtain ⟨hpos, -⟩ := (pollsInBound_iff _ _).1 hi.polls n hl
  have hbound : s.ectb.movesBound n < es.count .ectb := by
    have := movesBound_le hpos s.ectb
    omega
  exact run_finishes (s := s.scheduled es) (hi.of_ec rfl rfl rfl hi.registers hi.race) hl ((busy_iff _).2 hf) rfl hreset hbound

end Sys2Proof.Machine
end

section
/-! PROOFS. Reset: the values it leaves, and the invariant right after it (70_reset_and_hazards.md R260 to R262). -/

namespace Sys2Proof.Machine

theorem step_reset (s : State) : step (s.scheduled [.reset]) = .next (ectbReset s) := rfl

/-- The end of a race changes no other EC (R78). -/
theorem ecEndRace_of_no_race {e : Ec} (h : e.inRace = false) : e.endRace = e := by
  cases e with
  | oracle => rfl
  | ref e => rfl
  | race e => cases h

/-- A reset outside a request leaves the caller alone. -/
theorem ectbReset_caller_of_not_busy {s : State} (h : s.ectb.fsm = .idle ∨ s.ectb.fsm = .failed) :
    (ectbReset s).caller = s.caller := by
  rw [ectbReset_caller, (not_busy_iff _).2 h, Bool.or_false]

/-- The caller knows of a request that a reset cut off. -/
theorem ectbReset_caller_of_busy {s : State} (h : s.ectb.fsm = .acq ∨ s.ectb.fsm = .seq ∨ s.ectb.fsm = .tx) :
    (ectbReset s).caller = { s.caller with cut := true } := by
  rw [ectbReset_caller, (busy_iff _).2 h, Bool.or_true]

/-- Settles O44: the reset values are those of `Ectb.reset`, at power-on and after a reset. -/
theorem resetValues : Obligations.ResetValues := by
  unfold Obligations.ResetValues
  intro atReset
  have hreset : atReset Ectb.reset := ⟨rfl, rfl, rfl, rfl, rfl, rfl, rfl, rfl, rfl⟩
  exact ⟨hreset, rfl, fun s => ⟨ectbReset s, step_reset s, hreset, rfl, ecEndRace_of_no_race, ectbReset_caller_of_not_busy,
    ectbReset_caller_of_busy, rfl, rfl⟩⟩

/-- Settles O46: right after reset ECTB is in `IDLE`, of which nothing is asked, the trace is empty, there is no limit, and the EC
is under no law. -/
theorem resetMeetsTheInvariant : Obligations.ResetMeetsTheInvariant :=
  (inv_iff _).2
    { control := inv_of_idle rfl
      code := Nat.zero_le 5
      permission := .inr rfl
      commands := fun _ hx => nomatch hx
      polls := rfl
      registers := rfl
      race := fun hr => nomatch hr }

end Sys2Proof.Machine
end
